-- ==== Sys2Proof/Word.lean ====
section
/-! DEFINITION. The bytes and words of the engine (spec/00_scope.md R7). -/

namespace Sys2Proof

/-- A byte of a memory or of the stream (R62: every engine access is one byte). -/
abbrev Byte := BitVec 8

/-- A host-visible register: REG_BITS = 32 (R6, R20). -/
abbrev Word := BitVec 32

end Sys2Proof
end

