-- ==== Sys2Proof/Syntax.lean ====
section
/-! DEFINITION. The elements the engine interprets, one constructor per row of spec/opcode_table.json
(spec/30_encoding.md R90, R105), and the eight formats they come in (R91 to R99). An element's operands are the
bits of its own word; extra bits and block contents follow in the stream and are read by its meaning. -/

namespace Sys2Proof

/-- The formats of R91 to R99. The format of the next element is set by the engine's phase, never by its bits. -/
inductive Format where
  | zlib | blk | clsym | ll | dist | row | pix | ctrl
  deriving DecidableEq, Repr

/-- How many bits the word of a format has (R91, R92, R95, R96, R97, R98, R99). -/
def Format.width : Format → Nat
  | .zlib => 16
  | .blk => 3
  | .clsym => 5
  | .ll => 9
  | .dist => 5
  | .row => 8
  | .pix => 16
  | .ctrl => 32

/-- The elements of the opcode table. -/
inductive Instr where
  /-- ZLIB_HDR (R170): the ten bits the engine never examines are the operands -/
  | zlibHdr (cinfo : Nat) (fcheck : Nat) (flevel : Nat)
  /-- BLK_STORED (R173) -/
  | blkStored (final : Bool)
  /-- BLK_FIXED (R174) -/
  | blkFixed (final : Bool)
  /-- BLK_DYNAMIC (R175) -/
  | blkDynamic (final : Bool)
  /-- BLK_RESERVED (R184) -/
  | blkReserved (final : Bool)
  /-- CL_LEN (R179) -/
  | clLen (len : Nat)
  /-- CL_REP16 (R180) -/
  | clRep16
  /-- CL_ZERO17 (R181) -/
  | clZero17
  /-- CL_ZERO18 (R182) -/
  | clZero18
  /-- LIT (R250) -/
  | lit (byte : Byte)
  /-- EOB (R256) -/
  | eob
  /-- LEN257 (R257) -/
  | len257
  /-- LEN258 (R258) -/
  | len258
  /-- LEN259 (R259) -/
  | len259
  /-- LEN260 (R260) -/
  | len260
  /-- LEN261 (R261) -/
  | len261
  /-- LEN262 (R262) -/
  | len262
  /-- LEN263 (R263) -/
  | len263
  /-- LEN264 (R264) -/
  | len264
  /-- LEN265 (R265) -/
  | len265
  /-- LEN266 (R266) -/
  | len266
  /-- LEN267 (R267) -/
  | len267
  /-- LEN268 (R268) -/
  | len268
  /-- LEN269 (R269) -/
  | len269
  /-- LEN270 (R270) -/
  | len270
  /-- LEN271 (R271) -/
  | len271
  /-- LEN272 (R272) -/
  | len272
  /-- LEN273 (R273) -/
  | len273
  /-- LEN274 (R274) -/
  | len274
  /-- LEN275 (R275) -/
  | len275
  /-- LEN276 (R276) -/
  | len276
  /-- LEN277 (R277) -/
  | len277
  /-- LEN278 (R278) -/
  | len278
  /-- LEN279 (R279) -/
  | len279
  /-- LEN280 (R280) -/
  | len280
  /-- LEN281 (R281) -/
  | len281
  /-- LEN282 (R282) -/
  | len282
  /-- LEN283 (R283) -/
  | len283
  /-- LEN284 (R284) -/
  | len284
  /-- LEN285 (R285) -/
  | len285
  /-- LL286 (R286) -/
  | ll286
  /-- LL287 (R287) -/
  | ll287
  /-- DIST0 (R300) -/
  | dist0
  /-- DIST1 (R301) -/
  | dist1
  /-- DIST2 (R302) -/
  | dist2
  /-- DIST3 (R303) -/
  | dist3
  /-- DIST4 (R304) -/
  | dist4
  /-- DIST5 (R305) -/
  | dist5
  /-- DIST6 (R306) -/
  | dist6
  /-- DIST7 (R307) -/
  | dist7
  /-- DIST8 (R308) -/
  | dist8
  /-- DIST9 (R309) -/
  | dist9
  /-- DIST10 (R310) -/
  | dist10
  /-- DIST11 (R311) -/
  | dist11
  /-- DIST12 (R312) -/
  | dist12
  /-- DIST13 (R313) -/
  | dist13
  /-- DIST14 (R314) -/
  | dist14
  /-- DIST15 (R315) -/
  | dist15
  /-- DIST16 (R316) -/
  | dist16
  /-- DIST17 (R317) -/
  | dist17
  /-- DIST18 (R318) -/
  | dist18
  /-- DIST19 (R319) -/
  | dist19
  /-- DIST20 (R320) -/
  | dist20
  /-- DIST21 (R321) -/
  | dist21
  /-- DIST22 (R322) -/
  | dist22
  /-- DIST23 (R323) -/
  | dist23
  /-- DIST24 (R324) -/
  | dist24
  /-- DIST25 (R325) -/
  | dist25
  /-- DIST26 (R326) -/
  | dist26
  /-- DIST27 (R327) -/
  | dist27
  /-- DIST28 (R328) -/
  | dist28
  /-- DIST29 (R329) -/
  | dist29
  /-- DIST30 (R330) -/
  | dist30
  /-- DIST31 (R331) -/
  | dist31
  /-- FILT_NONE (R343) -/
  | filtNone
  /-- FILT_SUB (R344) -/
  | filtSub
  /-- FILT_UP (R345) -/
  | filtUp
  /-- FILT_AVG (R346) -/
  | filtAvg
  /-- FILT_PAETH (R347) -/
  | filtPaeth
  /-- PIX_GRAY8 (R363) -/
  | pixGray8
  /-- PIX_RGB8 (R364) -/
  | pixRgb8
  /-- PIX_IDX1 (R366) -/
  | pixIdx1
  /-- PIX_IDX2 (R367) -/
  | pixIdx2
  /-- PIX_IDX4 (R368) -/
  | pixIdx4
  /-- PIX_IDX8 (R369) -/
  | pixIdx8
  /-- PIX_GA8 (R370) -/
  | pixGa8
  /-- PIX_RGBA8 (R371) -/
  | pixRgba8
  /-- START (R391) -/
  | start
  /-- RESET (R393) -/
  | reset
  deriving DecidableEq, Repr

end Sys2Proof
end

