-- ==== Sys2Proof/Decode.lean ====
section
/-! DEFINITION. From the word of a format to the element it stands for (spec/30_encoding.md R91 to R99, R105, R106),
and back. Decoding is total: a word that is no element is refused by name. Which symbol a Huffman code stands for is
not decided here but by the block's own tables (spec/41_huffman.md R153, Machine/Operands.lean). -/

namespace Sys2Proof

/-- Why a word is no element (R106). -/
inductive DecodeError where
  /-- CM of the zlib header is not 8 (R91). -/
  | zlibMethod
  /-- FDICT of the zlib header is 1 (R91). -/
  | zlibFdict
  /-- A code-length, literal/length or distance symbol outside its alphabet (R95, R96); no table can give one. -/
  | symbol
  /-- A filter-type byte of 5 to 255 (R97). -/
  | filterType
  /-- A colour type outside 0, 2, 3, 4, 6 (R98, R392 test 3). -/
  | colorType
  /-- A depth that is not legal for its colour type (R98, R392 test 4). -/
  | depth
  /-- A CTRL write with neither START nor RESET: no operation (R99). -/
  | noCommand
  /-- More bits than the format's word has. -/
  | tooWide
  deriving DecidableEq, Repr

/-- `n` bits of `w` from bit `lo` up (R7). -/
def bitsOf (w lo n : Nat) : Nat := (w >>> lo) % 2 ^ n

/-- A row of the opcode table: a word `w` is this element when `w &&& mask = patt`. -/
structure OpRow where
  mask : Nat
  patt : Nat
  make : Nat → Instr

/-- The rows of format ZLIB (R91). -/
def zlibRows : List OpRow :=
  [ ⟨0x200f, 0x8, fun w => .zlibHdr (bitsOf w 4 4) (bitsOf w 8 5) (bitsOf w 14 2)⟩ ]

/-- The rows of format BLK (R92). -/
def blkRows : List OpRow :=
  [ ⟨0x6, 0x0, fun w => .blkStored (w.testBit 0)⟩,
    ⟨0x6, 0x2, fun w => .blkFixed (w.testBit 0)⟩,
    ⟨0x6, 0x4, fun w => .blkDynamic (w.testBit 0)⟩,
    ⟨0x6, 0x6, fun w => .blkReserved (w.testBit 0)⟩ ]

/-- The rows of format CLSYM (R95). -/
def clsymRows : List OpRow :=
  [ ⟨0x10, 0x0, fun w => .clLen (bitsOf w 0 4)⟩,
    ⟨0x1f, 0x10, fun _ => .clRep16⟩,
    ⟨0x1f, 0x11, fun _ => .clZero17⟩,
    ⟨0x1f, 0x12, fun _ => .clZero18⟩ ]

/-- The rows of format LL (R96, R250 to R287). -/
def llRows : List OpRow :=
  [ ⟨0x100, 0x0, fun w => .lit (BitVec.ofNat 8 w)⟩,
    ⟨0x1ff, 0x100, fun _ => .eob⟩,
    ⟨0x1ff, 0x101, fun _ => .len257⟩,
    ⟨0x1ff, 0x102, fun _ => .len258⟩,
    ⟨0x1ff, 0x103, fun _ => .len259⟩,
    ⟨0x1ff, 0x104, fun _ => .len260⟩,
    ⟨0x1ff, 0x105, fun _ => .len261⟩,
    ⟨0x1ff, 0x106, fun _ => .len262⟩,
    ⟨0x1ff, 0x107, fun _ => .len263⟩,
    ⟨0x1ff, 0x108, fun _ => .len264⟩,
    ⟨0x1ff, 0x109, fun _ => .len265⟩,
    ⟨0x1ff, 0x10a, fun _ => .len266⟩,
    ⟨0x1ff, 0x10b, fun _ => .len267⟩,
    ⟨0x1ff, 0x10c, fun _ => .len268⟩,
    ⟨0x1ff, 0x10d, fun _ => .len269⟩,
    ⟨0x1ff, 0x10e, fun _ => .len270⟩ ] ++
  [ ⟨0x1ff, 0x10f, fun _ => .len271⟩,
    ⟨0x1ff, 0x110, fun _ => .len272⟩,
    ⟨0x1ff, 0x111, fun _ => .len273⟩,
    ⟨0x1ff, 0x112, fun _ => .len274⟩,
    ⟨0x1ff, 0x113, fun _ => .len275⟩,
    ⟨0x1ff, 0x114, fun _ => .len276⟩,
    ⟨0x1ff, 0x115, fun _ => .len277⟩,
    ⟨0x1ff, 0x116, fun _ => .len278⟩,
    ⟨0x1ff, 0x117, fun _ => .len279⟩,
    ⟨0x1ff, 0x118, fun _ => .len280⟩,
    ⟨0x1ff, 0x119, fun _ => .len281⟩,
    ⟨0x1ff, 0x11a, fun _ => .len282⟩,
    ⟨0x1ff, 0x11b, fun _ => .len283⟩,
    ⟨0x1ff, 0x11c, fun _ => .len284⟩,
    ⟨0x1ff, 0x11d, fun _ => .len285⟩,
    ⟨0x1ff, 0x11e, fun _ => .ll286⟩ ] ++
  [ ⟨0x1ff, 0x11f, fun _ => .ll287⟩ ]

/-- The rows of format DIST (R96, R300 to R331). -/
def distRows : List OpRow :=
  [ ⟨0x1f, 0x0, fun _ => .dist0⟩,
    ⟨0x1f, 0x1, fun _ => .dist1⟩,
    ⟨0x1f, 0x2, fun _ => .dist2⟩,
    ⟨0x1f, 0x3, fun _ => .dist3⟩,
    ⟨0x1f, 0x4, fun _ => .dist4⟩,
    ⟨0x1f, 0x5, fun _ => .dist5⟩,
    ⟨0x1f, 0x6, fun _ => .dist6⟩,
    ⟨0x1f, 0x7, fun _ => .dist7⟩,
    ⟨0x1f, 0x8, fun _ => .dist8⟩,
    ⟨0x1f, 0x9, fun _ => .dist9⟩,
    ⟨0x1f, 0xa, fun _ => .dist10⟩,
    ⟨0x1f, 0xb, fun _ => .dist11⟩,
    ⟨0x1f, 0xc, fun _ => .dist12⟩,
    ⟨0x1f, 0xd, fun _ => .dist13⟩,
    ⟨0x1f, 0xe, fun _ => .dist14⟩,
    ⟨0x1f, 0xf, fun _ => .dist15⟩ ] ++
  [ ⟨0x1f, 0x10, fun _ => .dist16⟩,
    ⟨0x1f, 0x11, fun _ => .dist17⟩,
    ⟨0x1f, 0x12, fun _ => .dist18⟩,
    ⟨0x1f, 0x13, fun _ => .dist19⟩,
    ⟨0x1f, 0x14, fun _ => .dist20⟩,
    ⟨0x1f, 0x15, fun _ => .dist21⟩,
    ⟨0x1f, 0x16, fun _ => .dist22⟩,
    ⟨0x1f, 0x17, fun _ => .dist23⟩,
    ⟨0x1f, 0x18, fun _ => .dist24⟩,
    ⟨0x1f, 0x19, fun _ => .dist25⟩,
    ⟨0x1f, 0x1a, fun _ => .dist26⟩,
    ⟨0x1f, 0x1b, fun _ => .dist27⟩,
    ⟨0x1f, 0x1c, fun _ => .dist28⟩,
    ⟨0x1f, 0x1d, fun _ => .dist29⟩,
    ⟨0x1f, 0x1e, fun _ => .dist30⟩,
    ⟨0x1f, 0x1f, fun _ => .dist31⟩ ]

/-- The rows of format ROW (R97). -/
def rowRows : List OpRow :=
  [ ⟨0xff, 0x0, fun _ => .filtNone⟩,
    ⟨0xff, 0x1, fun _ => .filtSub⟩,
    ⟨0xff, 0x2, fun _ => .filtUp⟩,
    ⟨0xff, 0x3, fun _ => .filtAvg⟩,
    ⟨0xff, 0x4, fun _ => .filtPaeth⟩ ]

/-- The rows of format PIX (R98). -/
def pixRows : List OpRow :=
  [ ⟨0xffff, 0x8, fun _ => .pixGray8⟩,
    ⟨0xffff, 0x208, fun _ => .pixRgb8⟩,
    ⟨0xffff, 0x301, fun _ => .pixIdx1⟩,
    ⟨0xffff, 0x302, fun _ => .pixIdx2⟩,
    ⟨0xffff, 0x304, fun _ => .pixIdx4⟩,
    ⟨0xffff, 0x308, fun _ => .pixIdx8⟩,
    ⟨0xffff, 0x408, fun _ => .pixGa8⟩,
    ⟨0xffff, 0x608, fun _ => .pixRgba8⟩ ]

/-- The rows of format CTRL (R99). -/
def ctrlRows : List OpRow :=
  [ ⟨0x3, 0x1, fun _ => .start⟩,
    ⟨0x2, 0x2, fun _ => .reset⟩ ]

/-- The rows of a format. -/
def Format.rows : Format → List OpRow
  | .zlib => zlibRows
  | .blk => blkRows
  | .clsym => clsymRows
  | .ll => llRows
  | .dist => distRows
  | .row => rowRows
  | .pix => pixRows
  | .ctrl => ctrlRows

/-- The name of the refusal of a word that no row of its format takes. -/
def Format.reject : Format → Nat → DecodeError
  | .zlib, w => if bitsOf w 0 4 ≠ 8 then .zlibMethod else .zlibFdict
  | .blk, _ => .symbol
  | .clsym, _ => .symbol
  | .ll, _ => .symbol
  | .dist, _ => .symbol
  | .row, _ => .filterType
  | .pix, w => if bitsOf w 8 8 ∈ [0, 2, 3, 4, 6] then .depth else .colorType
  | .ctrl, _ => .noCommand

/-- The element a word stands for in a format: the first row of the table that takes it. -/
def decodeWord (f : Format) (w : Nat) : Except DecodeError Instr :=
  if w < 2 ^ f.width then
    match f.rows.find? (fun r => (w &&& r.mask) == r.patt) with
    | some r => .ok (r.make w)
    | none => .error (f.reject w)
  else .error .tooWide

/-- The number the bytes of a word stand for, the first byte lowest (R91, R61). -/
def wordOfBytes : List Byte → Nat
  | [] => 0
  | b :: bs => b.toNat + 2 ^ 8 * wordOfBytes bs

/-- `n` bytes of a word, the lowest first. -/
def bytesOfWord : Nat → Nat → List Byte
  | 0, _ => []
  | n + 1, w => BitVec.ofNat 8 w :: bytesOfWord n (w / 2 ^ 8)

/-- Decoding from bytes: total on any bytes. -/
def decodeBytes (f : Format) (bs : List Byte) : Except DecodeError Instr := decodeWord f (wordOfBytes bs)

/-- The format an element is of. -/
def Instr.format : Instr → Format
  | .zlibHdr _ _ _ => .zlib
  | .blkStored _ => .blk
  | .blkFixed _ => .blk
  | .blkDynamic _ => .blk
  | .blkReserved _ => .blk
  | .clLen _ => .clsym
  | .clRep16 => .clsym
  | .clZero17 => .clsym
  | .clZero18 => .clsym
  | .lit _ => .ll
  | .eob => .ll
  | .len257 => .ll
  | .len258 => .ll
  | .len259 => .ll
  | .len260 => .ll
  | .len261 => .ll
  | .len262 => .ll
  | .len263 => .ll
  | .len264 => .ll
  | .len265 => .ll
  | .len266 => .ll
  | .len267 => .ll
  | .len268 => .ll
  | .len269 => .ll
  | .len270 => .ll
  | .len271 => .ll
  | .len272 => .ll
  | .len273 => .ll
  | .len274 => .ll
  | .len275 => .ll
  | .len276 => .ll
  | .len277 => .ll
  | .len278 => .ll
  | .len279 => .ll
  | .len280 => .ll
  | .len281 => .ll
  | .len282 => .ll
  | .len283 => .ll
  | .len284 => .ll
  | .len285 => .ll
  | .ll286 => .ll
  | .ll287 => .ll
  | .dist0 => .dist
  | .dist1 => .dist
  | .dist2 => .dist
  | .dist3 => .dist
  | .dist4 => .dist
  | .dist5 => .dist
  | .dist6 => .dist
  | .dist7 => .dist
  | .dist8 => .dist
  | .dist9 => .dist
  | .dist10 => .dist
  | .dist11 => .dist
  | .dist12 => .dist
  | .dist13 => .dist
  | .dist14 => .dist
  | .dist15 => .dist
  | .dist16 => .dist
  | .dist17 => .dist
  | .dist18 => .dist
  | .dist19 => .dist
  | .dist20 => .dist
  | .dist21 => .dist
  | .dist22 => .dist
  | .dist23 => .dist
  | .dist24 => .dist
  | .dist25 => .dist
  | .dist26 => .dist
  | .dist27 => .dist
  | .dist28 => .dist
  | .dist29 => .dist
  | .dist30 => .dist
  | .dist31 => .dist
  | .filtNone => .row
  | .filtSub => .row
  | .filtUp => .row
  | .filtAvg => .row
  | .filtPaeth => .row
  | .pixGray8 => .pix
  | .pixRgb8 => .pix
  | .pixIdx1 => .pix
  | .pixIdx2 => .pix
  | .pixIdx4 => .pix
  | .pixIdx8 => .pix
  | .pixGa8 => .pix
  | .pixRgba8 => .pix
  | .start => .ctrl
  | .reset => .ctrl

/-- The word of an element in its format: the row's match, with the operands in their fields. -/
def encode : Instr → Nat
  | .zlibHdr cinfo fcheck flevel => 0x8 + cinfo * 2 ^ 4 + fcheck * 2 ^ 8 + flevel * 2 ^ 14
  | .blkStored final => 0x0 + final.toNat
  | .blkFixed final => 0x2 + final.toNat
  | .blkDynamic final => 0x4 + final.toNat
  | .blkReserved final => 0x6 + final.toNat
  | .clLen len => len
  | .clRep16 => 0x10
  | .clZero17 => 0x11
  | .clZero18 => 0x12
  | .lit byte => byte.toNat
  | .eob => 0x100
  | .len257 => 0x101
  | .len258 => 0x102
  | .len259 => 0x103
  | .len260 => 0x104
  | .len261 => 0x105
  | .len262 => 0x106
  | .len263 => 0x107
  | .len264 => 0x108
  | .len265 => 0x109
  | .len266 => 0x10a
  | .len267 => 0x10b
  | .len268 => 0x10c
  | .len269 => 0x10d
  | .len270 => 0x10e
  | .len271 => 0x10f
  | .len272 => 0x110
  | .len273 => 0x111
  | .len274 => 0x112
  | .len275 => 0x113
  | .len276 => 0x114
  | .len277 => 0x115
  | .len278 => 0x116
  | .len279 => 0x117
  | .len280 => 0x118
  | .len281 => 0x119
  | .len282 => 0x11a
  | .len283 => 0x11b
  | .len284 => 0x11c
  | .len285 => 0x11d
  | .ll286 => 0x11e
  | .ll287 => 0x11f
  | .dist0 => 0x0
  | .dist1 => 0x1
  | .dist2 => 0x2
  | .dist3 => 0x3
  | .dist4 => 0x4
  | .dist5 => 0x5
  | .dist6 => 0x6
  | .dist7 => 0x7
  | .dist8 => 0x8
  | .dist9 => 0x9
  | .dist10 => 0xa
  | .dist11 => 0xb
  | .dist12 => 0xc
  | .dist13 => 0xd
  | .dist14 => 0xe
  | .dist15 => 0xf
  | .dist16 => 0x10
  | .dist17 => 0x11
  | .dist18 => 0x12
  | .dist19 => 0x13
  | .dist20 => 0x14
  | .dist21 => 0x15
  | .dist22 => 0x16
  | .dist23 => 0x17
  | .dist24 => 0x18
  | .dist25 => 0x19
  | .dist26 => 0x1a
  | .dist27 => 0x1b
  | .dist28 => 0x1c
  | .dist29 => 0x1d
  | .dist30 => 0x1e
  | .dist31 => 0x1f
  | .filtNone => 0x0
  | .filtSub => 0x1
  | .filtUp => 0x2
  | .filtAvg => 0x3
  | .filtPaeth => 0x4
  | .pixGray8 => 0x8
  | .pixRgb8 => 0x208
  | .pixIdx1 => 0x301
  | .pixIdx2 => 0x302
  | .pixIdx4 => 0x304
  | .pixIdx8 => 0x308
  | .pixGa8 => 0x408
  | .pixRgba8 => 0x608
  | .start => 0x1
  | .reset => 0x2

/-- A CHOICE OF FORMAT FOR A WORD WITHOUT A PHASE (DESIGN CHOICE, safe, entry 18). The spec's words do not carry
their format: word 0 of 8 bits is BLK_STORED, CL_LEN, DIST0 or FILT_NONE by the engine's phase. The host's probe
gives a word and its size alone, so this function chooses one format for each; nothing else uses it. -/
def tableFormat (nbits w : Nat) : Format :=
  if nbits ≤ 8 then
    if w ∈ [0, 6] then .blk
    else if w ∈ [1, 2] then .ctrl
    else if w ∈ [3, 4] then .row
    else if w ∈ [16, 17, 18] then .clsym
    else if w < 32 then .dist
    else .row
  else if nbits ≤ 16 then
    if w = 0x0008 then .zlib
    else if w ∈ [0x0208, 0x0301, 0x0302, 0x0304, 0x0308, 0x0408, 0x0608] then .pix
    else if w < 512 then .ll
    else .zlib
  else .ctrl

/-- The element the decoder reads from a table word alone, in the format `tableFormat` chooses (entry 18). -/
def decodeTableWord (nbits w : Nat) : Option Instr :=
  match decodeBytes (tableFormat nbits w) (bytesOfWord ((nbits + 7) / 8) w) with
  | .ok i => some i
  | .error _ => none

end Sys2Proof
end

