-- ==== Sys2Proof/Machine/Work.lean ====
section
/-! DEFINITION. The engine's working registers and tables as plain data (spec/10_state.md R35 to R46), and the names
of the five memories (R50). -/

namespace Sys2Proof.Machine

/-- The five byte-addressed memories (R50). -/
inductive Space where
  | inp | out | plte | trns | pix
  deriving DecidableEq, Repr, Inhabited

/-- The configuration registers (R25 to R31), as the host sets them and, in `Work.cfg`, as phase CHECK copied them
(R20). -/
@[ext] structure Cfg where
  inLen : Word
  width : Word
  height : Word
  imgFmt : Word
  plteLen : Word
  trnsCtrl : Word
  trnsKey : Word
  deriving DecidableEq, Repr, Inhabited

/-- The configuration registers at reset: 0 (R55). -/
def Cfg.reset : Cfg := ⟨0, 0, 0, 0, 0, 0, 0⟩

/-- A Huffman table (R46): `count`, `first` and `base` are indexed by the code length 0 to 15 (entry 0 is 0 and
stands for the source's code[0] and count[0], R151), `sym` by the position in (length, symbol) order. -/
structure Huff where
  n : Nat
  count : List Nat
  first : List Nat
  base : List Nat
  sym : List Nat
  used : Nat
  deriving DecidableEq, Repr, Inhabited

/-- The table with no code. -/
def Huff.empty : Huff := ⟨0, [], [], [], [], 0⟩

/-- The working registers and tables (R35, R44, R46), none of them visible to the host. Positions and counts are
naturals that never wrap (R6). `cfg` is the working copy of the configuration registers that phase CHECK makes, the only
one any later phase reads (R20, R396, entry 12). `matchLen` is the model's own: the length of a match whose distance
symbol is still to come, the temporary `length` of R200 (entry 5). -/
@[ext] structure Work where
  bitPos : Nat
  endBit : Nat
  acc : BitVec 32
  nbits : Nat
  inPos : Nat
  outPos : Nat
  cap : Nat
  bitsPP : Nat
  rowBytes : Nat
  bpp : Nat
  bfinal : Bool
  btype : BitVec 2
  hlit : Nat
  hdist : Nat
  hclen : Nat
  lenI : Nat
  row : Nat
  clLens : Vector (BitVec 3) 19
  lens : Vector (BitVec 4) 320
  clt : Huff
  llt : Huff
  dt : Huff
  cfg : Cfg
  matchLen : Option Nat
  deriving DecidableEq, Repr, Inhabited

/-- The working registers at reset: the spec gives no value (R55: "unspecified"), the model names zero and the empty
table (DESIGN CHOICE, unsafe, entry 1). -/
def Work.reset : Work where
  bitPos := 0
  endBit := 0
  acc := 0
  nbits := 0
  inPos := 0
  outPos := 0
  cap := 0
  bitsPP := 0
  rowBytes := 0
  bpp := 0
  bfinal := false
  btype := 0
  hlit := 0
  hdist := 0
  hclen := 0
  lenI := 0
  row := 0
  clLens := Vector.replicate 19 0
  lens := Vector.replicate 320 0
  clt := Huff.empty
  llt := Huff.empty
  dt := Huff.empty
  cfg := Cfg.reset
  matchLen := none

end Sys2Proof.Machine
end

