-- ==== Sys2Proof/Config.lean ====
section
/-! DEFINITION. What an implementation fixes (spec/00_scope.md R6, the OPEN parameters) and the free values. Each is a
constant with no body: nothing can be proved of its value, and a statement holds whatever it is. -/

namespace Sys2Proof.Config

open Sys2Proof.Machine

/-- IN_MEM_BYTES, OPEN (R6, entry 10). -/
opaque inMemBytes : Nat

/-- OUT_MEM_BYTES, OPEN (R6, entry 10). -/
opaque outMemBytes : Nat

/-- PIX_MEM_BYTES, OPEN (R6, entry 10). -/
opaque pixMemBytes : Nat

/-- FREE VALUE (entry 2). What a byte of a memory that nothing has written reads as: by memory, by the generation of
its unspecified contents, and by address (R55, R391; spec/93_implementation_defined.md U2, U5). -/
opaque freeByte : Space → Nat → Nat → Byte

/-- FREE VALUE (entry 4). The working registers and tables after START, "unspecified until its phase writes it"
(R391), by the generation of the run. -/
opaque freeWork : Nat → Work

end Sys2Proof.Config
end

