-- ==== Sys2Proof/Machine/State.lean ====
section
/-! DEFINITION. The state of the machine as plain data (spec/10_state.md), the reasons a step can stop, and the state
after reset (R55). -/

namespace Sys2Proof.Machine

/-- STATUS.STATE (R22). -/
inductive RunState where
  | idle | busy | done | failed
  deriving DecidableEq, Repr

/-- ERR_KIND (R23, R410). -/
inductive ErrKind where
  | none | format | stream | truncated | alloc
  deriving DecidableEq, Repr

/-- ERR_CAUSE (R24, R411). -/
inductive Cause where
  /-- 0x0 NONE: no failure (NONE) -/
  | none
  /-- 0x10 DIMENSION: WIDTH = 0 or HEIGHT = 0 -/
  | dimension
  /-- 0x11 COLOR_TYPE: CTYPE not one of the five colour types -/
  | colorType
  /-- 0x12 DEPTH: DEPTH not legal for CTYPE -/
  | depth
  /-- 0x13 NO_PALETTE: CTYPE = 3 and PLTE_LEN = 0 -/
  | noPalette
  /-- 0x14 DESCRIPTOR: PLTE_LEN > 256 or TRNS_LEN > 256 -/
  | descriptor
  /-- 0x15 FILTER_TYPE: a filter byte of 5 to 255 -/
  | filterType
  /-- 0x16 PALETTE_INDEX: an index at or above PLTE_LEN is assembled -/
  | paletteIndex
  /-- 0x20 ZLIB_METHOD: IN[0][3:0] is not 8 -/
  | zlibMethod
  /-- 0x21 ZLIB_FDICT: IN[1][5] is 1 -/
  | zlibFdict
  /-- 0x22 BLOCK_TYPE: BTYPE = 3 -/
  | blockType
  /-- 0x23 STORED_LEN: LEN ^ NLEN is not 0xFFFF -/
  | storedLen
  /-- 0x24 TABLE: a code-length set is over-subscribed -/
  | table
  /-- 0x25 BAD_CODE: the upcoming bits match no code -/
  | badCode
  /-- 0x26 CL_REPEAT: symbol 16 first, or a run past HLIT + HDIST -/
  | clRepeat
  /-- 0x27 BAD_SYMBOL: symbol 286, 287, or distance symbol 30, 31 -/
  | badSymbol
  /-- 0x28 DIST_RANGE: distance > OUT_POS -/
  | distRange
  /-- 0x29 OUT_CAPACITY: a literal, match or stored block would pass CAP -/
  | outCapacity
  /-- 0x2a SHORT_OUTPUT: the final block ended with OUT_POS not CAP -/
  | shortOutput
  /-- 0x30 ZLIB_SHORT: IN_LEN < 6 -/
  | zlibShort
  /-- 0x31 STARVED: a bit at or beyond END_BIT is needed -/
  | starved
  /-- 0x40 IN_SIZE: IN_LEN > IN_MEM_BYTES -/
  | inSize
  /-- 0x41 OUT_SIZE: CAP > OUT_MEM_BYTES -/
  | outSize
  /-- 0x42 PIX_SIZE: 4 x WIDTH x HEIGHT > PIX_MEM_BYTES -/
  | pixSize
  deriving DecidableEq, Repr

/-- PHASE, the position in the pipeline (R43). -/
inductive Phase where
  | idle | check | zhdr | blkhdr | stored | fixed | dynhdr | body | infend | defilter | assemble
  deriving DecidableEq, Repr

/-- The sizes of the three large memories, OPEN parameters of the machine (R6): fixed, no step changes them. -/
structure Params where
  inMemBytes : Nat
  outMemBytes : Nat
  pixMemBytes : Nat
  deriving DecidableEq, Repr

/-- What the host and the reset pin can do to the engine in one slot (R11, R32, R70, R450). `wait` leaves the slot to
the engine (entry 6). -/
inductive HostOp where
  | wait
  | regWrite (off : Nat) (v : Word)
  | regRead (off : Nat)
  | memWrite (sp : Space) (a : Nat) (b : Byte)
  | memRead (sp : Space) (a : Nat)
  | hardReset
  deriving DecidableEq, Repr

/-- The whole machine. A memory is its list of written bytes, addresses strictly rising; `inEpoch` and `outEpoch` name
the generation of the bytes nothing has written (entry 2); `host` holds the host's pending accesses, oldest first, and
`hostData` what its last read returned (entry 6). -/
@[ext]
structure State where
  runState : RunState
  errKind : ErrKind
  errCause : Cause
  cfg : Cfg
  phase : Phase
  work : Work
  inMem : List Host.Cell
  outMem : List Host.Cell
  plteMem : List Host.Cell
  trnsMem : List Host.Cell
  pixMem : List Host.Cell
  inEpoch : Nat
  outEpoch : Nat
  params : Params
  host : List HostOp
  hostData : Word
  deriving DecidableEq, Repr

/-- Why the machine stops with a fault. No run from reset reaches the first two. -/
inductive Fault where
  /-- Raised by `step` when STATE is BUSY and PHASE is IDLE: R394 gives PHASE 0 no step. Safe: no run from reset is in
  such a state (entry 15). -/
  | busyIdle
  /-- Raised by a distance symbol's meaning when no length symbol stands before it: R90 has no such element. Safe: the
  fetch gives a distance symbol only after a length symbol (entry 16). -/
  | noMatchLength
  /-- Raised by a host access to a memory at an address the memory does not have (R50, R69). Safe (entry 9). -/
  | hostAddress
  deriving DecidableEq, Repr

/-- Why a step has no meaning. -/
inductive Refusal where
  /-- Raised by an arm of `exec` whose instruction has no meaning yet. Safe. -/
  | notModelled (mnemonic : String)
  /-- Raised by a host access to a memory while STATE is BUSY: the spec gives it no meaning (R70, R459,
  spec/93_implementation_defined.md U4: refuse). Unsafe, as U4 says: a platform may let the access through (entry 7). -/
  | hostWhileBusy
  deriving DecidableEq, Repr

/-- The machine after hardware reset (R55, R450). Values of the working registers: entry 1; memories: nothing written,
every byte unspecified (entry 2); memory sizes: the OPEN parameters (entry 10); no host access pending (entry 6). -/
def State.reset : State where
  runState := .idle
  errKind := .none
  errCause := .none
  cfg := Cfg.reset
  phase := .idle
  work := Work.reset
  inMem := []
  outMem := []
  plteMem := []
  trnsMem := []
  pixMem := []
  inEpoch := 0
  outEpoch := 0
  params := ⟨Config.inMemBytes, Config.outMemBytes, Config.pixMemBytes⟩
  host := []
  hostData := 0

end Sys2Proof.Machine
end

