-- ==== Sys2Proof/Machine/Flags.lean ====
section
/-! DEFINITION. The flag-like state (spec/10_state.md R52): the numbers of STATUS.STATE, ERR_KIND, ERR_CAUSE and PHASE,
and the fields of the configuration registers. -/

namespace Sys2Proof.Machine

/-- The number STATUS.STATE reads as (R22). -/
def RunState.code : RunState → Nat
  | .idle => 0
  | .busy => 1
  | .done => 2
  | .failed => 3

/-- The number ERR_KIND reads as (R23, R410). -/
def ErrKind.code : ErrKind → Nat
  | .none => 0
  | .format => 1
  | .stream => 2
  | .truncated => 3
  | .alloc => 4

/-- The number ERR_CAUSE reads as (R411). -/
def Cause.code : Cause → Nat
  | .none => 0x00
  | .dimension => 0x10
  | .colorType => 0x11
  | .depth => 0x12
  | .noPalette => 0x13
  | .descriptor => 0x14
  | .filterType => 0x15
  | .paletteIndex => 0x16
  | .zlibMethod => 0x20
  | .zlibFdict => 0x21
  | .blockType => 0x22
  | .storedLen => 0x23
  | .table => 0x24
  | .badCode => 0x25
  | .clRepeat => 0x26
  | .badSymbol => 0x27
  | .distRange => 0x28
  | .outCapacity => 0x29
  | .shortOutput => 0x2a
  | .zlibShort => 0x30
  | .starved => 0x31
  | .inSize => 0x40
  | .outSize => 0x41
  | .pixSize => 0x42

/-- The kind of a cause (R411). -/
def Cause.kind : Cause → ErrKind
  | .none => .none
  | .dimension => .format
  | .colorType => .format
  | .depth => .format
  | .noPalette => .format
  | .descriptor => .format
  | .filterType => .format
  | .paletteIndex => .format
  | .zlibMethod => .stream
  | .zlibFdict => .stream
  | .blockType => .stream
  | .storedLen => .stream
  | .table => .stream
  | .badCode => .stream
  | .clRepeat => .stream
  | .badSymbol => .stream
  | .distRange => .stream
  | .outCapacity => .stream
  | .shortOutput => .stream
  | .zlibShort => .truncated
  | .starved => .truncated
  | .inSize => .alloc
  | .outSize => .alloc
  | .pixSize => .alloc

/-- The number of a phase (R43). -/
def Phase.code : Phase → Nat
  | .idle => 0
  | .check => 1
  | .zhdr => 2
  | .blkhdr => 3
  | .stored => 4
  | .fixed => 5
  | .dynhdr => 6
  | .body => 7
  | .infend => 8
  | .defilter => 9
  | .assemble => 10

/-- IMG_FMT.DEPTH (R28). -/
def Cfg.depth (c : Cfg) : Nat := (c.imgFmt.extractLsb' 0 8).toNat

/-- IMG_FMT.CTYPE (R28). -/
def Cfg.ctype (c : Cfg) : Nat := (c.imgFmt.extractLsb' 8 8).toNat

/-- IMG_FMT[15:0], the word of format PIX (R98). -/
def Cfg.pixWord (c : Cfg) : Nat := (c.imgFmt.extractLsb' 0 16).toNat

/-- PLTE_LEN.PLTE_LEN (R29). -/
def Cfg.palLen (c : Cfg) : Nat := (c.plteLen.extractLsb' 0 9).toNat

/-- TRNS_CTRL.TRNS_LEN (R30). -/
def Cfg.trnsLen (c : Cfg) : Nat := (c.trnsCtrl.extractLsb' 0 9).toNat

/-- TRNS_CTRL.TRNS_PRESENT (R30). -/
def Cfg.trnsPresent (c : Cfg) : Bool := c.trnsCtrl.getLsbD 16

/-- TRNS_KEY.KEY_R (R31). -/
def Cfg.keyR (c : Cfg) : Byte := c.trnsKey.extractLsb' 0 8

/-- TRNS_KEY.KEY_G (R31). -/
def Cfg.keyG (c : Cfg) : Byte := c.trnsKey.extractLsb' 8 8

/-- TRNS_KEY.KEY_B (R31). -/
def Cfg.keyB (c : Cfg) : Byte := c.trnsKey.extractLsb' 16 8

/-- The failure a refused word raises (R106): the one the spec names for its format. The last three come from no
fetch: no table gives a symbol outside its alphabet, a CTRL write of neither command does nothing (R390). -/
def causeOf : DecodeError → Cause
  | .zlibMethod => .zlibMethod
  | .zlibFdict => .zlibFdict
  | .filterType => .filterType
  | .colorType => .colorType
  | .depth => .depth
  | .symbol => .badSymbol
  | .noCommand => .badSymbol
  | .tooWide => .badSymbol

end Sys2Proof.Machine
end

