-- ==== Sys2Proof/Machine/Ops.lean ====
section
/-! DEFINITION. The named operations over memory and registers: byte access to the five memories (spec/20_memory.md),
`raise` (spec/60_exceptions.md R412), the bit-reader (spec/40_bitreader.md) and writing to OUT. -/

namespace Sys2Proof.Machine

/-! ### A memory: its written bytes, addresses strictly rising -/

/-- What an unlisted address of a memory holds: no value of its own (R55). `State.read` makes it a free value. -/
def Memory.unlisted (_ : Nat) : Option Byte := none

/-- The byte a memory holds at an address, if it has been written. -/
def Memory.get? : List Host.Cell → Nat → Option Byte
  | [], a => Memory.unlisted a
  | (k, v) :: m, a => if k = a then some v else Memory.get? m a

/-- A memory after one byte is written; the addresses stay strictly rising. -/
def Memory.set : List Host.Cell → Nat → Byte → List Host.Cell
  | [], a, b => [(a, b)]
  | (k, v) :: m, a, b =>
    if a < k then (a, b) :: (k, v) :: m
    else if a = k then (a, b) :: m
    else (k, v) :: Memory.set m a b

/-- The canonical form: addresses strictly rising (so no address twice), every entry a written byte. -/
def Memory.wf : List Host.Cell → Bool
  | [] => true
  | [_] => true
  | (k, _) :: (l, w) :: m => decide (k < l) && Memory.wf ((l, w) :: m)

/-- The memory of a space. -/
def State.mem (s : State) : Space → List Host.Cell
  | .inp => s.inMem
  | .out => s.outMem
  | .plte => s.plteMem
  | .trns => s.trnsMem
  | .pix => s.pixMem

/-- The generation of a memory's unspecified bytes: IN, PLTE and TRNS become unspecified at reset only, OUT and PIX at
START too (R55, R391). -/
def State.epoch (s : State) : Space → Nat
  | .inp | .plte | .trns => s.inEpoch
  | .out | .pix => s.outEpoch

/-- The size of a memory in bytes (R6, R50). -/
def State.size (s : State) : Space → Nat
  | .inp => s.params.inMemBytes
  | .out => s.params.outMemBytes
  | .plte => 768
  | .trns => 256
  | .pix => s.params.pixMemBytes

/-- MemRead(S, a, 1) (R8). A byte nothing has written reads as a free value (entry 2). -/
def State.read (s : State) (sp : Space) (a : Nat) : Byte :=
  (Memory.get? (s.mem sp) a).getD (Config.freeByte sp (s.epoch sp) a)

/-- MemWrite(S, a, 1, b) (R8). -/
def State.write (s : State) (sp : Space) (a : Nat) (b : Byte) : State :=
  match sp with
  | .inp => { s with inMem := Memory.set s.inMem a b }
  | .out => { s with outMem := Memory.set s.outMem a b }
  | .plte => { s with plteMem := Memory.set s.plteMem a b }
  | .trns => { s with trnsMem := Memory.set s.trnsMem a b }
  | .pix => { s with pixMem := Memory.set s.pixMem a b }

/-! ### Failures -/

/-- The outcome of a step. -/
abbrev Out := Host.Outcome State Fault Refusal

/-- What an operation inside a step gives: a value and the state after it, or a failure and the state it was met in. -/
inductive Res (α : Type) where
  | ok (a : α) (s : State)
  | raised (c : Cause) (s : State)
  deriving Repr

/-- Do one operation after another; a failure ends both (R8). -/
def Res.bind {α β : Type} (r : Res α) (f : α → State → Res β) : Res β :=
  match r with
  | .ok a s => f a s
  | .raised c s => .raised c s

/-- `raise Kind(CAUSE)`, the one entry sequence (R412). Working registers and memories stay as the steps before left
them, which R414 allows (entry 13). -/
def raise (c : Cause) (s : State) : State :=
  { s with errKind := c.kind, errCause := c, runState := .failed, phase := .idle }

/-- The outcome of an operation that ends a step. -/
def finish : Res Unit → Out
  | .ok _ s => .next s
  | .raised c s => .next (raise c s)

/-! ### The bit-reader -/

/-- `sbit(i)`: the stream bit at position `i`, 0 at and beyond END_BIT (R60, R53). -/
def State.sbit (s : State) (i : Nat) : Bool :=
  decide (i < s.work.endBit) && (s.read .inp (i / 8)).getLsbD (i % 8)

/-- `n` stream bits from position `i` on, the first the least significant (R131). -/
def State.bits (s : State) (i : Nat) : Nat → Nat
  | 0 => 0
  | n + 1 => (s.sbit i).toNat + 2 * State.bits s (i + 1) n

/-- `peekbit(k)` (R133). -/
def State.peekbit (s : State) (k : Nat) : Bool := s.sbit (s.work.bitPos + k)

/-- One turn of `refill`'s loop (R136): load a byte if fewer than 16 bits are held and the input is not exhausted. -/
def refill1 (s : State) : State :=
  if s.work.nbits < 16 ∧ s.work.inPos < s.work.endBit / 8 then
    { s with
      work.acc := s.work.acc ||| ((s.read .inp s.work.inPos).setWidth 32 <<< s.work.nbits)
      work.nbits := s.work.nbits + 8
      work.inPos := s.work.inPos + 1 }
  else s

/-- `refill()` (R136): two turns reach 16 bits from any count. -/
def refill (s : State) : State := refill1 (refill1 s)

/-- The window's part of consuming `n` bits (R136), before the refill. -/
def windowDrop (n : Nat) (s : State) : State :=
  { s with work.acc := s.work.acc >>> n, work.nbits := s.work.nbits - n }

/-- Move the cursor past `n` bits, the window with it (R131, R136). -/
def advance (n : Nat) (s : State) : State :=
  refill (windowDrop n { s with work.bitPos := s.work.bitPos + n })

/-- `read(n)` (R131). The value is the cursor's; that the window gives the same is R136 (entry 17). -/
def readBits (n : Nat) (s : State) : Res Nat :=
  if s.work.bitPos + n > s.work.endBit then .raised .starved s
  else .ok (s.bits s.work.bitPos n) (advance n s)

/-- `consume(n)` (R135). -/
def consume (n : Nat) (s : State) : Res Unit :=
  if s.work.bitPos + n > s.work.endBit then .raised .starved s
  else .ok () (advance n s)

/-- `align()` (R134, R136). -/
def align (s : State) : State :=
  refill (windowDrop (s.work.nbits % 8) { s with work.bitPos := 8 * ((s.work.bitPos + 7) / 8) })

/-- The bit-reader's start in phase ZHDR (R170, R136). -/
def initReader (s : State) : State :=
  refill { s with
    work.endBit := 8 * (s.work.cfg.inLen.toNat - 4)
    work.bitPos := 16
    work.acc := 0
    work.nbits := 0
    work.inPos := 2 }

/-! ### The output buffer -/

/-- Append one byte to OUT: MemWrite(OUT, OUT_POS, 1, b), OUT_POS + 1 (R200, R173). -/
def putOut (b : Byte) (s : State) : State :=
  { s.write .out s.work.outPos b with work.outPos := s.work.outPos + 1 }

/-- The copy (R204): `n` bytes from `distance` positions back, one at a time, each read seeing the writes before it. -/
def copyBack (distance : Nat) : Nat → State → State
  | 0, s => s
  | n + 1, s => copyBack distance n (putOut (s.read .out (s.work.outPos - distance)) s)

/-- The data of a stored block (R173): one `read(8)` and one write for each byte. -/
def storedBytes : Nat → State → Res Unit
  | 0, s => .ok () s
  | n + 1, s => (readBits 8 s).bind fun b s => storedBytes n (putOut (BitVec.ofNat 8 b) s)

/-- Block end (R185). -/
def blockEnd (s : State) : State :=
  { s with phase := if s.work.bfinal then .infend else .blkhdr }

/-- The body of a block begins: a literal/length symbol comes next (R174, R183). -/
def enterBody (s : State) : State := { s with phase := .body, work.matchLen := none }

end Sys2Proof.Machine
end

