-- ==== Sys2Proof/Machine/Operands.lean ====
section
/-! DEFINITION. How an element gets its operands: the ROM tables (spec/10_state.md R45), Huffman tables and codes
(spec/41_huffman.md), header counts and extra bits (spec/30_encoding.md R100 to R103), the neighbours of a filtered byte
(spec/44_scanline.md R342) and the samples of a pixel (spec/45_pixel.md R365, R372 to R374). -/

namespace Sys2Proof.Machine

/-! ### ROM tables -/

/-- CLORDER (R45, R94). -/
def clOrder : List Nat := [16, 17, 18, 0, 8, 7, 9, 6, 10, 5, 11, 4, 12, 3, 13, 2, 14, 1, 15]

/-- FIXLL (R45). -/
def fixLL : List Nat :=
  List.replicate 144 8 ++ List.replicate 112 9 ++ List.replicate 24 7 ++ List.replicate 8 8

/-- FIXD (R45). -/
def fixD : List Nat := List.replicate 32 5

/-- LBASE[257..285] (R257 to R285; rows 258 to 284 are general knowledge in the spec, entry 20). -/
def lbaseRom : List Nat :=
  [3, 4, 5, 6, 7, 8, 9, 10, 11, 13, 15, 17, 19, 23, 27, 31, 35, 43, 51, 59, 67, 83, 99, 115, 131, 163, 195, 227, 258]

/-- LEXTRA[257..285] (R257 to R285). -/
def lextraRom : List Nat :=
  [0, 0, 0, 0, 0, 0, 0, 0, 1, 1, 1, 1, 2, 2, 2, 2, 3, 3, 3, 3, 4, 4, 4, 4, 5, 5, 5, 5, 0]

/-- DBASE[0..29] (R300 to R329; rows 1 to 28 are general knowledge in the spec, entry 20). -/
def dbaseRom : List Nat :=
  [1, 2, 3, 4, 5, 7, 9, 13, 17, 25, 33, 49, 65, 97, 129, 193, 257, 385, 513, 769, 1025, 1537, 2049, 3073, 4097, 6145,
    8193, 12289, 16385, 24577]

/-- DEXTRA[0..29] (R300 to R329). -/
def dextraRom : List Nat :=
  [0, 0, 0, 0, 1, 1, 2, 2, 3, 3, 4, 4, 5, 5, 6, 6, 7, 7, 8, 8, 9, 9, 10, 10, 11, 11, 12, 12, 13, 13]

/-- LBASE[s] (R101); nothing stands below index 257. -/
def lbase (s : Nat) : Nat := (List.replicate 257 0 ++ lbaseRom).getD s 0

/-- LEXTRA[s] (R101); nothing stands below index 257. -/
def lextra (s : Nat) : Nat := (List.replicate 257 0 ++ lextraRom).getD s 0

/-- DBASE[d] (R102). -/
def dbase (d : Nat) : Nat := dbaseRom.getD d 0

/-- DEXTRA[d] (R102). -/
def dextra (d : Nat) : Nat := dextraRom.getD d 0

/-! ### Huffman tables -/

/-- T.count: how many symbols have each code length 1 to 15; symbols of length 0 are not counted (R151). -/
def countLens (lens : List Nat) : List Nat :=
  (List.range 16).map fun l => if l = 0 then 0 else lens.count l

/-- T.first[L]: the first code of length L (R151). -/
def firstCode (count : List Nat) : Nat → Nat
  | 0 => 0
  | l + 1 => 2 * (firstCode count l + count.getD l 0)

/-- T.base[L]: the position in T.sym of the first symbol of length L (R151). -/
def baseIndex (count : List Nat) : Nat → Nat
  | 0 => 0
  | l + 1 => baseIndex count l + count.getD l 0

/-- The symbols of one code length, ascending. -/
def symsOfLen (lens : List Nat) (l : Nat) : List Nat :=
  lens.zipIdx.filterMap fun p => if p.1 = l then some p.2 else none

/-- T.sym: the used symbols by (length, symbol) ascending (R151). -/
def sortedSyms (lens : List Nat) : List Nat :=
  (List.range' 1 15).flatMap (symsOfLen lens)

/-- `build(lens, n)` (R151): none when the set is over-subscribed (R152). -/
def Huff.build (lens : List Nat) (n : Nat) : Option Huff :=
  let ls := lens.take n
  let count := countLens ls
  if firstCode count 15 + count.getD 15 0 > 2 ^ 15 then none
  else some
    { n := n
      count := count
      first := (List.range 16).map (firstCode count)
      base := (List.range 16).map (baseIndex count)
      sym := sortedSyms ls
      used := baseIndex count 15 + count.getD 15 0 }

/-- The range test of `decode`: `c` is a code of length `l` (R153). -/
def Huff.hit (t : Huff) (l c : Nat) : Bool :=
  decide (t.count.getD l 0 > 0) && decide (t.first.getD l 0 ≤ c) && decide (c < t.first.getD l 0 + t.count.getD l 0)

/-- `decode`'s loop over the lengths `l + 1` to `l + fuel`, `c` the candidate of `l` bits (R153). -/
def Huff.search (t : Huff) (peek : Nat → Bool) : Nat → Nat → Nat → Option (Nat × Nat)
  | 0, _, _ => none
  | fuel + 1, l, c =>
    let c' := 2 * c + (peek l).toNat
    if t.hit (l + 1) c' then some (t.sym.getD (t.base.getD (l + 1) 0 + c' - t.first.getD (l + 1) 0) 0, l + 1)
    else Huff.search t peek fuel (l + 1) c'

/-- The symbol and the length of the code the look-ahead begins with (R153). -/
def Huff.lookup (t : Huff) (peek : Nat → Bool) : Option (Nat × Nat) := t.search peek 15 0 0

/-- `decode(T)` (R153): BAD_CODE on the zero-extended look-ahead first, then STARVED from `consume`. -/
def huffDecode (t : Huff) (s : State) : Res Nat :=
  match t.lookup s.peekbit with
  | none => .raised .badCode s
  | some (y, l) => (consume l s).bind fun _ s => .ok y s

/-- The code of a used symbol: its value and its length (R151). -/
def Huff.codeOf (t : Huff) (y : Nat) : Option (Nat × Nat) :=
  let j := t.sym.idxOf y
  if j < t.sym.length then
    (List.range' 1 15).findSome? fun l =>
      if t.base.getD l 0 ≤ j ∧ j < t.base.getD l 0 + t.count.getD l 0
      then some (t.first.getD l 0 + j - t.base.getD l 0, l) else none
  else none

/-- The bits of a code in stream order: the most significant first (R61). -/
def codeBits (code : Nat) : Nat → List Bool
  | 0 => []
  | l + 1 => code.testBit l :: codeBits code l

/-- CLT <- build(CLLENS, 19) (R177). -/
def loadClt (s : State) : Res Unit :=
  match Huff.build (s.work.clLens.toList.map BitVec.toNat) 19 with
  | none => .raised .table s
  | some t => .ok () { s with work.clt := t }

/-- LLT <- build(lens, n) (R174, R183). -/
def loadLlt (lens : List Nat) (n : Nat) (s : State) : Res Unit :=
  match Huff.build lens n with
  | none => .raised .table s
  | some t => .ok () { s with work.llt := t }

/-- DT <- build(lens, n) (R174, R183). -/
def loadDt (lens : List Nat) (n : Nat) (s : State) : Res Unit :=
  match Huff.build lens n with
  | none => .raised .table s
  | some t => .ok () { s with work.dt := t }

/-! ### Dynamic header -/

/-- The 3-bit code lengths of the code-length symbols listed (R176). -/
def readClLens : List Nat → State → Res Unit
  | [], s => .ok () s
  | k :: ks, s =>
    (readBits 3 s).bind fun x s =>
      readClLens ks { s with work.clLens := s.work.clLens.setIfInBounds k (BitVec.ofNat 3 x) }

/-- LENS[i .. i+r-1] <- x (R179 to R182). -/
def fillLens (v : Vector (BitVec 4) 320) (i : Nat) (x : BitVec 4) : Nat → Vector (BitVec 4) 320
  | 0 => v
  | r + 1 => fillLens (v.setIfInBounds i x) (i + 1) x r

/-- N, the number of code lengths of a dynamic block (R178). -/
def Work.lensTotal (w : Work) : Nat := w.hlit + w.hdist

/-- The lengths of the literal/length and of the distance symbols (R183). -/
def Work.litLens (w : Work) : List Nat := (w.lens.toList.map BitVec.toNat).take w.hlit

/-- As `litLens`, for the distance symbols: symbol `d` has length LENS[HLIT + d] (R183). -/
def Work.distLens (w : Work) : List Nat := ((w.lens.toList.map BitVec.toNat).drop w.hlit).take w.hdist

/-! ### Rows and pixels -/

/-- The address of the filter byte of row `y` (R341). -/
def Work.filterAddr (w : Work) (y : Nat) : Nat := y * (1 + w.rowBytes)

/-- ROWADDR(y), the address of the first data byte of row `y` (R77). -/
def Work.rowAddr (w : Work) (y : Nat) : Nat := y * (1 + w.rowBytes) + 1

/-- `r[k]`: the k-th data byte of row `y` (R362). -/
def State.rowByte (s : State) (y k : Nat) : Byte := s.read .out (s.work.rowAddr y + k)

/-- `a`, the byte to the left, 0 for the first BPP bytes (R342). -/
def State.leftByte (s : State) (y x : Nat) : Nat :=
  if x ≥ s.work.bpp then (s.read .out (s.work.rowAddr y + x - s.work.bpp)).toNat else 0

/-- `b`, the byte above, 0 in row 0 (R342). -/
def State.upByte (s : State) (y x : Nat) : Nat :=
  if y ≥ 1 then (s.read .out (s.work.rowAddr (y - 1) + x)).toNat else 0

/-- `c`, the byte above and to the left, 0 in row 0 and for the first BPP bytes (R342). -/
def State.upLeftByte (s : State) (y x : Nat) : Nat :=
  if y ≥ 1 ∧ x ≥ s.work.bpp then (s.read .out (s.work.rowAddr (y - 1) + x - s.work.bpp)).toNat else 0

/-- `Paeth(a, b, c)` in exact signed integers (R348). -/
def paeth (a b c : Nat) : Nat :=
  let p : Int := (a : Int) + b - c
  let pa := (p - a).natAbs
  let pb := (p - b).natAbs
  let pc := (p - c).natAbs
  if pa ≤ pb ∧ pa ≤ pc then a else if pb ≤ pc then b else c

/-- A pixel in PIX (R78). -/
structure Rgba where
  r : Byte
  g : Byte
  b : Byte
  a : Byte
  deriving DecidableEq, Repr

/-- The index of column `x` in a row of packed indices of `d` bits (R365). -/
def State.packedIndex (s : State) (d y x : Nat) : Nat :=
  let off := x * d
  ((s.rowByte y (off / 8)).toNat >>> (8 - d - off % 8)) &&& (2 ^ d - 1)

/-- The alpha of a palette index (R373). -/
def State.indexAlpha (s : State) (idx : Nat) : Byte :=
  if s.work.cfg.trnsPresent = true ∧ idx < s.work.cfg.trnsLen then s.read .trns idx else 255

/-- Palette and alpha of an index, or PALETTE_INDEX (R374, R373). -/
def State.palettePixel (s : State) (idx : Nat) : Except Cause Rgba :=
  if idx ≥ s.work.cfg.palLen then .error .paletteIndex
  else .ok ⟨s.read .plte (3 * idx), s.read .plte (3 * idx + 1), s.read .plte (3 * idx + 2), s.indexAlpha idx⟩

/-- A pixel of an indexed format of `d` bits (R366 to R369). -/
def State.indexedPixel (s : State) (d y x : Nat) : Except Cause Rgba := s.palettePixel (s.packedIndex d y x)

/-- A pixel of PIX_GRAY8 (R363, R372). -/
def State.grayPixel (s : State) (y x : Nat) : Rgba :=
  let g := s.rowByte y x
  ⟨g, g, g, if s.work.cfg.trnsPresent = true ∧ g = s.work.cfg.keyR then 0 else 255⟩

/-- A pixel of PIX_RGB8 (R364, R372). -/
def State.rgbPixel (s : State) (y x : Nat) : Rgba :=
  let r := s.rowByte y (3 * x)
  let g := s.rowByte y (3 * x + 1)
  let b := s.rowByte y (3 * x + 2)
  let c := s.work.cfg
  ⟨r, g, b, if c.trnsPresent = true ∧ r = c.keyR ∧ g = c.keyG ∧ b = c.keyB then 0 else 255⟩

/-- A pixel of PIX_GA8 (R370). -/
def State.grayAlphaPixel (s : State) (y x : Nat) : Rgba :=
  let g := s.rowByte y (2 * x)
  ⟨g, g, g, s.rowByte y (2 * x + 1)⟩

/-- A pixel of PIX_RGBA8 (R371). -/
def State.rgbaPixel (s : State) (y x : Nat) : Rgba :=
  ⟨s.rowByte y (4 * x), s.rowByte y (4 * x + 1), s.rowByte y (4 * x + 2), s.rowByte y (4 * x + 3)⟩

/-! ### Geometry -/

/-- Bits per pixel by colour type (R360). -/
def bitsPerPixel (ctype depth : Nat) : Nat :=
  match ctype with
  | 2 => 3 * depth
  | 4 => 2 * depth
  | 6 => 4 * depth
  | _ => depth

/-- ROWBYTES (R340). -/
def rowBytesOf (width bitsPP : Nat) : Nat := (width * bitsPP + 7) / 8

/-- BPP (R340). -/
def bppOf (bitsPP : Nat) : Nat := max 1 ((bitsPP + 7) / 8)

/-- CAP (R340). -/
def capOf (height rowBytes : Nat) : Nat := height * (1 + rowBytes)

end Sys2Proof.Machine
end

