-- ==== Sys2Proof/Machine/Blocks.lean ====
section
/-! DEFINITION. The zlib header and the block elements (spec/42_inflate_blocks.md R170 to R177, R184, R185). The step
fetches the three header bits of a block (R172); the meaning records BFINAL and BTYPE and then does the whole of the
phase those bits select (entry 5). -/

namespace Sys2Proof.Machine

/-- ZLIB_HDR (R170). CINFO, FCHECK and FLEVEL are not examined (R107); method and dictionary flag are tested where the
word is decoded. -/
def execZlibHdr (_cinfo _fcheck _flevel : Nat) (s : State) : Out :=
  if s.work.cfg.inLen.toNat < 6 then .next (raise .zlibShort s)
  else .next { initReader s with work.outPos := 0, phase := .blkhdr }

/-- BFINAL, BTYPE and the phase they select (R172). -/
def blockHeader (final : Bool) (btype : BitVec 2) (p : Phase) (s : State) : State :=
  { s with work.bfinal := final, work.btype := btype, phase := p }

/-- Phase STORED (R173). -/
def storedBlock (s : State) : Res Unit :=
  (readBits 16 (align s)).bind fun len s =>
    (readBits 16 s).bind fun nlen s =>
      if len ^^^ nlen ≠ 0xFFFF then .raised .storedLen s
      else if s.work.outPos + len > s.work.cap then .raised .outCapacity s
      else (storedBytes len s).bind fun _ s => .ok () (blockEnd s)

/-- Phase FIXED (R174). -/
def fixedBlock (s : State) : Res Unit :=
  (loadLlt fixLL 288 s).bind fun _ s =>
    (loadDt fixD 32 s).bind fun _ s => .ok () (enterBody s)

/-- Phase DYNHDR, parts 1 to 3 and the start of part 4 (R175 to R178): the counts, the code-length-code lengths, CLT,
LEN_I. The length loop that follows is one CL element a step. -/
def dynHeader (s : State) : Res Unit :=
  (readBits 5 s).bind fun hl s =>
    (readBits 5 { s with work.hlit := hl + 257 }).bind fun hd s =>
      (readBits 4 { s with work.hdist := hd + 1 }).bind fun hc s =>
        (readClLens (clOrder.take (hc + 4))
          { s with work.hclen := hc + 4, work.clLens := Vector.replicate 19 0 }).bind fun _ s =>
          (loadClt s).bind fun _ s => .ok () { s with work.lenI := 0 }

/-- BLK_STORED (R172, R173). -/
def execBlkStored (final : Bool) (s : State) : Out := finish (storedBlock (blockHeader final 0 .stored s))

/-- BLK_FIXED (R172, R174). -/
def execBlkFixed (final : Bool) (s : State) : Out := finish (fixedBlock (blockHeader final 1 .fixed s))

/-- BLK_DYNAMIC (R172, R175 to R178). -/
def execBlkDynamic (final : Bool) (s : State) : Out := finish (dynHeader (blockHeader final 2 .dynhdr s))

/-- BLK_RESERVED: always a failure (R184). -/
def execBlkReserved (final : Bool) (s : State) : Out := .next (raise .blockType (blockHeader final 3 s.phase s))

end Sys2Proof.Machine
end

