-- ==== Sys2Proof/Machine/CodeLengths.lean ====
section
/-! DEFINITION. The code-length elements of a dynamic header (spec/42_inflate_blocks.md R178 to R183). -/

namespace Sys2Proof.Machine

/-- Part 5 (R183): LLT, then DT, then the body. -/
def buildTables (s : State) : Res Unit :=
  (loadLlt s.work.litLens s.work.hlit s).bind fun _ s =>
    (loadDt s.work.distLens s.work.hdist s).bind fun _ s => .ok () (enterBody s)

/-- Set the next `r` code lengths to `x`; at N lengths the loop is over and the tables are built (R178, R183). -/
def putLens (r : Nat) (x : BitVec 4) (s : State) : Res Unit :=
  let s := { s with work.lens := fillLens s.work.lens s.work.lenI x r, work.lenI := s.work.lenI + r }
  if s.work.lenI < s.work.lensTotal then .ok () s else buildTables s

/-- A run of `base + read(extra)` lengths `x`, refused when it would pass N (R180 to R182). -/
def runLens (base extra : Nat) (x : BitVec 4) (s : State) : Res Unit :=
  (readBits extra s).bind fun e s =>
    if s.work.lenI + (base + e) > s.work.lensTotal then .raised .clRepeat s
    else putLens (base + e) x s

/-- CL_LEN (R179). -/
def execClLen (len : Nat) (s : State) : Out := finish (putLens 1 (BitVec.ofNat 4 len) s)

/-- CL_REP16 (R180): no previous length is tested before the extra bits are read. -/
def execClRep16 (s : State) : Out :=
  if s.work.lenI = 0 then .next (raise .clRepeat s)
  else finish (runLens 3 2 (s.work.lens[s.work.lenI - 1]?.getD 0) s)

/-- CL_ZERO17 (R181). -/
def execClZero17 (s : State) : Out := finish (runLens 3 3 0 s)

/-- CL_ZERO18 (R182). -/
def execClZero18 (s : State) : Out := finish (runLens 11 7 0 s)

end Sys2Proof.Machine
end

