-- ==== Sys2Proof/Machine/Commands.lean ====
section
/-! DEFINITION. The host commands START and RESET (spec/46_commands.md R390 to R396), and the two phase actions that
execute no element: CHECK (R392) and INFEND (spec/42_inflate_blocks.md R186). -/

namespace Sys2Proof.Machine

/-- A run begins (R391): STATE, PHASE and the error registers; the working registers and tables become free values
(entry 4), OUT and PIX a new generation of unspecified bytes (entry 2). -/
def startRun (s : State) : State :=
  { s with
    runState := .busy
    errKind := .none
    errCause := .none
    phase := .check
    work := Config.freeWork (s.outEpoch + 1)
    outMem := []
    pixMem := []
    outEpoch := s.outEpoch + 1 }

/-- Hardware reset, and RESET (R393, R450, R55): every field of the engine at its reset value, the memories a new
generation of unspecified bytes (entry 3). The machine's sizes and the host's own fields are not the engine's. -/
def resetEngine (s : State) : State :=
  { State.reset with
    inEpoch := s.inEpoch + 1
    outEpoch := s.outEpoch + 1
    params := s.params
    host := s.host
    hostData := s.hostData }

/-- START (R391): ignored while BUSY (R396). -/
def execStart (s : State) : Out :=
  if s.runState = .busy then .next s else .next (startRun s)

/-- RESET (R393), in any state. -/
def execReset (s : State) : Out := .next (resetEngine s)

/-- What CHECK writes into working registers: its copy of the configuration registers (R20, entry 12) and the geometry
of the image (R392 step 7, R340, R360). -/
def setGeometry (s : State) : State :=
  let bits := bitsPerPixel s.cfg.ctype s.cfg.depth
  let rb := rowBytesOf s.cfg.width.toNat bits
  { s with
    work.cfg := s.cfg
    work.bitsPP := bits
    work.rowBytes := rb
    work.bpp := bppOf bits
    work.cap := capOf s.cfg.height.toNat rb }

/-- Phase CHECK (R392): nine tests in order, the first that fails ends the run. Tests 3 and 4 are the decoding of
IMG_FMT's word (R98, R361). -/
def checkPhase (s : State) : Out :=
  if s.cfg.inLen.toNat > s.params.inMemBytes then .next (raise .inSize s)
  else if s.cfg.width = 0 ∨ s.cfg.height = 0 then .next (raise .dimension s)
  else match decodeWord .pix s.cfg.pixWord with
    | .error e => .next (raise (causeOf e) s)
    | .ok _ =>
      if s.cfg.ctype = 3 ∧ s.cfg.palLen = 0 then .next (raise .noPalette s)
      else if s.cfg.palLen > 256 ∨ s.cfg.trnsLen > 256 then .next (raise .descriptor s)
      else
        let s := setGeometry s
        if s.work.cap > s.params.outMemBytes then .next (raise .outSize s)
        else if 4 * s.cfg.width.toNat * s.cfg.height.toNat > s.params.pixMemBytes then .next (raise .pixSize s)
        else .next { s with phase := .zhdr }

/-- Phase INFEND (R186). -/
def infEnd (s : State) : Out :=
  if s.work.outPos ≠ s.work.cap then .next (raise .shortOutput s)
  else .next { s with work.row := 0, phase := .defilter }

end Sys2Proof.Machine
end

