-- ==== Sys2Proof/Machine/Filters.lean ====
section
/-! DEFINITION. The filter types: one row reconstructed in place (spec/44_scanline.md R343 to R353). -/

namespace Sys2Proof.Machine

/-- One byte of a row (R351): `(f + pred) mod 256` at its own address, the predictor exact (R350). -/
def filterByte (pred : Nat → Nat → Nat → Nat) (y x : Nat) (s : State) : State :=
  s.write .out (s.work.rowAddr y + x)
    (BitVec.ofNat 8
      ((s.read .out (s.work.rowAddr y + x)).toNat
        + pred (s.leftByte y x) (s.upByte y x) (s.upLeftByte y x)))

/-- The bytes of a row from column `x` on, in increasing order (R353). -/
def filterFrom (pred : Nat → Nat → Nat → Nat) (y : Nat) : Nat → Nat → State → State
  | 0, _, s => s
  | n + 1, x, s => filterFrom pred y n (x + 1) (filterByte pred y x s)

/-- ROW moves on; after the last row the assembler begins (R351). -/
def rowFiltered (s : State) : State :=
  if s.work.row + 1 = s.work.cfg.height.toNat then { s with work.row := 0, phase := .assemble }
  else { s with work.row := s.work.row + 1 }

/-- The step of phase DEFILTER after the filter type is known (R351). -/
def reconstructRow (pred : Nat → Nat → Nat → Nat) (s : State) : Out :=
  .next (rowFiltered (filterFrom pred s.work.row s.work.rowBytes 0 s))

/-- FILT_NONE (R343). -/
def execFiltNone (s : State) : Out := reconstructRow (fun _ _ _ => 0) s

/-- FILT_SUB (R344). -/
def execFiltSub (s : State) : Out := reconstructRow (fun a _ _ => a) s

/-- FILT_UP (R345). -/
def execFiltUp (s : State) : Out := reconstructRow (fun _ b _ => b) s

/-- FILT_AVG (R346): the sum is exact before the halving. -/
def execFiltAvg (s : State) : Out := reconstructRow (fun a b _ => (a + b) / 2) s

/-- FILT_PAETH (R347, R348). -/
def execFiltPaeth (s : State) : Out := reconstructRow paeth s

end Sys2Proof.Machine
end

