-- ==== Sys2Proof/Machine/Pixels.lean ====
section
/-! DEFINITION. The pixel formats: one row assembled into PIX (spec/45_pixel.md R362 to R375). -/

namespace Sys2Proof.Machine

/-- The four bytes of the pixel at column `x`, row `y` (R78, R362). -/
def putPixel (y x : Nat) (p : Rgba) (s : State) : State :=
  let a := 4 * (y * s.work.cfg.width.toNat + x)
  (((s.write .pix a p.r).write .pix (a + 1) p.g).write .pix (a + 2) p.b).write .pix (a + 3) p.a

/-- `n` pixels of row `y` from column `x` on (R362); a pixel that cannot be made ends the run, the earlier ones having
been written (R413). -/
def pixelsFrom (pixel : State → Nat → Nat → Except Cause Rgba) (y : Nat) : Nat → Nat → State → Res Unit
  | 0, _, s => .ok () s
  | n + 1, x, s =>
    match pixel s y x with
    | .error c => .raised c s
    | .ok p => pixelsFrom pixel y n (x + 1) (putPixel y x p s)

/-- ROW moves on; after the last row the run is done (R362, R395). -/
def rowAssembled (s : State) : State :=
  if s.work.row + 1 = s.work.cfg.height.toNat then
    { s with work.row := s.work.row + 1, phase := .idle, runState := .done }
  else { s with work.row := s.work.row + 1 }

/-- The step of phase ASSEMBLE for a format (R362). -/
def assembleRow (pixel : State → Nat → Nat → Except Cause Rgba) (s : State) : Out :=
  finish ((pixelsFrom pixel s.work.row s.work.cfg.width.toNat 0 s).bind fun _ s => .ok () (rowAssembled s))

/-- PIX_GRAY8 (R363). -/
def execPixGray8 (s : State) : Out := assembleRow (fun s y x => .ok (s.grayPixel y x)) s

/-- PIX_RGB8 (R364). -/
def execPixRgb8 (s : State) : Out := assembleRow (fun s y x => .ok (s.rgbPixel y x)) s

/-- PIX_IDX1 (R366). -/
def execPixIdx1 (s : State) : Out := assembleRow (fun s y x => s.indexedPixel 1 y x) s

/-- PIX_IDX2 (R367). -/
def execPixIdx2 (s : State) : Out := assembleRow (fun s y x => s.indexedPixel 2 y x) s

/-- PIX_IDX4 (R368). -/
def execPixIdx4 (s : State) : Out := assembleRow (fun s y x => s.indexedPixel 4 y x) s

/-- PIX_IDX8 (R369). -/
def execPixIdx8 (s : State) : Out := assembleRow (fun s y x => s.indexedPixel 8 y x) s

/-- PIX_GA8 (R370). -/
def execPixGa8 (s : State) : Out := assembleRow (fun s y x => .ok (s.grayAlphaPixel y x)) s

/-- PIX_RGBA8 (R371). -/
def execPixRgba8 (s : State) : Out := assembleRow (fun s y x => .ok (s.rgbaPixel y x)) s

end Sys2Proof.Machine
end

