-- ==== Sys2Proof/Machine/Symbols.lean ====
section
/-! DEFINITION. The elements of a block body (spec/43_inflate_symbols.md). A match is two elements, a length symbol and
a distance symbol, and two steps (entry 5). -/

namespace Sys2Proof.Machine

/-- LIT (R250). -/
def execLit (byte : Byte) (s : State) : Out :=
  if s.work.outPos + 1 > s.work.cap then .next (raise .outCapacity s) else .next (putOut byte s)

/-- EOB (R256, R185). -/
def execEob (s : State) : Out := .next (blockEnd s)

/-- The first half of a match (R201): `length <- LBASE[sym] + read(LEXTRA[sym])`. -/
def lengthSymbol (sym : Nat) (s : State) : Out :=
  finish ((readBits (lextra sym) s).bind fun e s => .ok () { s with work.matchLen := some (lbase sym + e) })

/-- The checks before the copy and the copy (R203, R204). -/
def copyMatch (length distance : Nat) (s : State) : Res Unit :=
  if distance > s.work.outPos then .raised .distRange s
  else if s.work.outPos + length > s.work.cap then .raised .outCapacity s
  else .ok () { copyBack distance length s with work.matchLen := none }

/-- The second half of a match (R202): `distance <- DBASE[d] + read(DEXTRA[d])`, then the checks and the copy. -/
def distanceSymbol (d : Nat) (s : State) : Out :=
  match s.work.matchLen with
  | none => .fault .noMatchLength
  | some length => finish ((readBits (dextra d) s).bind fun e s => copyMatch length (dbase d + e) s)

/-- LL286: invalid (R286). -/
def execLl286 (s : State) : Out := .next (raise .badSymbol s)

/-- LL287: invalid (R287). -/
def execLl287 (s : State) : Out := .next (raise .badSymbol s)

/-- DIST30: invalid (R330). -/
def execDist30 (s : State) : Out := .next (raise .badSymbol s)

/-- DIST31: invalid (R331). -/
def execDist31 (s : State) : Out := .next (raise .badSymbol s)

/-- LEN257 (R257). -/
def execLen257 (s : State) : Out := lengthSymbol 257 s

/-- LEN258 (R258). -/
def execLen258 (s : State) : Out := lengthSymbol 258 s

/-- LEN259 (R259). -/
def execLen259 (s : State) : Out := lengthSymbol 259 s

/-- LEN260 (R260). -/
def execLen260 (s : State) : Out := lengthSymbol 260 s

/-- LEN261 (R261). -/
def execLen261 (s : State) : Out := lengthSymbol 261 s

/-- LEN262 (R262). -/
def execLen262 (s : State) : Out := lengthSymbol 262 s

/-- LEN263 (R263). -/
def execLen263 (s : State) : Out := lengthSymbol 263 s

/-- LEN264 (R264). -/
def execLen264 (s : State) : Out := lengthSymbol 264 s

/-- LEN265 (R265). -/
def execLen265 (s : State) : Out := lengthSymbol 265 s

/-- LEN266 (R266). -/
def execLen266 (s : State) : Out := lengthSymbol 266 s

/-- LEN267 (R267). -/
def execLen267 (s : State) : Out := lengthSymbol 267 s

/-- LEN268 (R268). -/
def execLen268 (s : State) : Out := lengthSymbol 268 s

/-- LEN269 (R269). -/
def execLen269 (s : State) : Out := lengthSymbol 269 s

/-- LEN270 (R270). -/
def execLen270 (s : State) : Out := lengthSymbol 270 s

/-- LEN271 (R271). -/
def execLen271 (s : State) : Out := lengthSymbol 271 s

/-- LEN272 (R272). -/
def execLen272 (s : State) : Out := lengthSymbol 272 s

/-- LEN273 (R273). -/
def execLen273 (s : State) : Out := lengthSymbol 273 s

/-- LEN274 (R274). -/
def execLen274 (s : State) : Out := lengthSymbol 274 s

/-- LEN275 (R275). -/
def execLen275 (s : State) : Out := lengthSymbol 275 s

/-- LEN276 (R276). -/
def execLen276 (s : State) : Out := lengthSymbol 276 s

/-- LEN277 (R277). -/
def execLen277 (s : State) : Out := lengthSymbol 277 s

/-- LEN278 (R278). -/
def execLen278 (s : State) : Out := lengthSymbol 278 s

/-- LEN279 (R279). -/
def execLen279 (s : State) : Out := lengthSymbol 279 s

/-- LEN280 (R280). -/
def execLen280 (s : State) : Out := lengthSymbol 280 s

/-- LEN281 (R281). -/
def execLen281 (s : State) : Out := lengthSymbol 281 s

/-- LEN282 (R282). -/
def execLen282 (s : State) : Out := lengthSymbol 282 s

/-- LEN283 (R283). -/
def execLen283 (s : State) : Out := lengthSymbol 283 s

/-- LEN284 (R284). -/
def execLen284 (s : State) : Out := lengthSymbol 284 s

/-- LEN285 (R285). -/
def execLen285 (s : State) : Out := lengthSymbol 285 s

/-- DIST0 (R300). -/
def execDist0 (s : State) : Out := distanceSymbol 0 s

/-- DIST1 (R301). -/
def execDist1 (s : State) : Out := distanceSymbol 1 s

/-- DIST2 (R302). -/
def execDist2 (s : State) : Out := distanceSymbol 2 s

/-- DIST3 (R303). -/
def execDist3 (s : State) : Out := distanceSymbol 3 s

/-- DIST4 (R304). -/
def execDist4 (s : State) : Out := distanceSymbol 4 s

/-- DIST5 (R305). -/
def execDist5 (s : State) : Out := distanceSymbol 5 s

/-- DIST6 (R306). -/
def execDist6 (s : State) : Out := distanceSymbol 6 s

/-- DIST7 (R307). -/
def execDist7 (s : State) : Out := distanceSymbol 7 s

/-- DIST8 (R308). -/
def execDist8 (s : State) : Out := distanceSymbol 8 s

/-- DIST9 (R309). -/
def execDist9 (s : State) : Out := distanceSymbol 9 s

/-- DIST10 (R310). -/
def execDist10 (s : State) : Out := distanceSymbol 10 s

/-- DIST11 (R311). -/
def execDist11 (s : State) : Out := distanceSymbol 11 s

/-- DIST12 (R312). -/
def execDist12 (s : State) : Out := distanceSymbol 12 s

/-- DIST13 (R313). -/
def execDist13 (s : State) : Out := distanceSymbol 13 s

/-- DIST14 (R314). -/
def execDist14 (s : State) : Out := distanceSymbol 14 s

/-- DIST15 (R315). -/
def execDist15 (s : State) : Out := distanceSymbol 15 s

/-- DIST16 (R316). -/
def execDist16 (s : State) : Out := distanceSymbol 16 s

/-- DIST17 (R317). -/
def execDist17 (s : State) : Out := distanceSymbol 17 s

/-- DIST18 (R318). -/
def execDist18 (s : State) : Out := distanceSymbol 18 s

/-- DIST19 (R319). -/
def execDist19 (s : State) : Out := distanceSymbol 19 s

/-- DIST20 (R320). -/
def execDist20 (s : State) : Out := distanceSymbol 20 s

/-- DIST21 (R321). -/
def execDist21 (s : State) : Out := distanceSymbol 21 s

/-- DIST22 (R322). -/
def execDist22 (s : State) : Out := distanceSymbol 22 s

/-- DIST23 (R323). -/
def execDist23 (s : State) : Out := distanceSymbol 23 s

/-- DIST24 (R324). -/
def execDist24 (s : State) : Out := distanceSymbol 24 s

/-- DIST25 (R325). -/
def execDist25 (s : State) : Out := distanceSymbol 25 s

/-- DIST26 (R326). -/
def execDist26 (s : State) : Out := distanceSymbol 26 s

/-- DIST27 (R327). -/
def execDist27 (s : State) : Out := distanceSymbol 27 s

/-- DIST28 (R328). -/
def execDist28 (s : State) : Out := distanceSymbol 28 s

/-- DIST29 (R329). -/
def execDist29 (s : State) : Out := distanceSymbol 29 s

end Sys2Proof.Machine
end

