-- ==== Sys2Proof/Machine/HostPort.lean ====
section
/-! DEFINITION. The register block as the host sees it (spec/10_state.md R20 to R32, spec/46_commands.md R390, R396). -/

namespace Sys2Proof.Machine

/-- The bits a register has (R20, R28 to R31); the others read 0 and ignore writes. -/
def regMask : Nat → Word
  | 0x10 | 0x14 | 0x18 => 0xFFFFFFFF
  | 0x1C => 0x0000FFFF
  | 0x20 => 0x000001FF
  | 0x24 => 0x000101FF
  | 0x28 => 0x00FFFFFF
  | _ => 0

/-- A 32-bit read of REG (R20, R21): CTRL and every offset without a register read 0; a read changes nothing (R68). -/
def State.regRead (s : State) (off : Nat) : Word :=
  match off with
  | 0x04 => BitVec.ofNat 32 s.runState.code
  | 0x08 => BitVec.ofNat 32 s.errKind.code
  | 0x0C => BitVec.ofNat 32 s.errCause.code
  | 0x10 => s.cfg.inLen &&& regMask 0x10
  | 0x14 => s.cfg.width &&& regMask 0x14
  | 0x18 => s.cfg.height &&& regMask 0x18
  | 0x1C => s.cfg.imgFmt &&& regMask 0x1C
  | 0x20 => s.cfg.plteLen &&& regMask 0x20
  | 0x24 => s.cfg.trnsCtrl &&& regMask 0x24
  | 0x28 => s.cfg.trnsKey &&& regMask 0x28
  | _ => 0

/-- The configuration registers after a 32-bit write at an offset; any other offset is ignored (R20). -/
def Cfg.put (c : Cfg) (off : Nat) (v : Word) : Cfg :=
  match off with
  | 0x10 => { c with inLen := v &&& regMask 0x10 }
  | 0x14 => { c with width := v &&& regMask 0x14 }
  | 0x18 => { c with height := v &&& regMask 0x18 }
  | 0x1C => { c with imgFmt := v &&& regMask 0x1C }
  | 0x20 => { c with plteLen := v &&& regMask 0x20 }
  | 0x24 => { c with trnsCtrl := v &&& regMask 0x24 }
  | 0x28 => { c with trnsKey := v &&& regMask 0x28 }
  | _ => c

/-- A 32-bit write to a register other than CTRL: ignored while BUSY (R32, R396). -/
def State.regWrite (s : State) (off : Nat) (v : Word) : State :=
  if s.runState = .busy then s else { s with cfg := s.cfg.put off v }

/-- A host write of a byte to a memory: refused while BUSY (R70, entry 7), else the host owns the memory (entry 8). -/
def hostMemWrite (sp : Space) (a : Nat) (b : Byte) (s : State) : Out :=
  if s.runState = .busy then .refused .hostWhileBusy
  else if a < s.size sp then .next (s.write sp a b)
  else .fault .hostAddress

/-- A host read of a byte of a memory. -/
def hostMemRead (sp : Space) (a : Nat) (s : State) : Out :=
  if s.runState = .busy then .refused .hostWhileBusy
  else if a < s.size sp then .next { s with hostData := (s.read sp a).setWidth 32 }
  else .fault .hostAddress

end Sys2Proof.Machine
end

