-- ==== Sys2Proof/Machine/Fetch.lean ====
section
/-! DEFINITION. What the next step does: which agent acts (spec/00_scope.md R11), and, for the engine, which element its
phase fetches from where (spec/46_commands.md R394, spec/20_memory.md R74). -/

namespace Sys2Proof.Machine

/-- What a step does: run an element in a state, or end at once with an outcome. -/
inductive Act where
  | run (i : Instr) (s : State)
  | out (o : Out)

/-- A decoded element runs; a refused word raises the failure the spec names for it (R106). -/
def Act.ofDecode (r : Except DecodeError Instr) (s : State) : Act :=
  match r with
  | .ok i => .run i s
  | .error e => .out (.next (raise (causeOf e) s))

/-- A fetch that may fail in the bit-reader. -/
def Act.ofFetch (r : Res (Except DecodeError Instr)) : Act :=
  match r with
  | .ok d s => .ofDecode d s
  | .raised c s => .out (.next (raise c s))

/-- Phase ZHDR: the two bytes at IN addresses 0 and 1 (R91, R170); not read when IN_LEN < 6. -/
def fetchZlib (s : State) : Act :=
  if s.work.cfg.inLen.toNat < 6 then .out (.next (raise .zlibShort s))
  else .ofDecode (decodeBytes .zlib [s.read .inp 0, s.read .inp 1]) s

/-- Phase BLKHDR: BFINAL, then BTYPE (R172, R92). -/
def fetchBlock (s : State) : Act :=
  .ofFetch ((readBits 1 s).bind fun f s => (readBits 2 s).bind fun t s => .ok (decodeWord .blk (f + 2 * t)) s)

/-- A Huffman-coded symbol of a table (R153), as a word of its format (R95, R96). -/
def fetchSymbol (f : Format) (t : Huff) (s : State) : Act :=
  .ofFetch ((huffDecode t s).bind fun y s => .ok (decodeWord f y) s)

/-- Phase BODY: a literal/length symbol, or the distance symbol of a match whose length is known (R200, R96). -/
def fetchBody (s : State) : Act :=
  match s.work.matchLen with
  | none => fetchSymbol .ll s.work.llt s
  | some _ => fetchSymbol .dist s.work.dt s

/-- Phase DEFILTER: the filter byte of row ROW (R351, R97). -/
def fetchFilter (s : State) : Act :=
  .ofDecode (decodeBytes .row [s.read .out (s.work.filterAddr s.work.row)]) s

/-- Phase ASSEMBLE: the pixel format in CHECK's copy of IMG_FMT, one for the whole image (R98, R20). -/
def fetchPixel (s : State) : Act := .ofDecode (decodeWord .pix s.work.cfg.pixWord) s

/-- What the engine does next (R394). It acts only while BUSY; otherwise the step changes nothing (entry 14). -/
def engineAct (s : State) : Act :=
  if s.runState ≠ .busy then .out (.next s)
  else match s.phase with
    | .idle => .out (.fault .busyIdle)
    | .check => .out (checkPhase s)
    | .zhdr => fetchZlib s
    | .blkhdr => fetchBlock s
    | .stored => .out (finish (storedBlock s))
    | .fixed => .out (finish (fixedBlock s))
    | .dynhdr => fetchSymbol .clsym s.work.clt s
    | .body => fetchBody s
    | .infend => .out (infEnd s)
    | .defilter => fetchFilter s
    | .assemble => fetchPixel s

/-- A host write of CTRL (R390): the command its bits name, or nothing. -/
def ctrlAct (v : Word) (s : State) : Act :=
  match decodeWord .ctrl v.toNat with
  | .ok i => .run i s
  | .error _ => .out (.next s)

/-- What a host access does, in a state from whose list it has been taken (R32, R70, R450). -/
def hostAct (op : HostOp) (s : State) : Act :=
  match op with
  | .wait => engineAct s
  | .regWrite off v => if off = 0 then ctrlAct v s else .out (.next (s.regWrite off v))
  | .regRead off => .out (.next { s with hostData := s.regRead off })
  | .memWrite sp a b => .out (hostMemWrite sp a b s)
  | .memRead sp a => .out (hostMemRead sp a s)
  | .hardReset => .out (.next (resetEngine s))

/-- What the next step does: the host's oldest pending access, or the engine (R11, entry 6). -/
def State.nextAct (s : State) : Act :=
  match s.host with
  | [] => engineAct s
  | op :: rest => hostAct op { s with host := rest }

/-! ### Placing an element where the next step fetches it -/

/-- A byte from eight bits, the first the least significant. -/
def byteOfBits : List Bool → Nat
  | [] => 0
  | b :: bs => b.toNat + 2 * byteOfBits bs

/-- Write `n` bytes of bits to IN from address `a` on; bits that are missing are 0. -/
def placeBits : Nat → Nat → List Bool → State → State
  | 0, _, _, s => s
  | n + 1, a, bs, s => placeBits n (a + 1) (bs.drop 8) (s.write .inp a (BitVec.ofNat 8 (byteOfBits (bs.take 8))))

/-- The engine about to fetch from the stream in a phase: the bits stand at bit position 16, zeros behind them, and the
bit-reader has just been started there (entry 19). -/
def placeStream (p : Phase) (bs : List Bool) (s : State) : State :=
  let s := placeBits 20 2 bs s
  { initReader { s with work.cfg.inLen := 26 } with host := [], runState := .busy, phase := p }

/-- The bits of a symbol's code in a table. -/
def symbolBits (t : Huff) (y : Nat) : List Bool :=
  match t.codeOf y with
  | none => []
  | some (c, l) => codeBits c l

/-- The tables of a fixed block (R174). -/
def fixedLlt : Huff := (Huff.build fixLL 288).getD Huff.empty
def fixedDt : Huff := (Huff.build fixD 32).getD Huff.empty

/-- A code-length table that gives every symbol a code, of 5 bits. -/
def flatClt : Huff := (Huff.build (List.replicate 19 5) 19).getD Huff.empty

/-- The state in which the next step fetches and runs the word `w` of a format (entry 19). A Huffman-coded symbol needs
tables: those of a fixed block, or `flatClt` with the smallest counts a dynamic header can give; a distance symbol needs
a length before it. -/
def placeWord (f : Format) (w : Nat) (s : State) : State :=
  match f with
  | .zlib =>
    { (s.write .inp 0 (BitVec.ofNat 8 w)).write .inp 1 (BitVec.ofNat 8 (w / 2 ^ 8)) with
      work.cfg.inLen := 26, host := [], runState := .busy, phase := .zhdr }
  | .blk => placeStream .blkhdr [w.testBit 0, w.testBit 1, w.testBit 2] s
  | .clsym =>
    placeStream .dynhdr (symbolBits flatClt w)
      { s with work.clt := flatClt, work.hlit := 257, work.hdist := 1 }
  | .ll =>
    placeStream .body (symbolBits fixedLlt w)
      { s with work.llt := fixedLlt, work.dt := fixedDt, work.matchLen := none }
  | .dist =>
    placeStream .body (symbolBits fixedDt w)
      { s with work.llt := fixedLlt, work.dt := fixedDt, work.matchLen := some 3 }
  | .row =>
    { s.write .out (s.work.filterAddr s.work.row) (BitVec.ofNat 8 w) with
      host := [], runState := .busy, phase := .defilter }
  | .pix => { s with work.cfg.imgFmt := BitVec.ofNat 32 w, host := [], runState := .busy, phase := .assemble }
  | .ctrl => { s with host := [.regWrite 0 (BitVec.ofNat 32 w)] }

end Sys2Proof.Machine
end

