-- ==== Sys2Proof/Machine/Step.lean ====
section
/-! DEFINITION. One step of the machine: one host access, one element, or one phase action that has no element
(spec/46_commands.md R394, entry 5). -/

namespace Sys2Proof.Machine

/-- One step. -/
def step (s : State) : Host.Outcome State Fault Refusal :=
  match s.nextAct with
  | .run i s' => exec i s'
  | .out o => o

/-- `s` with a table word placed so that the next step fetches and runs it, in the format `tableFormat` chooses
(entries 18 and 19). -/
def State.withFetchWord (s : State) (nbits w : Nat) : State := placeWord (tableFormat nbits w) w s

end Sys2Proof.Machine
end

