-- ==== Sys2Proof/Safety.lean ====
section
/-! DEFINITION. What counts as a good state, in the terms the statements use: the invariants the spec states of the
machine, and what an element leaves alone. -/

namespace Sys2Proof.Machine

/-! ### Frames -/

/-- What no element but START and RESET may change: the configuration registers, the inputs IN, PLTE and TRNS (R395,
R412), the machine's sizes and the host's own fields. -/
def SameInputs (s t : State) : Prop :=
  t.cfg = s.cfg ∧ t.inMem = s.inMem ∧ t.plteMem = s.plteMem ∧ t.trnsMem = s.trnsMem ∧
    t.inEpoch = s.inEpoch ∧ t.outEpoch = s.outEpoch ∧ t.params = s.params ∧ t.host = s.host ∧ t.hostData = s.hostData

/-- STATUS, ERR_KIND and ERR_CAUSE unchanged: no failure, no completion (R22 to R24, R52). -/
def SameStatus (s t : State) : Prop :=
  t.runState = s.runState ∧ t.errKind = s.errKind ∧ t.errCause = s.errCause

/-- Every byte of a memory outside the `n` addresses from `a` on reads as before. -/
def SameOutside (sp : Space) (a n : Nat) (s t : State) : Prop :=
  ∀ x, (x < a ∨ a + n ≤ x) → t.read sp x = s.read sp x

/-- Every byte of a memory reads as before. -/
def SameMem (sp : Space) (s t : State) : Prop := ∀ x, t.read sp x = s.read sp x

/-- An element that neither failed nor ended the run: inputs and status as before. -/
def Kept (s t : State) : Prop := SameInputs s t ∧ SameStatus s t

/-- A run ended by `raise` with a cause (R412), the inputs unchanged (R414). -/
def Failed (c : Cause) (s t : State) : Prop :=
  t.runState = .failed ∧ t.errKind = c.kind ∧ t.errCause = c ∧ t.phase = .idle ∧ SameInputs s t

/-- The working registers with the cursor at bit position `p` and the bit window of `v`; `WindowOk` says what the
window then holds (R37). -/
def Work.withCursor (w : Work) (p : Nat) (v : Work) : Work :=
  { w with bitPos := p, acc := v.acc, nbits := v.nbits, inPos := v.inPos }

/-! ### Codes -/

/-- The look-ahead begins with the `l` bits of a code, the most significant first (R61 c). -/
def StartsWith (peek : Nat → Bool) (code l : Nat) : Prop := ∀ k, k < l → peek k = code.testBit (l - 1 - k)

/-- The code of a used symbol (R151): the first code of its length plus its rank among the symbols of that length. -/
def Huff.codeVal (t : Huff) (lens : List Nat) (y : Nat) : Nat :=
  t.first.getD (lens.getD y 0) 0 + (lens.take y).count (lens.getD y 0)

/-- The number the first `l` bits of the look-ahead make, the first bit the most significant: `decode`'s candidate
(R153). -/
def candidate (peek : Nat → Bool) : Nat → Nat
  | 0 => 0
  | l + 1 => 2 * candidate peek l + (peek l).toNat

/-- The Kraft sum of R152 in units of 2^-15. -/
def kraft (lens : List Nat) : Nat := ((List.range' 1 15).map fun l => lens.count l * 2 ^ (15 - l)).sum

/-! ### Invariants -/

/-- Every memory is in canonical form. -/
def MemInv (s : State) : Prop := ∀ sp, Memory.wf (s.mem sp) = true

/-- The bits the registers do not have are 0 (R20, R28 to R31). -/
def RegInv (s : State) : Prop :=
  s.cfg.imgFmt &&& 0xFFFF0000 = 0 ∧ s.cfg.plteLen &&& 0xFFFFFE00 = 0 ∧
    s.cfg.trnsCtrl &&& 0xFFFEFE00 = 0 ∧ s.cfg.trnsKey &&& 0xFF000000 = 0

/-- STATUS, PHASE and the error registers agree: PHASE is IDLE exactly while STATE is not BUSY (R43), the phases STORED
and FIXED are over within the step that enters them (entry 5), the kind is the cause's (R24), and there is a cause
exactly in FAILED (R22 to R24, R395, R412). -/
def StatusInv (s : State) : Prop :=
  (s.runState = .busy ↔ s.phase ≠ .idle) ∧ s.phase ≠ .stored ∧ s.phase ≠ .fixed ∧
    s.errKind = s.errCause.kind ∧ (s.runState = .failed ↔ s.errCause ≠ .none)

/-- The phases in which the bit-reader is in use (R130). -/
def Phase.streaming : Phase → Bool
  | .blkhdr | .stored | .fixed | .dynhdr | .body => true
  | _ => false

/-- The phases after CHECK. -/
def Phase.checked : Phase → Bool
  | .idle | .check => false
  | _ => true

/-- The bit window refines the cursor (R37 a to e); END_BIT is a multiple of 8 that the cursor does not pass (R36, R38). -/
def WindowOk (s : State) : Prop :=
  s.work.bitPos + s.work.nbits = 8 * s.work.inPos ∧
    (∀ k, s.work.acc.getLsbD k = (decide (k < s.work.nbits) && s.sbit (s.work.bitPos + k))) ∧
    s.work.nbits ≤ 23 ∧ 8 * s.work.inPos ≤ s.work.endBit ∧ s.work.endBit % 8 = 0 ∧
    (16 ≤ s.work.nbits ∨ 8 * s.work.inPos = s.work.endBit)

/-- In every phase that reads the stream the bit window refines the cursor (R37). -/
def WindowInv (s : State) : Prop := s.phase.streaming = true → WindowOk s

/-- Every byte of OUT below an address has been written in this run (R66, R451). -/
def OutWritten (n : Nat) (s : State) : Prop := ∀ a, a < n → (Memory.get? s.outMem a).isSome = true

/-- The descriptor passed phase CHECK and the geometry is the image's (R392, R340, R360); the working copy of the
configuration registers is what the registers still hold (R20, R396). -/
def GeometryOk (s : State) : Prop :=
  s.work.cfg = s.cfg ∧ s.work.cfg.inLen.toNat ≤ s.params.inMemBytes ∧
    0 < s.work.cfg.width.toNat ∧ 0 < s.work.cfg.height.toNat ∧
    (∃ i, decodeWord .pix s.work.cfg.pixWord = .ok i) ∧
    s.work.bitsPP = bitsPerPixel s.work.cfg.ctype s.work.cfg.depth ∧
    s.work.rowBytes = rowBytesOf s.work.cfg.width.toNat s.work.bitsPP ∧
    s.work.bpp = bppOf s.work.bitsPP ∧
    s.work.cap = s.work.cfg.height.toNat * (1 + s.work.rowBytes) ∧
    s.work.cap ≤ s.params.outMemBytes ∧
    4 * s.work.cfg.width.toNat * s.work.cfg.height.toNat ≤ s.params.pixMemBytes

/-- Where a run stands, by phase: the positions are inside their bounds (R36, R38, R39, R63 to R66), and every byte of
OUT below OUT_POS has been written in this run. -/
def RunInv (s : State) : Prop :=
  (s.phase.checked = true → GeometryOk s) ∧
    (s.phase.streaming = true ∨ s.phase = .infend →
      6 ≤ s.work.cfg.inLen.toNat ∧ s.work.endBit = 8 * (s.work.cfg.inLen.toNat - 4) ∧ 16 ≤ s.work.bitPos ∧
        s.work.bitPos ≤ s.work.endBit ∧ s.work.outPos ≤ s.work.cap ∧ OutWritten s.work.outPos s) ∧
    (s.phase = .dynhdr →
      257 ≤ s.work.hlit ∧ s.work.hlit ≤ 288 ∧ 1 ≤ s.work.hdist ∧ s.work.hdist ≤ 32 ∧
        s.work.lenI < s.work.hlit + s.work.hdist) ∧
    (s.phase = .body → ∀ l, s.work.matchLen = some l → 3 ≤ l ∧ l ≤ 258) ∧
    (s.phase = .defilter ∨ s.phase = .assemble →
      s.work.row < s.work.cfg.height.toNat ∧ OutWritten s.work.cap s)

/-- No memory holds a byte at an address it does not have (R50, R63 to R66). -/
def SizeInv (s : State) : Prop := ∀ sp, ∀ c ∈ s.mem sp, c.1 < s.size sp

/-- No table gives a symbol outside its alphabet: 19 code-length symbols, 288 literal/length symbols, 32 distance
symbols (R46, R95, R96). -/
def TablesInv (s : State) : Prop :=
  (s.phase = .dynhdr → ∀ y ∈ s.work.clt.sym, y < 19) ∧
    (s.phase = .body → (∀ y ∈ s.work.llt.sym, y < 288) ∧ ∀ y ∈ s.work.dt.sym, y < 32)

/-- The invariant of the whole machine. -/
def Inv (s : State) : Prop :=
  MemInv s ∧ RegInv s ∧ StatusInv s ∧ WindowInv s ∧ RunInv s ∧ SizeInv s ∧ TablesInv s

/-! ### Elements with a common shape -/

/-- The engine has the next step, in the state `u`: no host access is pending, or `wait` is (entry 6). -/
def EngineTurn (s u : State) : Prop :=
  (s.host = [] ∧ u = s) ∨ ∃ rest, s.host = .wait :: rest ∧ u = { s with host := rest }

/-- A code-length element that set the next `r` code lengths to `x` after reading `n` extra bits (R179 to R182); what
the last length adds (LLT, DT, `matchLen`, PHASE) is not said here. -/
def LensSet (s t : State) (r : Nat) (x : BitVec 4) (n : Nat) : Prop :=
  Kept s t ∧ SameMem .out s t ∧ SameMem .pix s t ∧
    (∀ j, j < 320 → t.work.lens[j]? = if s.work.lenI ≤ j ∧ j < s.work.lenI + r then some x else s.work.lens[j]?) ∧
    t.work = { s.work.withCursor (s.work.bitPos + n) t.work with
      lens := t.work.lens, lenI := s.work.lenI + r,
      llt := t.work.llt, dt := t.work.dt, matchLen := t.work.matchLen } ∧
    (WindowOk s → WindowOk t)

/-- The code lengths after `r` of them have been set to `x`, as numbers. -/
def lensAfter (s : State) (r : Nat) (x : BitVec 4) : List Nat :=
  (fillLens s.work.lens s.work.lenI x r).toList.map BitVec.toNat

/-- One row of R342 to R351: every data byte of row ROW is its filtered value plus the predictor of its neighbours, all
three as they stand after the row; nothing else of OUT changes, and ROW and PHASE move on. -/
def RowReconstructed (pred : Nat → Nat → Nat → Nat) (s t : State) : Prop :=
  SameInputs s t ∧ SameStatus s t ∧ SameMem .pix s t ∧
    t.work = { s.work with row := if s.work.row + 1 = s.work.cfg.height.toNat then 0 else s.work.row + 1 } ∧
    t.phase = (if s.work.row + 1 = s.work.cfg.height.toNat then .assemble else s.phase) ∧
    SameOutside .out (s.work.rowAddr s.work.row) s.work.rowBytes s t ∧
    ∀ x, x < s.work.rowBytes →
      let y := s.work.row
      let a := if s.work.bpp ≤ x then (t.read .out (s.work.rowAddr y + x - s.work.bpp)).toNat else 0
      let b := if 1 ≤ y then (t.read .out (s.work.rowAddr (y - 1) + x)).toNat else 0
      let c := if 1 ≤ y ∧ s.work.bpp ≤ x then (t.read .out (s.work.rowAddr (y - 1) + x - s.work.bpp)).toNat else 0
      t.read .out (s.work.rowAddr y + x) =
        BitVec.ofNat 8 ((s.read .out (s.work.rowAddr y + x)).toNat + pred a b c)

/-- One row of R362: the pixel at every column of row ROW is what `pixel` says, in the order R, G, B, A; nothing else of
PIX changes, and ROW moves on, the last row ending the run. -/
def RowAssembled (pixel : Nat → Byte × Byte × Byte × Byte) (s t : State) : Prop :=
  SameInputs s t ∧ SameMem .out s t ∧ t.errKind = s.errKind ∧ t.errCause = s.errCause ∧
    t.work = { s.work with row := s.work.row + 1 } ∧
    (s.work.row + 1 = s.work.cfg.height.toNat → t.runState = .done ∧ t.phase = .idle) ∧
    (s.work.row + 1 ≠ s.work.cfg.height.toNat → t.runState = s.runState ∧ t.phase = s.phase) ∧
    SameOutside .pix (4 * (s.work.row * s.work.cfg.width.toNat)) (4 * s.work.cfg.width.toNat) s t ∧
    ∀ x, x < s.work.cfg.width.toNat →
      let a := 4 * (s.work.row * s.work.cfg.width.toNat + x)
      (t.read .pix a, t.read .pix (a + 1), t.read .pix (a + 2), t.read .pix (a + 3)) = pixel x

/-- The index of column `x` of row `y` (R365), by division: the leftmost pixel of a byte is in its highest bits. -/
def State.indexAt (s : State) (d y x : Nat) : Nat :=
  (s.read .out (s.work.rowAddr y + x * d / 8)).toNat / 2 ^ (8 - d - x * d % 8) % 2 ^ d

/-- The pixel of a palette index (R374, R373). -/
def State.palettePixelAt (s : State) (idx : Nat) : Byte × Byte × Byte × Byte :=
  (s.read .plte (3 * idx), s.read .plte (3 * idx + 1), s.read .plte (3 * idx + 2),
    if s.work.cfg.trnsPresent = true ∧ idx < s.work.cfg.trnsLen then s.read .trns idx else 255)

/-- One whole step of phase BODY as R200 writes it, a literal, a block end or a whole match; `matchLen` holds the step's
temporary `length` while the distance is read. -/
def bodyStep (s : State) : Out :=
  finish ((huffDecode s.work.llt s).bind fun y s =>
    if y < 256 then
      if s.work.outPos + 1 > s.work.cap then .raised .outCapacity s else .ok () (putOut (BitVec.ofNat 8 y) s)
    else if y = 256 then .ok () (blockEnd s)
    else if y ≥ 286 then .raised .badSymbol s
    else
      (readBits (lextra y) s).bind fun e s =>
        let length := lbase y + e
        (huffDecode s.work.dt { s with work.matchLen := some length }).bind fun d s =>
          if d ≥ 30 then .raised .badSymbol s
          else
            (readBits (dextra d) s).bind fun e s =>
              let distance := dbase d + e
              if distance > s.work.outPos then .raised .distRange s
              else if s.work.outPos + length > s.work.cap then .raised .outCapacity s
              else .ok () { copyBack distance length s with work.matchLen := none })

/-- `n` steps one after another, stopping at a fault or a refusal. -/
def runSteps : Nat → State → Out
  | 0, s => .next s
  | n + 1, s =>
    match step s with
    | .next t => runSteps n t
    | .fault f => .fault f
    | .refused r => .refused r

/-- A state with another content of IN. -/
def State.withIn (s : State) (m : List Host.Cell) : State := { s with inMem := m }

end Sys2Proof.Machine
end

