-- ==== Sys2Proof/WellFormed.lean ====
section
/-! DEFINITION. Which terms of Instr are elements of the stream: every operand fits its field. -/

namespace Sys2Proof

/-- The operands of an element fit the fields of its word: CINFO is 4 bits, FCHECK 5, FLEVEL 2 (R91), and a code
length is 0 to 15 (R95, R179). The other operands are bits already. -/
def Instr.wellFormed : Instr → Bool
  | .zlibHdr cinfo fcheck flevel => decide (cinfo < 16) && decide (fcheck < 32) && decide (flevel < 4)
  | .blkStored _ => true
  | .blkFixed _ => true
  | .blkDynamic _ => true
  | .blkReserved _ => true
  | .clLen len => decide (len < 16)
  | .clRep16 => true
  | .clZero17 => true
  | .clZero18 => true
  | .lit _ => true
  | .eob => true
  | .len257 => true
  | .len258 => true
  | .len259 => true
  | .len260 => true
  | .len261 => true
  | .len262 => true
  | .len263 => true
  | .len264 => true
  | .len265 => true
  | .len266 => true
  | .len267 => true
  | .len268 => true
  | .len269 => true
  | .len270 => true
  | .len271 => true
  | .len272 => true
  | .len273 => true
  | .len274 => true
  | .len275 => true
  | .len276 => true
  | .len277 => true
  | .len278 => true
  | .len279 => true
  | .len280 => true
  | .len281 => true
  | .len282 => true
  | .len283 => true
  | .len284 => true
  | .len285 => true
  | .ll286 => true
  | .ll287 => true
  | .dist0 => true
  | .dist1 => true
  | .dist2 => true
  | .dist3 => true
  | .dist4 => true
  | .dist5 => true
  | .dist6 => true
  | .dist7 => true
  | .dist8 => true
  | .dist9 => true
  | .dist10 => true
  | .dist11 => true
  | .dist12 => true
  | .dist13 => true
  | .dist14 => true
  | .dist15 => true
  | .dist16 => true
  | .dist17 => true
  | .dist18 => true
  | .dist19 => true
  | .dist20 => true
  | .dist21 => true
  | .dist22 => true
  | .dist23 => true
  | .dist24 => true
  | .dist25 => true
  | .dist26 => true
  | .dist27 => true
  | .dist28 => true
  | .dist29 => true
  | .dist30 => true
  | .dist31 => true
  | .filtNone => true
  | .filtSub => true
  | .filtUp => true
  | .filtAvg => true
  | .filtPaeth => true
  | .pixGray8 => true
  | .pixRgb8 => true
  | .pixIdx1 => true
  | .pixIdx2 => true
  | .pixIdx4 => true
  | .pixIdx8 => true
  | .pixGa8 => true
  | .pixRgba8 => true
  | .start => true
  | .reset => true

end Sys2Proof
end

