-- ==== Sys2Proof/Certificates/Slice0/Obligations.lean ====
section
/-! DEFINITION. The statements for the provers, from the numbered rules of spec/. `Kept s t` says that the element
changed no input and no status register, `Failed c s t` that the run ended with the cause `c`; a state's bit window is
left to `WindowOk`, which says all that R37 says of it. A configuration register a rule names in a phase after CHECK is
there the working copy CHECK made, `work.cfg` (R20, entry 12). -/

open Sys2Proof Sys2Proof.Machine

/-! ### Encoding -/

/-- R91 to R99: words written out from the formats' own fields. The colour-type number in 0x0208 and the names of the
zlib header's unchecked fields are general knowledge in the spec (entry 20). -/
def Obligations.TableWordsDecode : Prop :=
  decodeBytes .zlib [0x78, 0x01] = .ok (.zlibHdr 7 1 0) ∧
    decodeWord .blk 0b011 = .ok (.blkFixed true) ∧
    decodeWord .clsym 0b10010 = .ok .clZero18 ∧
    decodeWord .ll 0b001100001 = .ok (.lit 0x61) ∧
    decodeWord .ll 0b100011101 = .ok .len285 ∧
    decodeWord .dist 0b11101 = .ok .dist29 ∧
    decodeBytes .row [0b00000100] = .ok .filtPaeth ∧
    decodeBytes .pix [0x08, 0x02] = .ok .pixRgb8 ∧
    decodeWord .ctrl 0b11 = .ok .reset

/-- R105: the bytes of a well-formed element's word decode to that element, with every operand it has. -/
def Obligations.DecodeEncode : Prop :=
  ∀ i : Instr, i.wellFormed = true →
    decodeWord i.format (encode i) = .ok i ∧
      decodeBytes i.format (bytesOfWord ((i.format.width + 7) / 8) (encode i)) = .ok i

/-- R106, R107: what decodes is well-formed, is of the format it was fetched in, and (the bits CTRL ignores apart) has
no other word. -/
def Obligations.EncodeDecode : Prop :=
  ∀ (f : Format) (w : Nat) (i : Instr), decodeWord f w = .ok i →
    i.wellFormed = true ∧ i.format = f ∧ (f ≠ .ctrl → encode i = w)

/-- R91, R92, R97, R98 with R361, R99 with R390: exactly which words of these formats are refused, and under which name.
The colour types' numbers and the names of the zlib header's unchecked fields are general knowledge in the spec (entry
20). -/
def Obligations.WordsRefused : Prop :=
  (∀ w, w < 2 ^ 16 →
    (w % 16 ≠ 8 → decodeWord .zlib w = .error .zlibMethod) ∧
    (w % 16 = 8 → w.testBit 13 = true → decodeWord .zlib w = .error .zlibFdict) ∧
    (w % 16 = 8 → w.testBit 13 = false →
      decodeWord .zlib w = .ok (.zlibHdr (w / 2 ^ 4 % 2 ^ 4) (w / 2 ^ 8 % 2 ^ 5) (w / 2 ^ 14)))) ∧
  (∀ w, w < 2 ^ 3 → ∃ i, decodeWord .blk w = .ok i) ∧
  (∀ w, w < 2 ^ 8 →
    (w < 5 → ∃ i, decodeWord .row w = .ok i) ∧ (5 ≤ w → decodeWord .row w = .error .filterType)) ∧
  (∀ ct d, ct < 2 ^ 8 → d < 2 ^ 8 →
    (ct ∉ [0, 2, 3, 4, 6] → decodeWord .pix (2 ^ 8 * ct + d) = .error .colorType) ∧
    (ct ∈ [0, 2, 3, 4, 6] → (ct, d) ∉ [(0, 8), (2, 8), (3, 1), (3, 2), (3, 4), (3, 8), (4, 8), (6, 8)] →
      decodeWord .pix (2 ^ 8 * ct + d) = .error .depth) ∧
    ((ct, d) ∈ [(0, 8), (2, 8), (3, 1), (3, 2), (3, 4), (3, 8), (4, 8), (6, 8)] →
      ∃ i, decodeWord .pix (2 ^ 8 * ct + d) = .ok i)) ∧
  (∀ w, w < 2 ^ 32 →
    (w.testBit 1 = true → decodeWord .ctrl w = .ok .reset) ∧
    (w.testBit 1 = false → w.testBit 0 = true → decodeWord .ctrl w = .ok .start) ∧
    (w.testBit 1 = false → w.testBit 0 = false → decodeWord .ctrl w = .error .noCommand))

/-! ### Huffman tables -/

/-- R152, R151: a code-length set is accepted exactly when it is complete or under-subscribed; that
`first[15] + count[15]` is the same sum is an inference R152 marks as its own. Loading a table from a rejected set raises
TABLE. -/
def Obligations.BuildAccepts : Prop :=
  ∀ lens : List Nat,
    ((∃ t, Huff.build lens lens.length = some t) ↔ kraft lens ≤ 2 ^ 15) ∧
    (∀ t, Huff.build lens lens.length = some t → t.first.getD 15 0 + t.count.getD 15 0 = kraft lens) ∧
    ∀ s : State, 2 ^ 15 < kraft lens →
      loadLlt lens lens.length s = .raised .table s ∧ loadDt lens lens.length s = .raised .table s ∧
        (s.work.clLens.toList.map BitVec.toNat = lens → loadClt s = .raised .table s)

/-- R151: what `build` writes. The symbols stand in the order (length, symbol), each at the place its code names.
That unused symbols are not counted is general knowledge in the spec (entry 20). -/
def Obligations.BuildTable : Prop :=
  ∀ (lens : List Nat) (t : Huff), (∀ l ∈ lens, l ≤ 15) → Huff.build lens lens.length = some t →
    t.n = lens.length ∧
    (∀ l, 1 ≤ l → l ≤ 15 → t.count.getD l 0 = lens.count l) ∧
    t.first.getD 1 0 = 0 ∧ t.base.getD 1 0 = 0 ∧
    (∀ l, 1 ≤ l → l < 15 → t.first.getD (l + 1) 0 = 2 * (t.first.getD l 0 + t.count.getD l 0)) ∧
    (∀ l, 1 ≤ l → l < 15 → t.base.getD (l + 1) 0 = t.base.getD l 0 + t.count.getD l 0) ∧
    t.used = t.base.getD 15 0 + t.count.getD 15 0 ∧ t.sym.length = t.used ∧
    (∀ y, y ∈ t.sym ↔ y < lens.length ∧ lens.getD y 0 ≠ 0) ∧
    t.sym.Pairwise (fun y z => lens.getD y 0 < lens.getD z 0 ∨ (lens.getD y 0 = lens.getD z 0 ∧ y < z)) ∧
    (∀ y, y < lens.length → lens.getD y 0 ≠ 0 →
      t.sym[t.base.getD (lens.getD y 0) 0 + t.codeVal lens y - t.first.getD (lens.getD y 0) 0]? = some y)

/-- R153, with the codes of R151: `decode` finds a symbol and a length exactly when the look-ahead begins with that
symbol's code, and nothing exactly when it begins with no code. That unused symbols are not counted is general knowledge
in the spec (entry 20). -/
def Obligations.CodesDecode : Prop :=
  ∀ (lens : List Nat) (t : Huff), (∀ l ∈ lens, l ≤ 15) → Huff.build lens lens.length = some t →
    ∀ peek : Nat → Bool,
      (∀ y, y < lens.length → lens.getD y 0 ≠ 0 → StartsWith peek (t.codeVal lens y) (lens.getD y 0) →
        t.lookup peek = some (y, lens.getD y 0)) ∧
      (∀ y l, t.lookup peek = some (y, l) →
        y < lens.length ∧ lens.getD y 0 = l ∧ 1 ≤ l ∧ l ≤ 15 ∧ StartsWith peek (t.codeVal lens y) l) ∧
      (t.lookup peek = none ↔
        ∀ y, y < lens.length → lens.getD y 0 ≠ 0 → ¬ StartsWith peek (t.codeVal lens y) (lens.getD y 0))

/-- R154, an inference the spec marks as its own: the code is prefix-free, at most one length satisfies the range test,
`decode` looks at 15 bits, and with a complete set BAD_CODE cannot occur. That unused symbols are not counted is general
knowledge in the spec (entry 20). -/
def Obligations.CodesPrefixFree : Prop :=
  ∀ (lens : List Nat) (t : Huff), (∀ l ∈ lens, l ≤ 15) → Huff.build lens lens.length = some t →
    (∀ y z, y < lens.length → z < lens.length → lens.getD y 0 ≠ 0 → lens.getD z 0 ≠ 0 → ∀ peek,
      StartsWith peek (t.codeVal lens y) (lens.getD y 0) → StartsWith peek (t.codeVal lens z) (lens.getD z 0) →
        y = z) ∧
    (∀ peek l m, 1 ≤ l → l ≤ 15 → 1 ≤ m → m ≤ 15 →
      t.hit l (candidate peek l) = true → t.hit m (candidate peek m) = true → l = m) ∧
    (∀ p q, (∀ k, k < 15 → p k = q k) → t.lookup p = t.lookup q) ∧
    (kraft lens = 2 ^ 15 → (∀ peek, t.lookup peek ≠ none) ∧ ∀ s c u, huffDecode t s = .raised c u → c ≠ .badCode)

/-- R156, R157, R104, inferences the spec marks as its own: the codes of a fixed block. -/
def Obligations.FixedCodes : Prop :=
  Huff.build fixLL 288 = some fixedLlt ∧ Huff.build fixD 32 = some fixedDt ∧ ∀ peek : Nat → Bool,
    (∀ y, y ≤ 143 → StartsWith peek (48 + y) 8 → fixedLlt.lookup peek = some (y, 8)) ∧
    (∀ y, 144 ≤ y → y ≤ 255 → StartsWith peek (400 + (y - 144)) 9 → fixedLlt.lookup peek = some (y, 9)) ∧
    (∀ y, 256 ≤ y → y ≤ 279 → StartsWith peek (y - 256) 7 → fixedLlt.lookup peek = some (y, 7)) ∧
    (∀ y, 280 ≤ y → y ≤ 287 → StartsWith peek (192 + (y - 280)) 8 → fixedLlt.lookup peek = some (y, 8)) ∧
    (∀ d, d ≤ 31 → StartsWith peek d 5 → fixedDt.lookup peek = some (d, 5))

/-! ### Steps and fetches -/

/-- R394, R390: a step runs the element its phase fetches, in the state in which the fetch has consumed the element's
own bits; a host write of CTRL runs the command its bits name. -/
def Obligations.StepRunsElement : Prop :=
  (∀ (s u : State) (i : Instr), EngineTurn s u → u.runState = .busy →
    (u.phase = .zhdr → 6 ≤ u.work.cfg.inLen.toNat → decodeBytes .zlib [u.read .inp 0, u.read .inp 1] = .ok i →
      step s = exec i u) ∧
    (u.phase = .blkhdr → u.work.bitPos + 3 ≤ u.work.endBit → decodeWord .blk (u.bits u.work.bitPos 3) = .ok i →
      step s = exec i (advance 2 (advance 1 u))) ∧
    (∀ y l, u.phase = .dynhdr → u.work.clt.lookup u.peekbit = some (y, l) → u.work.bitPos + l ≤ u.work.endBit →
      decodeWord .clsym y = .ok i → step s = exec i (advance l u)) ∧
    (∀ y l, u.phase = .body → u.work.matchLen = none → u.work.llt.lookup u.peekbit = some (y, l) →
      u.work.bitPos + l ≤ u.work.endBit → decodeWord .ll y = .ok i → step s = exec i (advance l u)) ∧
    (∀ y l, u.phase = .body → u.work.matchLen ≠ none → u.work.dt.lookup u.peekbit = some (y, l) →
      u.work.bitPos + l ≤ u.work.endBit → decodeWord .dist y = .ok i → step s = exec i (advance l u)) ∧
    (u.phase = .defilter → decodeBytes .row [u.read .out (u.work.row * (1 + u.work.rowBytes))] = .ok i →
      step s = exec i u) ∧
    (u.phase = .assemble → decodeWord .pix u.work.cfg.pixWord = .ok i → step s = exec i u)) ∧
  ∀ (s : State) (v : Word) (rest : List HostOp) (i : Instr), s.host = .regWrite 0 v :: rest →
    decodeWord .ctrl v.toNat = .ok i → step s = exec i { s with host := rest }

/-- R170, R172, R153 with R417 (a), R349: what a fetch that gives no element raises. A filter byte that is refused
leaves its row as it was (R413; that the model keeps what it was is entry 13). -/
def Obligations.FetchFailures : Prop :=
  ∀ s u : State, EngineTurn s u → u.runState = .busy →
    (u.phase = .zhdr →
      (u.work.cfg.inLen.toNat < 6 → ∃ t, step s = .next t ∧ Failed .zlibShort u t) ∧
      (6 ≤ u.work.cfg.inLen.toNat → (u.read .inp 0).toNat % 16 ≠ 8 → ∃ t, step s = .next t ∧ Failed .zlibMethod u t) ∧
      (6 ≤ u.work.cfg.inLen.toNat → (u.read .inp 0).toNat % 16 = 8 → (u.read .inp 1).getLsbD 5 = true →
        ∃ t, step s = .next t ∧ Failed .zlibFdict u t)) ∧
    (u.phase = .blkhdr → u.work.endBit < u.work.bitPos + 3 → ∃ t, step s = .next t ∧ Failed .starved u t) ∧
    (∀ table, (u.phase = .dynhdr ∧ table = u.work.clt) ∨
        (u.phase = .body ∧ u.work.matchLen = none ∧ table = u.work.llt) ∨
        (u.phase = .body ∧ u.work.matchLen ≠ none ∧ table = u.work.dt) →
      (table.lookup u.peekbit = none → ∃ t, step s = .next t ∧ Failed .badCode u t) ∧
      (∀ y l, table.lookup u.peekbit = some (y, l) → u.work.endBit < u.work.bitPos + l →
        ∃ t, step s = .next t ∧ Failed .starved u t)) ∧
    (u.phase = .defilter → 5 ≤ (u.read .out (u.work.row * (1 + u.work.rowBytes))).toNat →
      ∃ t, step s = .next t ∧ Failed .filterType u t ∧ SameMem .out u t)

/-- R394, R395, R412: with no host access pending the engine takes no step outside BUSY: the model's step changes nothing
(entry 14). -/
def Obligations.IdleEngine : Prop :=
  ∀ s : State, s.host = [] → s.runState ≠ .busy → step s = .next s

/-! ### The bit-reader -/

/-- R131, R132: `read(n)` raises exactly when fewer than `n` bits remain; else its value is the next `n` stream bits,
the first the least significant, and only the cursor moves; `read(0)` does nothing at all. That the window, which the
model keeps beside the cursor (entry 17), follows it is R136 with R37, inferences the spec marks as its own. -/
def Obligations.ReadField : Prop :=
  ∀ (s : State) (n : Nat), n ≤ 16 →
    (s.work.endBit < s.work.bitPos + n → readBits n s = .raised .starved s) ∧
    (s.work.bitPos + n ≤ s.work.endBit → ∃ v t, readBits n s = .ok v t ∧ v < 2 ^ n ∧
      (∀ k, k < n → v.testBit k = s.sbit (s.work.bitPos + k)) ∧
      t = { s with work := s.work.withCursor (s.work.bitPos + n) t.work } ∧ (WindowOk s → WindowOk t)) ∧
    (WindowOk s → readBits 0 s = .ok 0 s)

/-- R134: `align()` moves the cursor to the next multiple of 8, not past END_BIT, and touches nothing else. That the
window, which the model keeps beside the cursor (entry 17), follows it is R136 with R37, inferences the spec marks as its
own. -/
def Obligations.AlignCursor : Prop :=
  ∀ s : State, WindowOk s →
    align s = { s with work := s.work.withCursor (8 * ((s.work.bitPos + 7) / 8)) (align s).work } ∧
      8 * ((s.work.bitPos + 7) / 8) ≤ s.work.endBit ∧ WindowOk (align s)

/-- R136, R133: the window answers as the cursor does. It runs out exactly when the cursor does, its low bits are the
next field, and its bit `k` is the look-ahead at `k`. -/
def Obligations.WindowAnswers : Prop :=
  ∀ s : State, WindowOk s →
    (∀ n, n ≤ 16 → (s.work.nbits < n ↔ s.work.endBit < s.work.bitPos + n)) ∧
    (∀ n, n ≤ 16 → s.work.bitPos + n ≤ s.work.endBit →
      readBits n s = .ok (s.work.acc.extractLsb' 0 n).toNat (advance n s)) ∧
    (∀ k, k ≤ 14 → s.peekbit k = s.work.acc.getLsbD k)

/-- R37, R136: every step keeps the bit window a refinement of the cursor, in every phase that reads the stream. That
the model keeps the window beside the cursor is entry 17. -/
def Obligations.WindowKept : Prop :=
  ∀ s t : State, StatusInv s → WindowInv s → step s = .next t → WindowInv t

/-! ### Block elements -/

/-- R170, R107: the zlib header starts the bit-reader; CINFO, FCHECK and FLEVEL change nothing. The names of these
fields are general knowledge in the spec (entry 20). -/
def Obligations.ZlibHeader : Prop :=
  ∀ (cinfo fcheck flevel : Nat) (s : State),
    (s.work.cfg.inLen.toNat < 6 → ∃ t, exec (.zlibHdr cinfo fcheck flevel) s = .next t ∧ Failed .zlibShort s t) ∧
    (6 ≤ s.work.cfg.inLen.toNat → ∃ t, exec (.zlibHdr cinfo fcheck flevel) s = .next t ∧ Kept s t ∧
      SameMem .out s t ∧ SameMem .pix s t ∧ t.phase = .blkhdr ∧
      t.work = { s.work.withCursor 16 t.work with endBit := 8 * (s.work.cfg.inLen.toNat - 4), outPos := 0 } ∧
      WindowOk t) ∧
    ∀ a b c, exec (.zlibHdr a b c) s = exec (.zlibHdr cinfo fcheck flevel) s

/-- R172, R173, R185: a stored block whose length field and data are all there is copied byte for byte. The cursor `p`
after `align()` is a multiple of 8, so its bytes are bytes of IN. -/
def Obligations.StoredBlock : Prop :=
  ∀ (final : Bool) (s : State),
    let p := 8 * ((s.work.bitPos + 7) / 8)
    let len := s.bits p 16
    s.bits (p + 16) 16 = 0xFFFF - len → s.work.outPos + len ≤ s.work.cap → p + 32 + 8 * len ≤ s.work.endBit →
    ∃ t, exec (.blkStored final) s = .next t ∧ Kept s t ∧ SameMem .pix s t ∧
      t.phase = (if final = true then .infend else .blkhdr) ∧
      t.work = { s.work.withCursor (p + 32 + 8 * len) t.work with
        bfinal := final, btype := 0, outPos := s.work.outPos + len } ∧
      (∀ k, k < len → t.read .out (s.work.outPos + k) = s.read .inp (p / 8 + 4 + k)) ∧
      SameOutside .out s.work.outPos len s t ∧ (WindowOk s → WindowOk t)

/-- R173, R417 (b): how a stored block fails, in this order: STARVED in LEN or NLEN, STORED_LEN, OUT_CAPACITY, STARVED
in the data. The two in the middle write none of its bytes (R413; that the model keeps OUT after a failure is entry
13). -/
def Obligations.StoredFailures : Prop :=
  ∀ (final : Bool) (s : State),
    let p := 8 * ((s.work.bitPos + 7) / 8)
    let len := s.bits p 16
    (s.work.endBit < p + 32 → ∃ t, exec (.blkStored final) s = .next t ∧ Failed .starved s t) ∧
    (p + 32 ≤ s.work.endBit → s.bits (p + 16) 16 ≠ 0xFFFF - len →
      ∃ t, exec (.blkStored final) s = .next t ∧ Failed .storedLen s t ∧ SameMem .out s t) ∧
    (p + 32 ≤ s.work.endBit → s.bits (p + 16) 16 = 0xFFFF - len → s.work.cap < s.work.outPos + len →
      ∃ t, exec (.blkStored final) s = .next t ∧ Failed .outCapacity s t ∧ SameMem .out s t) ∧
    (p + 32 ≤ s.work.endBit → s.bits (p + 16) 16 = 0xFFFF - len → s.work.outPos + len ≤ s.work.cap →
      s.work.endBit < p + 32 + 8 * len → ∃ t, exec (.blkStored final) s = .next t ∧ Failed .starved s t)

/-- R172, R174: a fixed block's header is recorded, the two fixed tables are loaded, nothing more is consumed and nothing
can fail. The model does phase FIXED whole in the header's step and clears its own register `matchLen` for the body
(entry 5). -/
def Obligations.FixedBlock : Prop :=
  ∀ (final : Bool) (s : State), ∃ t, exec (.blkFixed final) s = .next t ∧ Kept s t ∧
    SameMem .out s t ∧ SameMem .pix s t ∧ t.phase = .body ∧
    Huff.build fixLL 288 = some t.work.llt ∧ Huff.build fixD 32 = some t.work.dt ∧
    t.work = { s.work with
      bfinal := final, btype := 1, llt := t.work.llt, dt := t.work.dt, matchLen := none }

/-- R172, R175 to R178: the counts of a dynamic header, the code-length-code lengths in CLORDER's order, their table,
and LEN_I. The 14 bits of the counts and 3 bits for each of HCLEN lengths are consumed. The model's step ends before the
first length (entry 5). -/
def Obligations.DynamicHeader : Prop :=
  ∀ (final : Bool) (s : State) (c : Huff),
    let p := s.work.bitPos
    let hclen := s.bits (p + 10) 4 + 4
    let lens := (List.range 19).map fun y =>
      if clOrder.idxOf y < hclen then s.bits (p + 14 + 3 * clOrder.idxOf y) 3 else 0
    p + 14 + 3 * hclen ≤ s.work.endBit → Huff.build lens 19 = some c →
    ∃ t, exec (.blkDynamic final) s = .next t ∧ Kept s t ∧ SameMem .out s t ∧ SameMem .pix s t ∧
      t.phase = .dynhdr ∧ t.work.clLens.toList.map BitVec.toNat = lens ∧
      t.work = { s.work.withCursor (p + 14 + 3 * hclen) t.work with
        bfinal := final, btype := 2, hlit := s.bits p 5 + 257, hdist := s.bits (p + 5) 5 + 1, hclen := hclen,
        clLens := t.work.clLens, clt := c, lenI := 0 } ∧
      (WindowOk s → WindowOk t)

/-- R175 to R177: how a dynamic header's first three parts fail. -/
def Obligations.DynamicFailures : Prop :=
  ∀ (final : Bool) (s : State),
    let p := s.work.bitPos
    let hclen := s.bits (p + 10) 4 + 4
    let lens := (List.range 19).map fun y =>
      if clOrder.idxOf y < hclen then s.bits (p + 14 + 3 * clOrder.idxOf y) 3 else 0
    (s.work.endBit < p + 14 + 3 * hclen →
      ∃ t, exec (.blkDynamic final) s = .next t ∧ Failed .starved s t) ∧
    (p + 14 + 3 * hclen ≤ s.work.endBit → Huff.build lens 19 = none →
      ∃ t, exec (.blkDynamic final) s = .next t ∧ Failed .table s t)

/-- R184, R286, R287, R330, R331: the reserved elements. Each ends the run with the cause its rule names and writes
nothing to OUT; the block header's two fields are recorded first (R172). That the model keeps OUT, PIX and the working
registers after a failure is entry 13. -/
def Obligations.ReservedElements : Prop :=
  ∀ s : State,
    (∀ final, ∃ t, exec (.blkReserved final) s = .next t ∧ Failed .blockType s t ∧ SameMem .out s t ∧
      SameMem .pix s t ∧ t.work = { s.work with bfinal := final, btype := 3 }) ∧
    ∀ i ∈ [Instr.ll286, .ll287, .dist30, .dist31], ∃ t, exec i s = .next t ∧ Failed .badSymbol s t ∧
      SameMem .out s t ∧ SameMem .pix s t ∧ t.work = s.work

/-! ### Code-length elements -/

/-- R178 to R182: a code-length element that does not reach the last length, one model step each (entry 5). `N` is
HLIT + HDIST. -/
def Obligations.CodeLengths : Prop :=
  ∀ s : State,
    let p := s.work.bitPos
    let N := s.work.hlit + s.work.hdist
    let go (i : Instr) (r : Nat) (x : BitVec 4) (n : Nat) : Prop :=
      p + n ≤ s.work.endBit ∨ n = 0 → s.work.lenI + r < N →
        ∃ t, exec i s = .next t ∧ LensSet s t r x n ∧ t.phase = s.phase ∧ t.work.llt = s.work.llt ∧
          t.work.dt = s.work.dt ∧ t.work.matchLen = s.work.matchLen
    (∀ len, len < 16 → go (.clLen len) 1 (BitVec.ofNat 4 len) 0) ∧
    (1 ≤ s.work.lenI → go .clRep16 (3 + s.bits p 2) (s.work.lens[s.work.lenI - 1]?.getD 0) 2) ∧
    go .clZero17 (3 + s.bits p 3) 0 3 ∧
    go .clZero18 (11 + s.bits p 7) 0 7

/-- R183: the element that sets the last length builds LLT from the first HLIT lengths and DT from the HDIST after
them, and enters the body; when either set is over-subscribed the run ends with TABLE. One model step each (entry 5). -/
def Obligations.CodeLengthsEnd : Prop :=
  ∀ s : State,
    let p := s.work.bitPos
    let N := s.work.hlit + s.work.hdist
    let go (i : Instr) (r : Nat) (x : BitVec 4) (n : Nat) : Prop :=
      let lit := (lensAfter s r x).take s.work.hlit
      let dist := ((lensAfter s r x).drop s.work.hlit).take s.work.hdist
      p + n ≤ s.work.endBit ∨ n = 0 → s.work.lenI + r = N →
        (∀ a b, Huff.build lit s.work.hlit = some a → Huff.build dist s.work.hdist = some b →
          ∃ t, exec i s = .next t ∧ LensSet s t r x n ∧ t.phase = .body ∧ t.work.llt = a ∧ t.work.dt = b ∧
            t.work.matchLen = none) ∧
        (Huff.build lit s.work.hlit = none ∨ Huff.build dist s.work.hdist = none →
          ∃ t, exec i s = .next t ∧ Failed .table s t)
    (∀ len, len < 16 → go (.clLen len) 1 (BitVec.ofNat 4 len) 0) ∧
    (1 ≤ s.work.lenI → go .clRep16 (3 + s.bits p 2) (s.work.lens[s.work.lenI - 1]?.getD 0) 2) ∧
    go .clZero17 (3 + s.bits p 3) 0 3 ∧
    go .clZero18 (11 + s.bits p 7) 0 7

/-- R180 to R182, R417 (d): how a repeat fails: no previous length (before its extra bits are read), STARVED, a run
past N. -/
def Obligations.CodeLengthFailures : Prop :=
  ∀ s : State,
    let p := s.work.bitPos
    let N := s.work.hlit + s.work.hdist
    (s.work.lenI = 0 → ∃ t, exec .clRep16 s = .next t ∧ Failed .clRepeat s t) ∧
    ∀ row ∈ [(Instr.clRep16, 3, 2), (.clZero17, 3, 3), (.clZero18, 11, 7)],
      row.1 ≠ .clRep16 ∨ s.work.lenI ≠ 0 →
        (s.work.endBit < p + row.2.2 → ∃ t, exec row.1 s = .next t ∧ Failed .starved s t) ∧
        (p + row.2.2 ≤ s.work.endBit → N < s.work.lenI + (row.2.1 + s.bits p row.2.2) →
          ∃ t, exec row.1 s = .next t ∧ Failed .clRepeat s t)

/-! ### The block body -/

/-- R250, R64: a literal is appended to OUT, or refused when the buffer is full (OUT is then kept: R413, entry 13). -/
def Obligations.LiteralAppended : Prop :=
  ∀ (byte : Byte) (s : State),
    (s.work.outPos + 1 ≤ s.work.cap → ∃ t, exec (.lit byte) s = .next t ∧ Kept s t ∧ t.phase = s.phase ∧
      t.work = { s.work with outPos := s.work.outPos + 1 } ∧ t.read .out s.work.outPos = byte ∧
      SameOutside .out s.work.outPos 1 s t ∧ SameMem .pix s t) ∧
    (s.work.cap < s.work.outPos + 1 → ∃ t, exec (.lit byte) s = .next t ∧ Failed .outCapacity s t ∧
      SameMem .out s t)

/-- R256, R185: the end of a block consumes and writes nothing; BFINAL says which phase follows. -/
def Obligations.EndOfBlock : Prop :=
  ∀ s : State, ∃ t, exec .eob s = .next t ∧ Kept s t ∧ SameMem .out s t ∧ SameMem .pix s t ∧ t.work = s.work ∧
    t.phase = if s.work.bfinal = true then .infend else .blkhdr

/-- R201, R257 to R285: each length symbol's base and extra bits, written out (rows 258 to 284 are general
knowledge in the spec, entry 20). The length is the model's register `matchLen` until the distance symbol comes
(entry 5). -/
def Obligations.LengthSymbols : Prop :=
  ∀ s : State, ∀ row ∈
      [ (Instr.len257, 3, 0), (.len258, 4, 0), (.len259, 5, 0), (.len260, 6, 0), (.len261, 7, 0),
        (.len262, 8, 0), (.len263, 9, 0), (.len264, 10, 0), (.len265, 11, 1), (.len266, 13, 1),
        (.len267, 15, 1), (.len268, 17, 1), (.len269, 19, 2), (.len270, 23, 2), (.len271, 27, 2),
        (.len272, 31, 2), (.len273, 35, 3), (.len274, 43, 3), (.len275, 51, 3), (.len276, 59, 3),
        (.len277, 67, 4), (.len278, 83, 4), (.len279, 99, 4), (.len280, 115, 4), (.len281, 131, 5),
        (.len282, 163, 5), (.len283, 195, 5), (.len284, 227, 5), (.len285, 258, 0) ],
    (s.work.bitPos + row.2.2 ≤ s.work.endBit →
      ∃ t, exec row.1 s = .next t ∧ Kept s t ∧ SameMem .out s t ∧ SameMem .pix s t ∧ t.phase = s.phase ∧
        t.work = { s.work.withCursor (s.work.bitPos + row.2.2) t.work with
          matchLen := some (row.2.1 + s.bits s.work.bitPos row.2.2) } ∧
        (WindowOk s → WindowOk t)) ∧
    (s.work.endBit < s.work.bitPos + row.2.2 → ∃ t, exec row.1 s = .next t ∧ Failed .starved s t)

/-- R202 to R205, R300 to R329: each distance symbol's base and extra bits, written out, and the copy of a match whose
length is known (entry 5): byte `i` of the copy is the byte `distance` back, repeated when the match overlaps itself.
Rows 1 to 28 are general knowledge in the spec (entry 20). -/
def Obligations.DistanceSymbols : Prop :=
  ∀ (s : State) (length : Nat), s.work.matchLen = some length → ∀ row ∈
      [ (Instr.dist0, 1, 0), (.dist1, 2, 0), (.dist2, 3, 0), (.dist3, 4, 0), (.dist4, 5, 1), (.dist5, 7, 1),
        (.dist6, 9, 2), (.dist7, 13, 2), (.dist8, 17, 3), (.dist9, 25, 3), (.dist10, 33, 4),
        (.dist11, 49, 4), (.dist12, 65, 5), (.dist13, 97, 5), (.dist14, 129, 6), (.dist15, 193, 6),
        (.dist16, 257, 7), (.dist17, 385, 7), (.dist18, 513, 8), (.dist19, 769, 8), (.dist20, 1025, 9),
        (.dist21, 1537, 9), (.dist22, 2049, 10), (.dist23, 3073, 10), (.dist24, 4097, 11),
        (.dist25, 6145, 11), (.dist26, 8193, 12), (.dist27, 12289, 12), (.dist28, 16385, 13),
        (.dist29, 24577, 13) ],
    let distance := row.2.1 + s.bits s.work.bitPos row.2.2
    s.work.bitPos + row.2.2 ≤ s.work.endBit → distance ≤ s.work.outPos → s.work.outPos + length ≤ s.work.cap →
      ∃ t, exec row.1 s = .next t ∧ Kept s t ∧ SameMem .pix s t ∧ t.phase = s.phase ∧
        t.work = { s.work.withCursor (s.work.bitPos + row.2.2) t.work with
          outPos := s.work.outPos + length, matchLen := none } ∧
        (∀ i, i < length → t.read .out (s.work.outPos + i) =
          s.read .out (s.work.outPos - distance + i % distance)) ∧
        SameOutside .out s.work.outPos length s t ∧ (WindowOk s → WindowOk t)

/-- R203, R417 (c): how a match fails after its length: STARVED in the distance's extra bits, DIST_RANGE,
OUT_CAPACITY, in this order, and no byte of it is written (R413; that the model keeps OUT after a failure is entry 13,
the rows' numbers are entry 20, the two steps of a match entry 5). -/
def Obligations.MatchFailures : Prop :=
  ∀ (s : State) (length : Nat), s.work.matchLen = some length → ∀ row ∈
      [ (Instr.dist0, 1, 0), (.dist1, 2, 0), (.dist2, 3, 0), (.dist3, 4, 0), (.dist4, 5, 1), (.dist5, 7, 1),
        (.dist6, 9, 2), (.dist7, 13, 2), (.dist8, 17, 3), (.dist9, 25, 3), (.dist10, 33, 4),
        (.dist11, 49, 4), (.dist12, 65, 5), (.dist13, 97, 5), (.dist14, 129, 6), (.dist15, 193, 6),
        (.dist16, 257, 7), (.dist17, 385, 7), (.dist18, 513, 8), (.dist19, 769, 8), (.dist20, 1025, 9),
        (.dist21, 1537, 9), (.dist22, 2049, 10), (.dist23, 3073, 10), (.dist24, 4097, 11),
        (.dist25, 6145, 11), (.dist26, 8193, 12), (.dist27, 12289, 12), (.dist28, 16385, 13),
        (.dist29, 24577, 13) ],
    let distance := row.2.1 + s.bits s.work.bitPos row.2.2
    (s.work.endBit < s.work.bitPos + row.2.2 →
      ∃ t, exec row.1 s = .next t ∧ Failed .starved s t ∧ SameMem .out s t) ∧
    (s.work.bitPos + row.2.2 ≤ s.work.endBit → s.work.outPos < distance →
      ∃ t, exec row.1 s = .next t ∧ Failed .distRange s t ∧ SameMem .out s t) ∧
    (s.work.bitPos + row.2.2 ≤ s.work.endBit → distance ≤ s.work.outPos → s.work.cap < s.work.outPos + length →
      ∃ t, exec row.1 s = .next t ∧ Failed .outCapacity s t ∧ SameMem .out s t)

/-- R200: one step of phase BODY as the spec writes it is the model's next step, or, for a match, its next two steps,
the length symbol's and the distance symbol's (entry 5). -/
def Obligations.BodyStepRefined : Prop :=
  ∀ s : State, s.host = [] → s.runState = .busy → s.phase = .body → s.work.matchLen = none →
    step s = bodyStep s ∨
      ∃ u, step s = .next u ∧ u.host = [] ∧ u.runState = .busy ∧ u.phase = .body ∧ u.work.matchLen ≠ none ∧
        step u = bodyStep s

/-! ### The scanline reconstructor -/

/-- R342 to R347, R351, R352: the five filter types, each a row reconstructed in place. The last row is told by HEIGHT in
CHECK's working copy (R20, entry 12). -/
def Obligations.FilterRows : Prop :=
  ∀ s : State, 1 ≤ s.work.bpp →
    (∃ t, exec .filtNone s = .next t ∧ RowReconstructed (fun _ _ _ => 0) s t) ∧
    (∃ t, exec .filtSub s = .next t ∧ RowReconstructed (fun a _ _ => a) s t) ∧
    (∃ t, exec .filtUp s = .next t ∧ RowReconstructed (fun _ b _ => b) s t) ∧
    (∃ t, exec .filtAvg s = .next t ∧ RowReconstructed (fun a b _ => (a + b) / 2) s t) ∧
    (∃ t, exec .filtPaeth s = .next t ∧ RowReconstructed paeth s t)

/-- R348: the Paeth predictor is that one of its operands nearest to `a + b - c` as integers, ties broken in the order
a, b, c. -/
def Obligations.PaethNearest : Prop :=
  ∀ a b c : Nat,
    let p : Int := (a : Int) + b - c
    ((p - a).natAbs ≤ (p - b).natAbs → (p - a).natAbs ≤ (p - c).natAbs → paeth a b c = a) ∧
    ((p - b).natAbs < (p - a).natAbs → (p - b).natAbs ≤ (p - c).natAbs → paeth a b c = b) ∧
    ((p - c).natAbs < (p - a).natAbs → (p - c).natAbs < (p - b).natAbs → paeth a b c = c) ∧
    ∀ x ∈ [a, b, c], (p - paeth a b c).natAbs ≤ (p - x).natAbs

/-- R343, R345, R347: on row 0 Paeth does what Sub does, and Up what None does; None leaves the row as it is. -/
def Obligations.FirstRow : Prop :=
  ∀ s : State, 1 ≤ s.work.bpp →
    (s.work.row = 0 → exec .filtPaeth s = exec .filtSub s ∧ ∃ t, exec .filtUp s = .next t ∧ SameMem .out s t) ∧
    ∃ t, exec .filtNone s = .next t ∧ SameMem .out s t

/-! ### The pixel assembler -/

/-- R362, R363, R372: a row of grayscale pixels, with the colour key. That OUT and the working
registers keep their values when the last row ends the run is entry 13. -/
def Obligations.GrayPixels : Prop :=
  ∀ s : State, ∃ t, exec .pixGray8 s = .next t ∧ RowAssembled (fun x =>
    let g := s.read .out (s.work.rowAddr s.work.row + x)
    (g, g, g, if s.work.cfg.trnsPresent = true ∧ g = s.work.cfg.keyR then 0 else 255)) s t

/-- R362, R364, R372: a row of truecolor pixels, with the colour key. That OUT and the working
registers keep their values when the last row ends the run is entry 13. -/
def Obligations.RgbPixels : Prop :=
  ∀ s : State, ∃ t, exec .pixRgb8 s = .next t ∧ RowAssembled (fun x =>
    let at' := s.work.rowAddr s.work.row + 3 * x
    let r := s.read .out at'
    let g := s.read .out (at' + 1)
    let b := s.read .out (at' + 2)
    (r, g, b,
      if s.work.cfg.trnsPresent = true ∧ r = s.work.cfg.keyR ∧ g = s.work.cfg.keyG ∧ b = s.work.cfg.keyB then 0
      else 255)) s t

/-- R362, R370, R371: rows of pixels that carry their own alpha. That OUT and the working
registers keep their values when the last row ends the run is entry 13. -/
def Obligations.AlphaPixels : Prop :=
  ∀ s : State,
    (∃ t, exec .pixGa8 s = .next t ∧ RowAssembled (fun x =>
      let at' := s.work.rowAddr s.work.row + 2 * x
      (s.read .out at', s.read .out at', s.read .out at', s.read .out (at' + 1))) s t) ∧
    ∃ t, exec .pixRgba8 s = .next t ∧ RowAssembled (fun x =>
      let at' := s.work.rowAddr s.work.row + 4 * x
      (s.read .out at', s.read .out (at' + 1), s.read .out (at' + 2), s.read .out (at' + 3))) s t

/-- R362, R365 to R369, R373, R374: a row of indexed pixels whose indices all lie below PLTE_LEN. That OUT and the
working registers keep their values when the last row ends the run is entry 13. -/
def Obligations.IndexedPixels : Prop :=
  ∀ s : State, ∀ row ∈ [(Instr.pixIdx1, 1), (.pixIdx2, 2), (.pixIdx4, 4), (.pixIdx8, 8)],
    (∀ x, x < s.work.cfg.width.toNat → s.indexAt row.2 s.work.row x < s.work.cfg.palLen) →
    ∃ t, exec row.1 s = .next t ∧
      RowAssembled (fun x => s.palettePixelAt (s.indexAt row.2 s.work.row x)) s t

/-- R374, R413: an index at or above PLTE_LEN ends the run; nothing of that pixel, and of no later one, is written
(that the model keeps OUT and PIX after a failure is entry 13). -/
def Obligations.PaletteFailure : Prop :=
  ∀ s : State, ∀ row ∈ [(Instr.pixIdx1, 1), (.pixIdx2, 2), (.pixIdx4, 4), (.pixIdx8, 8)], ∀ j,
    j < s.work.cfg.width.toNat → s.work.cfg.palLen ≤ s.indexAt row.2 s.work.row j →
    (∀ x, x < j → s.indexAt row.2 s.work.row x < s.work.cfg.palLen) →
    ∃ t, exec row.1 s = .next t ∧ Failed .paletteIndex s t ∧ SameMem .out s t ∧
      SameOutside .pix (4 * (s.work.row * s.work.cfg.width.toNat)) (4 * j) s t

/-! ### Commands, registers and phases without an element -/

/-- R391, R396: START outside BUSY begins a run with the inputs and configuration as they stand; while BUSY it is
ignored. What the working registers, OUT and PIX hold after it is free (entries 2 and 4) and not said. -/
def Obligations.StartRun : Prop :=
  ∀ s : State,
    (s.runState ≠ .busy → ∃ t, exec .start s = .next t ∧ t.runState = .busy ∧ t.errKind = .none ∧
      t.errCause = .none ∧ t.phase = .check ∧ t.cfg = s.cfg ∧ t.params = s.params ∧ t.host = s.host ∧
      t.hostData = s.hostData ∧ SameMem .inp s t ∧ SameMem .plte s t ∧ SameMem .trns s t) ∧
    (s.runState = .busy → exec .start s = .next s)

/-- R393, R450, R55: RESET in any state, and the hardware reset, which does the same. The host's own fields and the
machine's sizes are not the engine's (entry 3). -/
def Obligations.ResetEngine : Prop :=
  ∀ s : State,
    (∃ t, exec .reset s = .next t ∧ t.runState = .idle ∧ t.errKind = .none ∧ t.errCause = .none ∧ t.phase = .idle ∧
      t.cfg = ⟨0, 0, 0, 0, 0, 0, 0⟩ ∧ t.params = s.params ∧ t.host = s.host ∧ t.hostData = s.hostData) ∧
    ∀ rest, s.host = .hardReset :: rest → step s = exec .reset { s with host := rest }

/-- R55: what the host reads after reset is 0 at every offset, and the engine is in phase IDLE. -/
def Obligations.ResetValues : Prop :=
  State.reset.runState = .idle ∧ State.reset.phase = .idle ∧ ∀ off, State.reset.regRead off = 0

/-- R20 to R24, R410, R411: what STATUS, ERR_KIND and ERR_CAUSE read as, with the high nibble of a cause equal to its
kind; CTRL reads 0. -/
def Obligations.StatusReadback : Prop :=
  ∀ s : State,
    s.regRead 0 = 0 ∧
    s.regRead 4 = (match s.runState with | .idle => 0 | .busy => 1 | .done => 2 | .failed => 3) ∧
    s.regRead 8 = (match s.errKind with | .none => 0 | .format => 1 | .stream => 2 | .truncated => 3 | .alloc => 4) ∧
    (s.errKind = s.errCause.kind → s.regRead 12 >>> 4 = s.regRead 8) ∧
    ∀ row ∈ [(Cause.none, 0x00), (.dimension, 0x10), (.colorType, 0x11), (.depth, 0x12), (.noPalette, 0x13),
        (.descriptor, 0x14), (.filterType, 0x15), (.paletteIndex, 0x16), (.zlibMethod, 0x20), (.zlibFdict, 0x21),
        (.blockType, 0x22), (.storedLen, 0x23), (.table, 0x24), (.badCode, 0x25), (.clRepeat, 0x26),
        (.badSymbol, 0x27), (.distRange, 0x28), (.outCapacity, 0x29), (.shortOutput, 0x2A), (.zlibShort, 0x30),
        (.starved, 0x31), (.inSize, 0x40), (.outSize, 0x41), (.pixSize, 0x42)],
      s.errCause = row.1 → s.regRead 12 = row.2

/-- R32, R396: while BUSY a register write other than CTRL, and a START, change nothing but the host's own list. -/
def Obligations.BusyIgnores : Prop :=
  ∀ (s : State) (off : Nat) (v : Word) (rest : List HostOp), s.runState = .busy →
    s.host = .regWrite off v :: rest → (off ≠ 0 ∨ v.getLsbD 1 = false) → step s = .next { s with host := rest }

/-- R20, R25 to R31: each configuration register keeps the bits it has and reads 0 elsewhere; a write reaches no other
register; an offset without a register reads 0, and it and the read-only registers ignore writes. CTRL, offset 0, is a
command port, whose writes are StepRunsElement's and HostAccesses'. -/
def Obligations.RegisterFields : Prop :=
  ∀ (s : State) (off : Nat) (v : Word), s.runState ≠ .busy →
    (∀ row ∈ [(0x10, 0xFFFFFFFF#32), (0x14, 0xFFFFFFFF), (0x18, 0xFFFFFFFF), (0x1C, 0xFFFF), (0x20, 0x1FF),
        (0x24, 0x101FF), (0x28, 0xFFFFFF)],
      off = row.1 → (s.regWrite off v).regRead off = v &&& row.2) ∧
    (off ≠ 0 → ∀ off', off' ≠ off → (s.regWrite off v).regRead off' = s.regRead off') ∧
    (off ∉ [0x00, 0x10, 0x14, 0x18, 0x1C, 0x20, 0x24, 0x28] → s.regWrite off v = s) ∧
    (off ∉ [0x04, 0x08, 0x0C, 0x10, 0x14, 0x18, 0x1C, 0x20, 0x24, 0x28] → s.regRead off = 0)

/-- R11, R21, R32, R68, R70, R71, R390: what each host access does that is no command. Outside BUSY the host owns the
memories; while BUSY an access to one is refused (entry 7); a register read is always allowed and changes nothing of the
engine; a CTRL write of neither command bit does nothing, in any state; a slot the host leaves to the engine (entry 6)
passes with nothing done outside BUSY (entry 14). -/
def Obligations.HostAccesses : Prop :=
  ∀ (s : State) (rest : List HostOp),
    (s.host = .wait :: rest → s.runState ≠ .busy → step s = .next { s with host := rest }) ∧
    (∀ v, s.host = .regWrite 0 v :: rest → v.getLsbD 0 = false → v.getLsbD 1 = false →
      step s = .next { s with host := rest }) ∧
    (∀ off, s.host = .regRead off :: rest → step s = .next { s with host := rest, hostData := s.regRead off }) ∧
    (∀ off v, s.host = .regWrite off v :: rest → off ≠ 0 →
      step s = .next ({ s with host := rest }.regWrite off v)) ∧
    (∀ sp a b, s.host = .memWrite sp a b :: rest →
      (s.runState = .busy → step s = .refused .hostWhileBusy) ∧
      (s.runState ≠ .busy → s.size sp ≤ a → step s = .fault .hostAddress) ∧
      (s.runState ≠ .busy → a < s.size sp → ∃ t, step s = .next t ∧ t.host = rest ∧ t.cfg = s.cfg ∧
        t.phase = s.phase ∧ t.work = s.work ∧ SameStatus s t ∧
        ∀ sp' x, t.read sp' x = if sp' = sp ∧ x = a then b else s.read sp' x)) ∧
    ∀ sp a, s.host = .memRead sp a :: rest →
      (s.runState = .busy → step s = .refused .hostWhileBusy) ∧
      (s.runState ≠ .busy → s.size sp ≤ a → step s = .fault .hostAddress) ∧
      (s.runState ≠ .busy → a < s.size sp →
        step s = .next { s with host := rest, hostData := (s.read sp a).setWidth 32 })

/-- R392, R416, R340, R360, R361: phase CHECK makes its tests in this order, and computes the geometry when they all
pass. The copy of the configuration registers is R20's (that CHECK makes it when its tests pass is entry 12). The numbers
of the colour types are general knowledge in the spec (entry 20). -/
def Obligations.CheckOrder : Prop :=
  ∀ s u : State, EngineTurn s u → u.runState = .busy → u.phase = .check →
    let W := u.cfg.width.toNat
    let H := u.cfg.height.toNat
    let ct := u.cfg.ctype
    let d := u.cfg.depth
    let bits := if ct = 2 then 3 * d else if ct = 4 then 2 * d else if ct = 6 then 4 * d else d
    let rb := (W * bits + 7) / 8
    ∃ t, step s = .next t ∧
      if u.params.inMemBytes < u.cfg.inLen.toNat then Failed .inSize u t
      else if W = 0 ∨ H = 0 then Failed .dimension u t
      else if ct ∉ [0, 2, 3, 4, 6] then Failed .colorType u t
      else if (ct, d) ∉ [(0, 8), (2, 8), (3, 1), (3, 2), (3, 4), (3, 8), (4, 8), (6, 8)] then Failed .depth u t
      else if ct = 3 ∧ u.cfg.palLen = 0 then Failed .noPalette u t
      else if 256 < u.cfg.palLen ∨ 256 < u.cfg.trnsLen then Failed .descriptor u t
      else if u.params.outMemBytes < H * (1 + rb) then Failed .outSize u t
      else if u.params.pixMemBytes < 4 * W * H then Failed .pixSize u t
      else Kept u t ∧ SameMem .out u t ∧ SameMem .pix u t ∧ t.phase = .zhdr ∧
        t.work = { u.work with
          cfg := u.cfg, bitsPP := bits, rowBytes := rb, bpp := max 1 ((bits + 7) / 8), cap := H * (1 + rb) }

/-- R186: the end of inflation. -/
def Obligations.InflateEnd : Prop :=
  ∀ s u : State, EngineTurn s u → u.runState = .busy → u.phase = .infend → ∃ t, step s = .next t ∧
    if u.work.outPos ≠ u.work.cap then Failed .shortOutput u t
    else Kept u t ∧ SameMem .out u t ∧ SameMem .pix u t ∧ t.phase = .defilter ∧ t.work = { u.work with row := 0 }

/-! ### The whole machine -/

/-- Every step keeps every memory in its canonical form. -/
def Obligations.MemoriesKept : Prop := ∀ s t : State, MemInv s → step s = .next t → MemInv t

/-- R22 to R24, R43, R412: every step keeps STATUS, PHASE, ERR_KIND and ERR_CAUSE in agreement: PHASE is IDLE exactly
outside BUSY, the kind is the cause's, and there is a cause exactly in FAILED. That STORED and FIXED do not stand
between steps is entry 5. -/
def Obligations.StatusKept : Prop := ∀ s t : State, StatusInv s → step s = .next t → StatusInv t

/-- R20: the bits a register does not have stay 0. -/
def Obligations.RegistersKept : Prop := ∀ s t : State, RegInv s → step s = .next t → RegInv t

/-- R36 to R39, R63 to R66: every step keeps the whole invariant: the cursor stays inside the data, OUT_POS inside CAP,
every access inside its memory, and no byte of OUT is used that this run has not written. It holds between the model's
own steps (entry 5), says that CHECK's copy agrees with the registers (entry 12), and takes the colour types' numbers
from entry 20. -/
def Obligations.InvKept : Prop := ∀ s t : State, Inv s → step s = .next t → Inv t

/-- The machine after reset meets the invariant. -/
def Obligations.ResetInv : Prop := Inv State.reset

/-- R22, R390: the only steps that change STATUS.STATE: START, the end of the last row, `raise`, and reset. Commands come
from the host's list (entry 6). -/
def Obligations.StateTransitions : Prop :=
  ∀ s t : State, step s = .next t → t.runState ≠ s.runState →
    (s.runState ≠ .busy ∧ t.runState = .busy ∧ ∃ v rest, s.host = .regWrite 0 v :: rest ∧
      v.getLsbD 1 = false ∧ v.getLsbD 0 = true) ∨
    (s.runState = .busy ∧ t.runState = .done ∧ s.phase = .assemble ∧ s.work.row + 1 = s.work.cfg.height.toNat) ∨
    (s.runState = .busy ∧ t.runState = .failed ∧ t.errCause ≠ .none) ∨
    (t.runState = .idle ∧ ∃ op rest, s.host = op :: rest ∧
      (op = .hardReset ∨ ∃ v : Word, op = .regWrite 0 v ∧ v.getLsbD 1 = true))

/-- R395, R412, R20, R396: the engine never changes a configuration register, IN, PLTE or TRNS, whatever its step does,
and it reads the configuration registers in phase CHECK only: in every other phase its step is the same whatever they
hold. -/
def Obligations.InputsKept : Prop :=
  ∀ s u t : State, EngineTurn s u → u.runState = .busy → step s = .next t → SameInputs u t ∧
    (u.phase ≠ .check → ∀ c : Cfg, step { s with cfg := c } = .next { t with cfg := c })

/-- R411, R415: the causes that can end a run in each phase, which is the order they are reported in. A block header's
step takes in the stored block, or a dynamic header up to its first length (entry 5). -/
def Obligations.CausesByPhase : Prop :=
  ∀ s u t : State, EngineTurn s u → Inv s → s.runState = .busy → step s = .next t → t.runState = .failed →
    (s.phase = .check ∧ t.errCause ∈
      [.inSize, .dimension, .colorType, .depth, .noPalette, .descriptor, .outSize, .pixSize]) ∨
    (s.phase = .zhdr ∧ t.errCause ∈ [.zlibShort, .zlibMethod, .zlibFdict]) ∨
    (s.phase = .blkhdr ∧ t.errCause ∈ [.starved, .blockType, .storedLen, .outCapacity, .table]) ∨
    (s.phase = .dynhdr ∧ t.errCause ∈ [.badCode, .starved, .clRepeat, .table]) ∨
    (s.phase = .body ∧ t.errCause ∈ [.badCode, .starved, .badSymbol, .distRange, .outCapacity]) ∨
    (s.phase = .infend ∧ t.errCause = .shortOutput) ∨
    (s.phase = .defilter ∧ t.errCause = .filterType) ∨
    (s.phase = .assemble ∧ t.errCause = .paletteIndex)

/-- R394, R420: in a good state the engine always has a step; no fault and no refusal can be met. Outside BUSY, where
R394 gives the engine no step, the next state is the model's own, the same state (entry 14). -/
def Obligations.AlwaysSteps : Prop :=
  ∀ s u : State, Inv s → EngineTurn s u → ∃ t, step s = .next t

/-- R398: every run ends, in DONE or FAILED, within 8 x IN_LEN + 2 x HEIGHT + 3 of the model's steps. -/
def Obligations.RunsEnd : Prop :=
  ∀ s : State, Inv s → s.host = [] → s.runState = .busy →
    ∃ n t, n ≤ 8 * s.cfg.inLen.toNat + 2 * s.cfg.height.toNat + 3 ∧ runSteps n s = .next t ∧
      (t.runState = .done ∨ t.runState = .failed)

/-- R38, R63, R107: no result depends on the four trailer bytes or on anything of IN behind them: with any other
content there, every step of the engine is the same. -/
def Obligations.TrailerUnread : Prop :=
  ∀ (s t : State) (m : List Host.Cell), Inv s → s.host = [] → s.runState = .busy →
    (∀ a, a < 2 ∨ a + 4 < s.cfg.inLen.toNat → (s.withIn m).read .inp a = s.read .inp a) →
    step s = .next t → step (s.withIn m) = .next (t.withIn m)
end

