-- ==== Sys2Proof/Laws/State.lean ====
section
/-! SUPPORT. What each named update does to each field of the state, one lemma per field, so that no proof unfolds a
record update. -/

namespace Sys2Proof.Machine

/-! The bit window's own fields (ACC, NBITS, IN_POS) after a refill are said in Laws/Window.lean. -/

@[simp] theorem raise_runState (c : Cause) (s : State) :
    (raise c s).runState = .failed := rfl

@[simp] theorem raise_errKind (c : Cause) (s : State) :
    (raise c s).errKind = c.kind := rfl

@[simp] theorem raise_errCause (c : Cause) (s : State) :
    (raise c s).errCause = c := rfl

@[simp] theorem raise_cfg (c : Cause) (s : State) :
    (raise c s).cfg = s.cfg := rfl

@[simp] theorem raise_phase (c : Cause) (s : State) :
    (raise c s).phase = .idle := rfl

@[simp] theorem raise_work (c : Cause) (s : State) :
    (raise c s).work = s.work := rfl

@[simp] theorem raise_inMem (c : Cause) (s : State) :
    (raise c s).inMem = s.inMem := rfl

@[simp] theorem raise_outMem (c : Cause) (s : State) :
    (raise c s).outMem = s.outMem := rfl

@[simp] theorem raise_plteMem (c : Cause) (s : State) :
    (raise c s).plteMem = s.plteMem := rfl

@[simp] theorem raise_trnsMem (c : Cause) (s : State) :
    (raise c s).trnsMem = s.trnsMem := rfl

@[simp] theorem raise_pixMem (c : Cause) (s : State) :
    (raise c s).pixMem = s.pixMem := rfl

@[simp] theorem raise_inEpoch (c : Cause) (s : State) :
    (raise c s).inEpoch = s.inEpoch := rfl

@[simp] theorem raise_outEpoch (c : Cause) (s : State) :
    (raise c s).outEpoch = s.outEpoch := rfl

@[simp] theorem raise_params (c : Cause) (s : State) :
    (raise c s).params = s.params := rfl

@[simp] theorem raise_host (c : Cause) (s : State) :
    (raise c s).host = s.host := rfl

@[simp] theorem raise_hostData (c : Cause) (s : State) :
    (raise c s).hostData = s.hostData := rfl

@[simp] theorem blockEnd_runState (s : State) :
    (blockEnd s).runState = s.runState := rfl

@[simp] theorem blockEnd_errKind (s : State) :
    (blockEnd s).errKind = s.errKind := rfl

@[simp] theorem blockEnd_errCause (s : State) :
    (blockEnd s).errCause = s.errCause := rfl

@[simp] theorem blockEnd_cfg (s : State) :
    (blockEnd s).cfg = s.cfg := rfl

@[simp] theorem blockEnd_phase (s : State) :
    (blockEnd s).phase = if s.work.bfinal then .infend else .blkhdr := rfl

@[simp] theorem blockEnd_work (s : State) :
    (blockEnd s).work = s.work := rfl

@[simp] theorem blockEnd_inMem (s : State) :
    (blockEnd s).inMem = s.inMem := rfl

@[simp] theorem blockEnd_outMem (s : State) :
    (blockEnd s).outMem = s.outMem := rfl

@[simp] theorem blockEnd_plteMem (s : State) :
    (blockEnd s).plteMem = s.plteMem := rfl

@[simp] theorem blockEnd_trnsMem (s : State) :
    (blockEnd s).trnsMem = s.trnsMem := rfl

@[simp] theorem blockEnd_pixMem (s : State) :
    (blockEnd s).pixMem = s.pixMem := rfl

@[simp] theorem blockEnd_inEpoch (s : State) :
    (blockEnd s).inEpoch = s.inEpoch := rfl

@[simp] theorem blockEnd_outEpoch (s : State) :
    (blockEnd s).outEpoch = s.outEpoch := rfl

@[simp] theorem blockEnd_params (s : State) :
    (blockEnd s).params = s.params := rfl

@[simp] theorem blockEnd_host (s : State) :
    (blockEnd s).host = s.host := rfl

@[simp] theorem blockEnd_hostData (s : State) :
    (blockEnd s).hostData = s.hostData := rfl

@[simp] theorem enterBody_runState (s : State) :
    (enterBody s).runState = s.runState := rfl

@[simp] theorem enterBody_errKind (s : State) :
    (enterBody s).errKind = s.errKind := rfl

@[simp] theorem enterBody_errCause (s : State) :
    (enterBody s).errCause = s.errCause := rfl

@[simp] theorem enterBody_cfg (s : State) :
    (enterBody s).cfg = s.cfg := rfl

@[simp] theorem enterBody_phase (s : State) :
    (enterBody s).phase = .body := rfl

@[simp] theorem enterBody_inMem (s : State) :
    (enterBody s).inMem = s.inMem := rfl

@[simp] theorem enterBody_outMem (s : State) :
    (enterBody s).outMem = s.outMem := rfl

@[simp] theorem enterBody_plteMem (s : State) :
    (enterBody s).plteMem = s.plteMem := rfl

@[simp] theorem enterBody_trnsMem (s : State) :
    (enterBody s).trnsMem = s.trnsMem := rfl

@[simp] theorem enterBody_pixMem (s : State) :
    (enterBody s).pixMem = s.pixMem := rfl

@[simp] theorem enterBody_inEpoch (s : State) :
    (enterBody s).inEpoch = s.inEpoch := rfl

@[simp] theorem enterBody_outEpoch (s : State) :
    (enterBody s).outEpoch = s.outEpoch := rfl

@[simp] theorem enterBody_params (s : State) :
    (enterBody s).params = s.params := rfl

@[simp] theorem enterBody_host (s : State) :
    (enterBody s).host = s.host := rfl

@[simp] theorem enterBody_hostData (s : State) :
    (enterBody s).hostData = s.hostData := rfl

@[simp] theorem enterBody_work_bitPos (s : State) :
    (enterBody s).work.bitPos = s.work.bitPos := rfl

@[simp] theorem enterBody_work_endBit (s : State) :
    (enterBody s).work.endBit = s.work.endBit := rfl

@[simp] theorem enterBody_work_acc (s : State) :
    (enterBody s).work.acc = s.work.acc := rfl

@[simp] theorem enterBody_work_nbits (s : State) :
    (enterBody s).work.nbits = s.work.nbits := rfl

@[simp] theorem enterBody_work_inPos (s : State) :
    (enterBody s).work.inPos = s.work.inPos := rfl

@[simp] theorem enterBody_work_outPos (s : State) :
    (enterBody s).work.outPos = s.work.outPos := rfl

@[simp] theorem enterBody_work_cap (s : State) :
    (enterBody s).work.cap = s.work.cap := rfl

@[simp] theorem enterBody_work_bitsPP (s : State) :
    (enterBody s).work.bitsPP = s.work.bitsPP := rfl

@[simp] theorem enterBody_work_rowBytes (s : State) :
    (enterBody s).work.rowBytes = s.work.rowBytes := rfl

@[simp] theorem enterBody_work_bpp (s : State) :
    (enterBody s).work.bpp = s.work.bpp := rfl

@[simp] theorem enterBody_work_bfinal (s : State) :
    (enterBody s).work.bfinal = s.work.bfinal := rfl

@[simp] theorem enterBody_work_btype (s : State) :
    (enterBody s).work.btype = s.work.btype := rfl

@[simp] theorem enterBody_work_hlit (s : State) :
    (enterBody s).work.hlit = s.work.hlit := rfl

@[simp] theorem enterBody_work_hdist (s : State) :
    (enterBody s).work.hdist = s.work.hdist := rfl

@[simp] theorem enterBody_work_hclen (s : State) :
    (enterBody s).work.hclen = s.work.hclen := rfl

@[simp] theorem enterBody_work_lenI (s : State) :
    (enterBody s).work.lenI = s.work.lenI := rfl

@[simp] theorem enterBody_work_row (s : State) :
    (enterBody s).work.row = s.work.row := rfl

@[simp] theorem enterBody_work_clLens (s : State) :
    (enterBody s).work.clLens = s.work.clLens := rfl

@[simp] theorem enterBody_work_lens (s : State) :
    (enterBody s).work.lens = s.work.lens := rfl

@[simp] theorem enterBody_work_clt (s : State) :
    (enterBody s).work.clt = s.work.clt := rfl

@[simp] theorem enterBody_work_llt (s : State) :
    (enterBody s).work.llt = s.work.llt := rfl

@[simp] theorem enterBody_work_dt (s : State) :
    (enterBody s).work.dt = s.work.dt := rfl

@[simp] theorem enterBody_work_cfg (s : State) :
    (enterBody s).work.cfg = s.work.cfg := rfl

@[simp] theorem enterBody_work_matchLen (s : State) :
    (enterBody s).work.matchLen = none := rfl

@[simp] theorem blockHeader_runState (f : Bool) (t : BitVec 2) (p : Phase) (s : State) :
    (blockHeader f t p s).runState = s.runState := rfl

@[simp] theorem blockHeader_errKind (f : Bool) (t : BitVec 2) (p : Phase) (s : State) :
    (blockHeader f t p s).errKind = s.errKind := rfl

@[simp] theorem blockHeader_errCause (f : Bool) (t : BitVec 2) (p : Phase) (s : State) :
    (blockHeader f t p s).errCause = s.errCause := rfl

@[simp] theorem blockHeader_cfg (f : Bool) (t : BitVec 2) (p : Phase) (s : State) :
    (blockHeader f t p s).cfg = s.cfg := rfl

@[simp] theorem blockHeader_phase (f : Bool) (t : BitVec 2) (p : Phase) (s : State) :
    (blockHeader f t p s).phase = p := rfl

@[simp] theorem blockHeader_inMem (f : Bool) (t : BitVec 2) (p : Phase) (s : State) :
    (blockHeader f t p s).inMem = s.inMem := rfl

@[simp] theorem blockHeader_outMem (f : Bool) (t : BitVec 2) (p : Phase) (s : State) :
    (blockHeader f t p s).outMem = s.outMem := rfl

@[simp] theorem blockHeader_plteMem (f : Bool) (t : BitVec 2) (p : Phase) (s : State) :
    (blockHeader f t p s).plteMem = s.plteMem := rfl

@[simp] theorem blockHeader_trnsMem (f : Bool) (t : BitVec 2) (p : Phase) (s : State) :
    (blockHeader f t p s).trnsMem = s.trnsMem := rfl

@[simp] theorem blockHeader_pixMem (f : Bool) (t : BitVec 2) (p : Phase) (s : State) :
    (blockHeader f t p s).pixMem = s.pixMem := rfl

@[simp] theorem blockHeader_inEpoch (f : Bool) (t : BitVec 2) (p : Phase) (s : State) :
    (blockHeader f t p s).inEpoch = s.inEpoch := rfl

@[simp] theorem blockHeader_outEpoch (f : Bool) (t : BitVec 2) (p : Phase) (s : State) :
    (blockHeader f t p s).outEpoch = s.outEpoch := rfl

@[simp] theorem blockHeader_params (f : Bool) (t : BitVec 2) (p : Phase) (s : State) :
    (blockHeader f t p s).params = s.params := rfl

@[simp] theorem blockHeader_host (f : Bool) (t : BitVec 2) (p : Phase) (s : State) :
    (blockHeader f t p s).host = s.host := rfl

@[simp] theorem blockHeader_hostData (f : Bool) (t : BitVec 2) (p : Phase) (s : State) :
    (blockHeader f t p s).hostData = s.hostData := rfl

@[simp] theorem blockHeader_work_bitPos (f : Bool) (t : BitVec 2) (p : Phase) (s : State) :
    (blockHeader f t p s).work.bitPos = s.work.bitPos := rfl

@[simp] theorem blockHeader_work_endBit (f : Bool) (t : BitVec 2) (p : Phase) (s : State) :
    (blockHeader f t p s).work.endBit = s.work.endBit := rfl

@[simp] theorem blockHeader_work_acc (f : Bool) (t : BitVec 2) (p : Phase) (s : State) :
    (blockHeader f t p s).work.acc = s.work.acc := rfl

@[simp] theorem blockHeader_work_nbits (f : Bool) (t : BitVec 2) (p : Phase) (s : State) :
    (blockHeader f t p s).work.nbits = s.work.nbits := rfl

@[simp] theorem blockHeader_work_inPos (f : Bool) (t : BitVec 2) (p : Phase) (s : State) :
    (blockHeader f t p s).work.inPos = s.work.inPos := rfl

@[simp] theorem blockHeader_work_outPos (f : Bool) (t : BitVec 2) (p : Phase) (s : State) :
    (blockHeader f t p s).work.outPos = s.work.outPos := rfl

@[simp] theorem blockHeader_work_cap (f : Bool) (t : BitVec 2) (p : Phase) (s : State) :
    (blockHeader f t p s).work.cap = s.work.cap := rfl

@[simp] theorem blockHeader_work_bitsPP (f : Bool) (t : BitVec 2) (p : Phase) (s : State) :
    (blockHeader f t p s).work.bitsPP = s.work.bitsPP := rfl

@[simp] theorem blockHeader_work_rowBytes (f : Bool) (t : BitVec 2) (p : Phase) (s : State) :
    (blockHeader f t p s).work.rowBytes = s.work.rowBytes := rfl

@[simp] theorem blockHeader_work_bpp (f : Bool) (t : BitVec 2) (p : Phase) (s : State) :
    (blockHeader f t p s).work.bpp = s.work.bpp := rfl

@[simp] theorem blockHeader_work_bfinal (f : Bool) (t : BitVec 2) (p : Phase) (s : State) :
    (blockHeader f t p s).work.bfinal = f := rfl

@[simp] theorem blockHeader_work_btype (f : Bool) (t : BitVec 2) (p : Phase) (s : State) :
    (blockHeader f t p s).work.btype = t := rfl

@[simp] theorem blockHeader_work_hlit (f : Bool) (t : BitVec 2) (p : Phase) (s : State) :
    (blockHeader f t p s).work.hlit = s.work.hlit := rfl

@[simp] theorem blockHeader_work_hdist (f : Bool) (t : BitVec 2) (p : Phase) (s : State) :
    (blockHeader f t p s).work.hdist = s.work.hdist := rfl

@[simp] theorem blockHeader_work_hclen (f : Bool) (t : BitVec 2) (p : Phase) (s : State) :
    (blockHeader f t p s).work.hclen = s.work.hclen := rfl

@[simp] theorem blockHeader_work_lenI (f : Bool) (t : BitVec 2) (p : Phase) (s : State) :
    (blockHeader f t p s).work.lenI = s.work.lenI := rfl

@[simp] theorem blockHeader_work_row (f : Bool) (t : BitVec 2) (p : Phase) (s : State) :
    (blockHeader f t p s).work.row = s.work.row := rfl

@[simp] theorem blockHeader_work_clLens (f : Bool) (t : BitVec 2) (p : Phase) (s : State) :
    (blockHeader f t p s).work.clLens = s.work.clLens := rfl

@[simp] theorem blockHeader_work_lens (f : Bool) (t : BitVec 2) (p : Phase) (s : State) :
    (blockHeader f t p s).work.lens = s.work.lens := rfl

@[simp] theorem blockHeader_work_clt (f : Bool) (t : BitVec 2) (p : Phase) (s : State) :
    (blockHeader f t p s).work.clt = s.work.clt := rfl

@[simp] theorem blockHeader_work_llt (f : Bool) (t : BitVec 2) (p : Phase) (s : State) :
    (blockHeader f t p s).work.llt = s.work.llt := rfl

@[simp] theorem blockHeader_work_dt (f : Bool) (t : BitVec 2) (p : Phase) (s : State) :
    (blockHeader f t p s).work.dt = s.work.dt := rfl

@[simp] theorem blockHeader_work_cfg (f : Bool) (t : BitVec 2) (p : Phase) (s : State) :
    (blockHeader f t p s).work.cfg = s.work.cfg := rfl

@[simp] theorem blockHeader_work_matchLen (f : Bool) (t : BitVec 2) (p : Phase) (s : State) :
    (blockHeader f t p s).work.matchLen = s.work.matchLen := rfl

@[simp] theorem windowDrop_runState (n : Nat) (s : State) :
    (windowDrop n s).runState = s.runState := rfl

@[simp] theorem windowDrop_errKind (n : Nat) (s : State) :
    (windowDrop n s).errKind = s.errKind := rfl

@[simp] theorem windowDrop_errCause (n : Nat) (s : State) :
    (windowDrop n s).errCause = s.errCause := rfl

@[simp] theorem windowDrop_cfg (n : Nat) (s : State) :
    (windowDrop n s).cfg = s.cfg := rfl

@[simp] theorem windowDrop_phase (n : Nat) (s : State) :
    (windowDrop n s).phase = s.phase := rfl

@[simp] theorem windowDrop_inMem (n : Nat) (s : State) :
    (windowDrop n s).inMem = s.inMem := rfl

@[simp] theorem windowDrop_outMem (n : Nat) (s : State) :
    (windowDrop n s).outMem = s.outMem := rfl

@[simp] theorem windowDrop_plteMem (n : Nat) (s : State) :
    (windowDrop n s).plteMem = s.plteMem := rfl

@[simp] theorem windowDrop_trnsMem (n : Nat) (s : State) :
    (windowDrop n s).trnsMem = s.trnsMem := rfl

@[simp] theorem windowDrop_pixMem (n : Nat) (s : State) :
    (windowDrop n s).pixMem = s.pixMem := rfl

@[simp] theorem windowDrop_inEpoch (n : Nat) (s : State) :
    (windowDrop n s).inEpoch = s.inEpoch := rfl

@[simp] theorem windowDrop_outEpoch (n : Nat) (s : State) :
    (windowDrop n s).outEpoch = s.outEpoch := rfl

@[simp] theorem windowDrop_params (n : Nat) (s : State) :
    (windowDrop n s).params = s.params := rfl

@[simp] theorem windowDrop_host (n : Nat) (s : State) :
    (windowDrop n s).host = s.host := rfl

@[simp] theorem windowDrop_hostData (n : Nat) (s : State) :
    (windowDrop n s).hostData = s.hostData := rfl

@[simp] theorem windowDrop_work_bitPos (n : Nat) (s : State) :
    (windowDrop n s).work.bitPos = s.work.bitPos := rfl

@[simp] theorem windowDrop_work_endBit (n : Nat) (s : State) :
    (windowDrop n s).work.endBit = s.work.endBit := rfl

@[simp] theorem windowDrop_work_acc (n : Nat) (s : State) :
    (windowDrop n s).work.acc = s.work.acc >>> n := rfl

@[simp] theorem windowDrop_work_nbits (n : Nat) (s : State) :
    (windowDrop n s).work.nbits = s.work.nbits - n := rfl

@[simp] theorem windowDrop_work_inPos (n : Nat) (s : State) :
    (windowDrop n s).work.inPos = s.work.inPos := rfl

@[simp] theorem windowDrop_work_outPos (n : Nat) (s : State) :
    (windowDrop n s).work.outPos = s.work.outPos := rfl

@[simp] theorem windowDrop_work_cap (n : Nat) (s : State) :
    (windowDrop n s).work.cap = s.work.cap := rfl

@[simp] theorem windowDrop_work_bitsPP (n : Nat) (s : State) :
    (windowDrop n s).work.bitsPP = s.work.bitsPP := rfl

@[simp] theorem windowDrop_work_rowBytes (n : Nat) (s : State) :
    (windowDrop n s).work.rowBytes = s.work.rowBytes := rfl

@[simp] theorem windowDrop_work_bpp (n : Nat) (s : State) :
    (windowDrop n s).work.bpp = s.work.bpp := rfl

@[simp] theorem windowDrop_work_bfinal (n : Nat) (s : State) :
    (windowDrop n s).work.bfinal = s.work.bfinal := rfl

@[simp] theorem windowDrop_work_btype (n : Nat) (s : State) :
    (windowDrop n s).work.btype = s.work.btype := rfl

@[simp] theorem windowDrop_work_hlit (n : Nat) (s : State) :
    (windowDrop n s).work.hlit = s.work.hlit := rfl

@[simp] theorem windowDrop_work_hdist (n : Nat) (s : State) :
    (windowDrop n s).work.hdist = s.work.hdist := rfl

@[simp] theorem windowDrop_work_hclen (n : Nat) (s : State) :
    (windowDrop n s).work.hclen = s.work.hclen := rfl

@[simp] theorem windowDrop_work_lenI (n : Nat) (s : State) :
    (windowDrop n s).work.lenI = s.work.lenI := rfl

@[simp] theorem windowDrop_work_row (n : Nat) (s : State) :
    (windowDrop n s).work.row = s.work.row := rfl

@[simp] theorem windowDrop_work_clLens (n : Nat) (s : State) :
    (windowDrop n s).work.clLens = s.work.clLens := rfl

@[simp] theorem windowDrop_work_lens (n : Nat) (s : State) :
    (windowDrop n s).work.lens = s.work.lens := rfl

@[simp] theorem windowDrop_work_clt (n : Nat) (s : State) :
    (windowDrop n s).work.clt = s.work.clt := rfl

@[simp] theorem windowDrop_work_llt (n : Nat) (s : State) :
    (windowDrop n s).work.llt = s.work.llt := rfl

@[simp] theorem windowDrop_work_dt (n : Nat) (s : State) :
    (windowDrop n s).work.dt = s.work.dt := rfl

@[simp] theorem windowDrop_work_cfg (n : Nat) (s : State) :
    (windowDrop n s).work.cfg = s.work.cfg := rfl

@[simp] theorem windowDrop_work_matchLen (n : Nat) (s : State) :
    (windowDrop n s).work.matchLen = s.work.matchLen := rfl

@[simp] theorem refill1_runState (s : State) :
    (refill1 s).runState = s.runState := by
  unfold refill1; split <;> rfl

@[simp] theorem refill1_errKind (s : State) :
    (refill1 s).errKind = s.errKind := by
  unfold refill1; split <;> rfl

@[simp] theorem refill1_errCause (s : State) :
    (refill1 s).errCause = s.errCause := by
  unfold refill1; split <;> rfl

@[simp] theorem refill1_cfg (s : State) :
    (refill1 s).cfg = s.cfg := by
  unfold refill1; split <;> rfl

@[simp] theorem refill1_phase (s : State) :
    (refill1 s).phase = s.phase := by
  unfold refill1; split <;> rfl

@[simp] theorem refill1_inMem (s : State) :
    (refill1 s).inMem = s.inMem := by
  unfold refill1; split <;> rfl

@[simp] theorem refill1_outMem (s : State) :
    (refill1 s).outMem = s.outMem := by
  unfold refill1; split <;> rfl

@[simp] theorem refill1_plteMem (s : State) :
    (refill1 s).plteMem = s.plteMem := by
  unfold refill1; split <;> rfl

@[simp] theorem refill1_trnsMem (s : State) :
    (refill1 s).trnsMem = s.trnsMem := by
  unfold refill1; split <;> rfl

@[simp] theorem refill1_pixMem (s : State) :
    (refill1 s).pixMem = s.pixMem := by
  unfold refill1; split <;> rfl

@[simp] theorem refill1_inEpoch (s : State) :
    (refill1 s).inEpoch = s.inEpoch := by
  unfold refill1; split <;> rfl

@[simp] theorem refill1_outEpoch (s : State) :
    (refill1 s).outEpoch = s.outEpoch := by
  unfold refill1; split <;> rfl

@[simp] theorem refill1_params (s : State) :
    (refill1 s).params = s.params := by
  unfold refill1; split <;> rfl

@[simp] theorem refill1_host (s : State) :
    (refill1 s).host = s.host := by
  unfold refill1; split <;> rfl

@[simp] theorem refill1_hostData (s : State) :
    (refill1 s).hostData = s.hostData := by
  unfold refill1; split <;> rfl

@[simp] theorem refill1_work_bitPos (s : State) :
    (refill1 s).work.bitPos = s.work.bitPos := by
  unfold refill1; split <;> rfl

@[simp] theorem refill1_work_endBit (s : State) :
    (refill1 s).work.endBit = s.work.endBit := by
  unfold refill1; split <;> rfl

@[simp] theorem refill1_work_outPos (s : State) :
    (refill1 s).work.outPos = s.work.outPos := by
  unfold refill1; split <;> rfl

@[simp] theorem refill1_work_cap (s : State) :
    (refill1 s).work.cap = s.work.cap := by
  unfold refill1; split <;> rfl

@[simp] theorem refill1_work_bitsPP (s : State) :
    (refill1 s).work.bitsPP = s.work.bitsPP := by
  unfold refill1; split <;> rfl

@[simp] theorem refill1_work_rowBytes (s : State) :
    (refill1 s).work.rowBytes = s.work.rowBytes := by
  unfold refill1; split <;> rfl

@[simp] theorem refill1_work_bpp (s : State) :
    (refill1 s).work.bpp = s.work.bpp := by
  unfold refill1; split <;> rfl

@[simp] theorem refill1_work_bfinal (s : State) :
    (refill1 s).work.bfinal = s.work.bfinal := by
  unfold refill1; split <;> rfl

@[simp] theorem refill1_work_btype (s : State) :
    (refill1 s).work.btype = s.work.btype := by
  unfold refill1; split <;> rfl

@[simp] theorem refill1_work_hlit (s : State) :
    (refill1 s).work.hlit = s.work.hlit := by
  unfold refill1; split <;> rfl

@[simp] theorem refill1_work_hdist (s : State) :
    (refill1 s).work.hdist = s.work.hdist := by
  unfold refill1; split <;> rfl

@[simp] theorem refill1_work_hclen (s : State) :
    (refill1 s).work.hclen = s.work.hclen := by
  unfold refill1; split <;> rfl

@[simp] theorem refill1_work_lenI (s : State) :
    (refill1 s).work.lenI = s.work.lenI := by
  unfold refill1; split <;> rfl

@[simp] theorem refill1_work_row (s : State) :
    (refill1 s).work.row = s.work.row := by
  unfold refill1; split <;> rfl

@[simp] theorem refill1_work_clLens (s : State) :
    (refill1 s).work.clLens = s.work.clLens := by
  unfold refill1; split <;> rfl

@[simp] theorem refill1_work_lens (s : State) :
    (refill1 s).work.lens = s.work.lens := by
  unfold refill1; split <;> rfl

@[simp] theorem refill1_work_clt (s : State) :
    (refill1 s).work.clt = s.work.clt := by
  unfold refill1; split <;> rfl

@[simp] theorem refill1_work_llt (s : State) :
    (refill1 s).work.llt = s.work.llt := by
  unfold refill1; split <;> rfl

@[simp] theorem refill1_work_dt (s : State) :
    (refill1 s).work.dt = s.work.dt := by
  unfold refill1; split <;> rfl

@[simp] theorem refill1_work_cfg (s : State) :
    (refill1 s).work.cfg = s.work.cfg := by
  unfold refill1; split <;> rfl

@[simp] theorem refill1_work_matchLen (s : State) :
    (refill1 s).work.matchLen = s.work.matchLen := by
  unfold refill1; split <;> rfl

@[simp] theorem refill_runState (s : State) :
    (refill s).runState = s.runState := by
  simp [refill]

@[simp] theorem refill_errKind (s : State) :
    (refill s).errKind = s.errKind := by
  simp [refill]

@[simp] theorem refill_errCause (s : State) :
    (refill s).errCause = s.errCause := by
  simp [refill]

@[simp] theorem refill_cfg (s : State) :
    (refill s).cfg = s.cfg := by
  simp [refill]

@[simp] theorem refill_phase (s : State) :
    (refill s).phase = s.phase := by
  simp [refill]

@[simp] theorem refill_inMem (s : State) :
    (refill s).inMem = s.inMem := by
  simp [refill]

@[simp] theorem refill_outMem (s : State) :
    (refill s).outMem = s.outMem := by
  simp [refill]

@[simp] theorem refill_plteMem (s : State) :
    (refill s).plteMem = s.plteMem := by
  simp [refill]

@[simp] theorem refill_trnsMem (s : State) :
    (refill s).trnsMem = s.trnsMem := by
  simp [refill]

@[simp] theorem refill_pixMem (s : State) :
    (refill s).pixMem = s.pixMem := by
  simp [refill]

@[simp] theorem refill_inEpoch (s : State) :
    (refill s).inEpoch = s.inEpoch := by
  simp [refill]

@[simp] theorem refill_outEpoch (s : State) :
    (refill s).outEpoch = s.outEpoch := by
  simp [refill]

@[simp] theorem refill_params (s : State) :
    (refill s).params = s.params := by
  simp [refill]

@[simp] theorem refill_host (s : State) :
    (refill s).host = s.host := by
  simp [refill]

@[simp] theorem refill_hostData (s : State) :
    (refill s).hostData = s.hostData := by
  simp [refill]

@[simp] theorem refill_work_bitPos (s : State) :
    (refill s).work.bitPos = s.work.bitPos := by
  simp [refill]

@[simp] theorem refill_work_endBit (s : State) :
    (refill s).work.endBit = s.work.endBit := by
  simp [refill]

@[simp] theorem refill_work_outPos (s : State) :
    (refill s).work.outPos = s.work.outPos := by
  simp [refill]

@[simp] theorem refill_work_cap (s : State) :
    (refill s).work.cap = s.work.cap := by
  simp [refill]

@[simp] theorem refill_work_bitsPP (s : State) :
    (refill s).work.bitsPP = s.work.bitsPP := by
  simp [refill]

@[simp] theorem refill_work_rowBytes (s : State) :
    (refill s).work.rowBytes = s.work.rowBytes := by
  simp [refill]

@[simp] theorem refill_work_bpp (s : State) :
    (refill s).work.bpp = s.work.bpp := by
  simp [refill]

@[simp] theorem refill_work_bfinal (s : State) :
    (refill s).work.bfinal = s.work.bfinal := by
  simp [refill]

@[simp] theorem refill_work_btype (s : State) :
    (refill s).work.btype = s.work.btype := by
  simp [refill]

@[simp] theorem refill_work_hlit (s : State) :
    (refill s).work.hlit = s.work.hlit := by
  simp [refill]

@[simp] theorem refill_work_hdist (s : State) :
    (refill s).work.hdist = s.work.hdist := by
  simp [refill]

@[simp] theorem refill_work_hclen (s : State) :
    (refill s).work.hclen = s.work.hclen := by
  simp [refill]

@[simp] theorem refill_work_lenI (s : State) :
    (refill s).work.lenI = s.work.lenI := by
  simp [refill]

@[simp] theorem refill_work_row (s : State) :
    (refill s).work.row = s.work.row := by
  simp [refill]

@[simp] theorem refill_work_clLens (s : State) :
    (refill s).work.clLens = s.work.clLens := by
  simp [refill]

@[simp] theorem refill_work_lens (s : State) :
    (refill s).work.lens = s.work.lens := by
  simp [refill]

@[simp] theorem refill_work_clt (s : State) :
    (refill s).work.clt = s.work.clt := by
  simp [refill]

@[simp] theorem refill_work_llt (s : State) :
    (refill s).work.llt = s.work.llt := by
  simp [refill]

@[simp] theorem refill_work_dt (s : State) :
    (refill s).work.dt = s.work.dt := by
  simp [refill]

@[simp] theorem refill_work_cfg (s : State) :
    (refill s).work.cfg = s.work.cfg := by
  simp [refill]

@[simp] theorem refill_work_matchLen (s : State) :
    (refill s).work.matchLen = s.work.matchLen := by
  simp [refill]

@[simp] theorem advance_runState (n : Nat) (s : State) :
    (advance n s).runState = s.runState := by
  simp [advance]

@[simp] theorem advance_errKind (n : Nat) (s : State) :
    (advance n s).errKind = s.errKind := by
  simp [advance]

@[simp] theorem advance_errCause (n : Nat) (s : State) :
    (advance n s).errCause = s.errCause := by
  simp [advance]

@[simp] theorem advance_cfg (n : Nat) (s : State) :
    (advance n s).cfg = s.cfg := by
  simp [advance]

@[simp] theorem advance_phase (n : Nat) (s : State) :
    (advance n s).phase = s.phase := by
  simp [advance]

@[simp] theorem advance_inMem (n : Nat) (s : State) :
    (advance n s).inMem = s.inMem := by
  simp [advance]

@[simp] theorem advance_outMem (n : Nat) (s : State) :
    (advance n s).outMem = s.outMem := by
  simp [advance]

@[simp] theorem advance_plteMem (n : Nat) (s : State) :
    (advance n s).plteMem = s.plteMem := by
  simp [advance]

@[simp] theorem advance_trnsMem (n : Nat) (s : State) :
    (advance n s).trnsMem = s.trnsMem := by
  simp [advance]

@[simp] theorem advance_pixMem (n : Nat) (s : State) :
    (advance n s).pixMem = s.pixMem := by
  simp [advance]

@[simp] theorem advance_inEpoch (n : Nat) (s : State) :
    (advance n s).inEpoch = s.inEpoch := by
  simp [advance]

@[simp] theorem advance_outEpoch (n : Nat) (s : State) :
    (advance n s).outEpoch = s.outEpoch := by
  simp [advance]

@[simp] theorem advance_params (n : Nat) (s : State) :
    (advance n s).params = s.params := by
  simp [advance]

@[simp] theorem advance_host (n : Nat) (s : State) :
    (advance n s).host = s.host := by
  simp [advance]

@[simp] theorem advance_hostData (n : Nat) (s : State) :
    (advance n s).hostData = s.hostData := by
  simp [advance]

@[simp] theorem advance_work_bitPos (n : Nat) (s : State) :
    (advance n s).work.bitPos = s.work.bitPos + n := by
  simp [advance]

@[simp] theorem advance_work_endBit (n : Nat) (s : State) :
    (advance n s).work.endBit = s.work.endBit := by
  simp [advance]

@[simp] theorem advance_work_outPos (n : Nat) (s : State) :
    (advance n s).work.outPos = s.work.outPos := by
  simp [advance]

@[simp] theorem advance_work_cap (n : Nat) (s : State) :
    (advance n s).work.cap = s.work.cap := by
  simp [advance]

@[simp] theorem advance_work_bitsPP (n : Nat) (s : State) :
    (advance n s).work.bitsPP = s.work.bitsPP := by
  simp [advance]

@[simp] theorem advance_work_rowBytes (n : Nat) (s : State) :
    (advance n s).work.rowBytes = s.work.rowBytes := by
  simp [advance]

@[simp] theorem advance_work_bpp (n : Nat) (s : State) :
    (advance n s).work.bpp = s.work.bpp := by
  simp [advance]

@[simp] theorem advance_work_bfinal (n : Nat) (s : State) :
    (advance n s).work.bfinal = s.work.bfinal := by
  simp [advance]

@[simp] theorem advance_work_btype (n : Nat) (s : State) :
    (advance n s).work.btype = s.work.btype := by
  simp [advance]

@[simp] theorem advance_work_hlit (n : Nat) (s : State) :
    (advance n s).work.hlit = s.work.hlit := by
  simp [advance]

@[simp] theorem advance_work_hdist (n : Nat) (s : State) :
    (advance n s).work.hdist = s.work.hdist := by
  simp [advance]

@[simp] theorem advance_work_hclen (n : Nat) (s : State) :
    (advance n s).work.hclen = s.work.hclen := by
  simp [advance]

@[simp] theorem advance_work_lenI (n : Nat) (s : State) :
    (advance n s).work.lenI = s.work.lenI := by
  simp [advance]

@[simp] theorem advance_work_row (n : Nat) (s : State) :
    (advance n s).work.row = s.work.row := by
  simp [advance]

@[simp] theorem advance_work_clLens (n : Nat) (s : State) :
    (advance n s).work.clLens = s.work.clLens := by
  simp [advance]

@[simp] theorem advance_work_lens (n : Nat) (s : State) :
    (advance n s).work.lens = s.work.lens := by
  simp [advance]

@[simp] theorem advance_work_clt (n : Nat) (s : State) :
    (advance n s).work.clt = s.work.clt := by
  simp [advance]

@[simp] theorem advance_work_llt (n : Nat) (s : State) :
    (advance n s).work.llt = s.work.llt := by
  simp [advance]

@[simp] theorem advance_work_dt (n : Nat) (s : State) :
    (advance n s).work.dt = s.work.dt := by
  simp [advance]

@[simp] theorem advance_work_cfg (n : Nat) (s : State) :
    (advance n s).work.cfg = s.work.cfg := by
  simp [advance]

@[simp] theorem advance_work_matchLen (n : Nat) (s : State) :
    (advance n s).work.matchLen = s.work.matchLen := by
  simp [advance]

@[simp] theorem align_runState (s : State) :
    (align s).runState = s.runState := by
  simp [align]

@[simp] theorem align_errKind (s : State) :
    (align s).errKind = s.errKind := by
  simp [align]

@[simp] theorem align_errCause (s : State) :
    (align s).errCause = s.errCause := by
  simp [align]

@[simp] theorem align_cfg (s : State) :
    (align s).cfg = s.cfg := by
  simp [align]

@[simp] theorem align_phase (s : State) :
    (align s).phase = s.phase := by
  simp [align]

@[simp] theorem align_inMem (s : State) :
    (align s).inMem = s.inMem := by
  simp [align]

@[simp] theorem align_outMem (s : State) :
    (align s).outMem = s.outMem := by
  simp [align]

@[simp] theorem align_plteMem (s : State) :
    (align s).plteMem = s.plteMem := by
  simp [align]

@[simp] theorem align_trnsMem (s : State) :
    (align s).trnsMem = s.trnsMem := by
  simp [align]

@[simp] theorem align_pixMem (s : State) :
    (align s).pixMem = s.pixMem := by
  simp [align]

@[simp] theorem align_inEpoch (s : State) :
    (align s).inEpoch = s.inEpoch := by
  simp [align]

@[simp] theorem align_outEpoch (s : State) :
    (align s).outEpoch = s.outEpoch := by
  simp [align]

@[simp] theorem align_params (s : State) :
    (align s).params = s.params := by
  simp [align]

@[simp] theorem align_host (s : State) :
    (align s).host = s.host := by
  simp [align]

@[simp] theorem align_hostData (s : State) :
    (align s).hostData = s.hostData := by
  simp [align]

@[simp] theorem align_work_bitPos (s : State) :
    (align s).work.bitPos = 8 * ((s.work.bitPos + 7) / 8) := by
  simp [align]

@[simp] theorem align_work_endBit (s : State) :
    (align s).work.endBit = s.work.endBit := by
  simp [align]

@[simp] theorem align_work_outPos (s : State) :
    (align s).work.outPos = s.work.outPos := by
  simp [align]

@[simp] theorem align_work_cap (s : State) :
    (align s).work.cap = s.work.cap := by
  simp [align]

@[simp] theorem align_work_bitsPP (s : State) :
    (align s).work.bitsPP = s.work.bitsPP := by
  simp [align]

@[simp] theorem align_work_rowBytes (s : State) :
    (align s).work.rowBytes = s.work.rowBytes := by
  simp [align]

@[simp] theorem align_work_bpp (s : State) :
    (align s).work.bpp = s.work.bpp := by
  simp [align]

@[simp] theorem align_work_bfinal (s : State) :
    (align s).work.bfinal = s.work.bfinal := by
  simp [align]

@[simp] theorem align_work_btype (s : State) :
    (align s).work.btype = s.work.btype := by
  simp [align]

@[simp] theorem align_work_hlit (s : State) :
    (align s).work.hlit = s.work.hlit := by
  simp [align]

@[simp] theorem align_work_hdist (s : State) :
    (align s).work.hdist = s.work.hdist := by
  simp [align]

@[simp] theorem align_work_hclen (s : State) :
    (align s).work.hclen = s.work.hclen := by
  simp [align]

@[simp] theorem align_work_lenI (s : State) :
    (align s).work.lenI = s.work.lenI := by
  simp [align]

@[simp] theorem align_work_row (s : State) :
    (align s).work.row = s.work.row := by
  simp [align]

@[simp] theorem align_work_clLens (s : State) :
    (align s).work.clLens = s.work.clLens := by
  simp [align]

@[simp] theorem align_work_lens (s : State) :
    (align s).work.lens = s.work.lens := by
  simp [align]

@[simp] theorem align_work_clt (s : State) :
    (align s).work.clt = s.work.clt := by
  simp [align]

@[simp] theorem align_work_llt (s : State) :
    (align s).work.llt = s.work.llt := by
  simp [align]

@[simp] theorem align_work_dt (s : State) :
    (align s).work.dt = s.work.dt := by
  simp [align]

@[simp] theorem align_work_cfg (s : State) :
    (align s).work.cfg = s.work.cfg := by
  simp [align]

@[simp] theorem align_work_matchLen (s : State) :
    (align s).work.matchLen = s.work.matchLen := by
  simp [align]

@[simp] theorem initReader_runState (s : State) :
    (initReader s).runState = s.runState := by
  simp [initReader]

@[simp] theorem initReader_errKind (s : State) :
    (initReader s).errKind = s.errKind := by
  simp [initReader]

@[simp] theorem initReader_errCause (s : State) :
    (initReader s).errCause = s.errCause := by
  simp [initReader]

@[simp] theorem initReader_cfg (s : State) :
    (initReader s).cfg = s.cfg := by
  simp [initReader]

@[simp] theorem initReader_phase (s : State) :
    (initReader s).phase = s.phase := by
  simp [initReader]

@[simp] theorem initReader_inMem (s : State) :
    (initReader s).inMem = s.inMem := by
  simp [initReader]

@[simp] theorem initReader_outMem (s : State) :
    (initReader s).outMem = s.outMem := by
  simp [initReader]

@[simp] theorem initReader_plteMem (s : State) :
    (initReader s).plteMem = s.plteMem := by
  simp [initReader]

@[simp] theorem initReader_trnsMem (s : State) :
    (initReader s).trnsMem = s.trnsMem := by
  simp [initReader]

@[simp] theorem initReader_pixMem (s : State) :
    (initReader s).pixMem = s.pixMem := by
  simp [initReader]

@[simp] theorem initReader_inEpoch (s : State) :
    (initReader s).inEpoch = s.inEpoch := by
  simp [initReader]

@[simp] theorem initReader_outEpoch (s : State) :
    (initReader s).outEpoch = s.outEpoch := by
  simp [initReader]

@[simp] theorem initReader_params (s : State) :
    (initReader s).params = s.params := by
  simp [initReader]

@[simp] theorem initReader_host (s : State) :
    (initReader s).host = s.host := by
  simp [initReader]

@[simp] theorem initReader_hostData (s : State) :
    (initReader s).hostData = s.hostData := by
  simp [initReader]

@[simp] theorem initReader_work_bitPos (s : State) :
    (initReader s).work.bitPos = 16 := by
  simp [initReader]

@[simp] theorem initReader_work_endBit (s : State) :
    (initReader s).work.endBit = 8 * (s.work.cfg.inLen.toNat - 4) := by
  simp [initReader]

@[simp] theorem initReader_work_outPos (s : State) :
    (initReader s).work.outPos = s.work.outPos := by
  simp [initReader]

@[simp] theorem initReader_work_cap (s : State) :
    (initReader s).work.cap = s.work.cap := by
  simp [initReader]

@[simp] theorem initReader_work_bitsPP (s : State) :
    (initReader s).work.bitsPP = s.work.bitsPP := by
  simp [initReader]

@[simp] theorem initReader_work_rowBytes (s : State) :
    (initReader s).work.rowBytes = s.work.rowBytes := by
  simp [initReader]

@[simp] theorem initReader_work_bpp (s : State) :
    (initReader s).work.bpp = s.work.bpp := by
  simp [initReader]

@[simp] theorem initReader_work_bfinal (s : State) :
    (initReader s).work.bfinal = s.work.bfinal := by
  simp [initReader]

@[simp] theorem initReader_work_btype (s : State) :
    (initReader s).work.btype = s.work.btype := by
  simp [initReader]

@[simp] theorem initReader_work_hlit (s : State) :
    (initReader s).work.hlit = s.work.hlit := by
  simp [initReader]

@[simp] theorem initReader_work_hdist (s : State) :
    (initReader s).work.hdist = s.work.hdist := by
  simp [initReader]

@[simp] theorem initReader_work_hclen (s : State) :
    (initReader s).work.hclen = s.work.hclen := by
  simp [initReader]

@[simp] theorem initReader_work_lenI (s : State) :
    (initReader s).work.lenI = s.work.lenI := by
  simp [initReader]

@[simp] theorem initReader_work_row (s : State) :
    (initReader s).work.row = s.work.row := by
  simp [initReader]

@[simp] theorem initReader_work_clLens (s : State) :
    (initReader s).work.clLens = s.work.clLens := by
  simp [initReader]

@[simp] theorem initReader_work_lens (s : State) :
    (initReader s).work.lens = s.work.lens := by
  simp [initReader]

@[simp] theorem initReader_work_clt (s : State) :
    (initReader s).work.clt = s.work.clt := by
  simp [initReader]

@[simp] theorem initReader_work_llt (s : State) :
    (initReader s).work.llt = s.work.llt := by
  simp [initReader]

@[simp] theorem initReader_work_dt (s : State) :
    (initReader s).work.dt = s.work.dt := by
  simp [initReader]

@[simp] theorem initReader_work_cfg (s : State) :
    (initReader s).work.cfg = s.work.cfg := by
  simp [initReader]

@[simp] theorem initReader_work_matchLen (s : State) :
    (initReader s).work.matchLen = s.work.matchLen := by
  simp [initReader]

@[simp] theorem write_runState (s : State) (sp : Space) (a : Nat) (b : Byte) :
    (s.write sp a b).runState = s.runState := by
  cases sp <;> rfl

@[simp] theorem write_errKind (s : State) (sp : Space) (a : Nat) (b : Byte) :
    (s.write sp a b).errKind = s.errKind := by
  cases sp <;> rfl

@[simp] theorem write_errCause (s : State) (sp : Space) (a : Nat) (b : Byte) :
    (s.write sp a b).errCause = s.errCause := by
  cases sp <;> rfl

@[simp] theorem write_cfg (s : State) (sp : Space) (a : Nat) (b : Byte) :
    (s.write sp a b).cfg = s.cfg := by
  cases sp <;> rfl

@[simp] theorem write_phase (s : State) (sp : Space) (a : Nat) (b : Byte) :
    (s.write sp a b).phase = s.phase := by
  cases sp <;> rfl

@[simp] theorem write_work (s : State) (sp : Space) (a : Nat) (b : Byte) :
    (s.write sp a b).work = s.work := by
  cases sp <;> rfl

@[simp] theorem write_inEpoch (s : State) (sp : Space) (a : Nat) (b : Byte) :
    (s.write sp a b).inEpoch = s.inEpoch := by
  cases sp <;> rfl

@[simp] theorem write_outEpoch (s : State) (sp : Space) (a : Nat) (b : Byte) :
    (s.write sp a b).outEpoch = s.outEpoch := by
  cases sp <;> rfl

@[simp] theorem write_params (s : State) (sp : Space) (a : Nat) (b : Byte) :
    (s.write sp a b).params = s.params := by
  cases sp <;> rfl

@[simp] theorem write_host (s : State) (sp : Space) (a : Nat) (b : Byte) :
    (s.write sp a b).host = s.host := by
  cases sp <;> rfl

@[simp] theorem write_hostData (s : State) (sp : Space) (a : Nat) (b : Byte) :
    (s.write sp a b).hostData = s.hostData := by
  cases sp <;> rfl

@[simp] theorem write_inp_inMem (s : State) (a : Nat) (b : Byte) :
    (s.write .inp a b).inMem = Memory.set s.inMem a b := rfl

@[simp] theorem write_out_inMem (s : State) (a : Nat) (b : Byte) :
    (s.write .out a b).inMem = s.inMem := rfl

@[simp] theorem write_plte_inMem (s : State) (a : Nat) (b : Byte) :
    (s.write .plte a b).inMem = s.inMem := rfl

@[simp] theorem write_trns_inMem (s : State) (a : Nat) (b : Byte) :
    (s.write .trns a b).inMem = s.inMem := rfl

@[simp] theorem write_pix_inMem (s : State) (a : Nat) (b : Byte) :
    (s.write .pix a b).inMem = s.inMem := rfl

@[simp] theorem write_inp_outMem (s : State) (a : Nat) (b : Byte) :
    (s.write .inp a b).outMem = s.outMem := rfl

@[simp] theorem write_out_outMem (s : State) (a : Nat) (b : Byte) :
    (s.write .out a b).outMem = Memory.set s.outMem a b := rfl

@[simp] theorem write_plte_outMem (s : State) (a : Nat) (b : Byte) :
    (s.write .plte a b).outMem = s.outMem := rfl

@[simp] theorem write_trns_outMem (s : State) (a : Nat) (b : Byte) :
    (s.write .trns a b).outMem = s.outMem := rfl

@[simp] theorem write_pix_outMem (s : State) (a : Nat) (b : Byte) :
    (s.write .pix a b).outMem = s.outMem := rfl

@[simp] theorem write_inp_plteMem (s : State) (a : Nat) (b : Byte) :
    (s.write .inp a b).plteMem = s.plteMem := rfl

@[simp] theorem write_out_plteMem (s : State) (a : Nat) (b : Byte) :
    (s.write .out a b).plteMem = s.plteMem := rfl

@[simp] theorem write_plte_plteMem (s : State) (a : Nat) (b : Byte) :
    (s.write .plte a b).plteMem = Memory.set s.plteMem a b := rfl

@[simp] theorem write_trns_plteMem (s : State) (a : Nat) (b : Byte) :
    (s.write .trns a b).plteMem = s.plteMem := rfl

@[simp] theorem write_pix_plteMem (s : State) (a : Nat) (b : Byte) :
    (s.write .pix a b).plteMem = s.plteMem := rfl

@[simp] theorem write_inp_trnsMem (s : State) (a : Nat) (b : Byte) :
    (s.write .inp a b).trnsMem = s.trnsMem := rfl

@[simp] theorem write_out_trnsMem (s : State) (a : Nat) (b : Byte) :
    (s.write .out a b).trnsMem = s.trnsMem := rfl

@[simp] theorem write_plte_trnsMem (s : State) (a : Nat) (b : Byte) :
    (s.write .plte a b).trnsMem = s.trnsMem := rfl

@[simp] theorem write_trns_trnsMem (s : State) (a : Nat) (b : Byte) :
    (s.write .trns a b).trnsMem = Memory.set s.trnsMem a b := rfl

@[simp] theorem write_pix_trnsMem (s : State) (a : Nat) (b : Byte) :
    (s.write .pix a b).trnsMem = s.trnsMem := rfl

@[simp] theorem write_inp_pixMem (s : State) (a : Nat) (b : Byte) :
    (s.write .inp a b).pixMem = s.pixMem := rfl

@[simp] theorem write_out_pixMem (s : State) (a : Nat) (b : Byte) :
    (s.write .out a b).pixMem = s.pixMem := rfl

@[simp] theorem write_plte_pixMem (s : State) (a : Nat) (b : Byte) :
    (s.write .plte a b).pixMem = s.pixMem := rfl

@[simp] theorem write_trns_pixMem (s : State) (a : Nat) (b : Byte) :
    (s.write .trns a b).pixMem = s.pixMem := rfl

@[simp] theorem write_pix_pixMem (s : State) (a : Nat) (b : Byte) :
    (s.write .pix a b).pixMem = Memory.set s.pixMem a b := rfl

@[simp] theorem putOut_runState (b : Byte) (s : State) :
    (putOut b s).runState = s.runState := rfl

@[simp] theorem putOut_errKind (b : Byte) (s : State) :
    (putOut b s).errKind = s.errKind := rfl

@[simp] theorem putOut_errCause (b : Byte) (s : State) :
    (putOut b s).errCause = s.errCause := rfl

@[simp] theorem putOut_cfg (b : Byte) (s : State) :
    (putOut b s).cfg = s.cfg := rfl

@[simp] theorem putOut_phase (b : Byte) (s : State) :
    (putOut b s).phase = s.phase := rfl

@[simp] theorem putOut_inMem (b : Byte) (s : State) :
    (putOut b s).inMem = s.inMem := rfl

@[simp] theorem putOut_outMem (b : Byte) (s : State) :
    (putOut b s).outMem = Memory.set s.outMem s.work.outPos b := rfl

@[simp] theorem putOut_plteMem (b : Byte) (s : State) :
    (putOut b s).plteMem = s.plteMem := rfl

@[simp] theorem putOut_trnsMem (b : Byte) (s : State) :
    (putOut b s).trnsMem = s.trnsMem := rfl

@[simp] theorem putOut_pixMem (b : Byte) (s : State) :
    (putOut b s).pixMem = s.pixMem := rfl

@[simp] theorem putOut_inEpoch (b : Byte) (s : State) :
    (putOut b s).inEpoch = s.inEpoch := rfl

@[simp] theorem putOut_outEpoch (b : Byte) (s : State) :
    (putOut b s).outEpoch = s.outEpoch := rfl

@[simp] theorem putOut_params (b : Byte) (s : State) :
    (putOut b s).params = s.params := rfl

@[simp] theorem putOut_host (b : Byte) (s : State) :
    (putOut b s).host = s.host := rfl

@[simp] theorem putOut_hostData (b : Byte) (s : State) :
    (putOut b s).hostData = s.hostData := rfl

@[simp] theorem putOut_work_bitPos (b : Byte) (s : State) :
    (putOut b s).work.bitPos = s.work.bitPos := rfl

@[simp] theorem putOut_work_endBit (b : Byte) (s : State) :
    (putOut b s).work.endBit = s.work.endBit := rfl

@[simp] theorem putOut_work_acc (b : Byte) (s : State) :
    (putOut b s).work.acc = s.work.acc := rfl

@[simp] theorem putOut_work_nbits (b : Byte) (s : State) :
    (putOut b s).work.nbits = s.work.nbits := rfl

@[simp] theorem putOut_work_inPos (b : Byte) (s : State) :
    (putOut b s).work.inPos = s.work.inPos := rfl

@[simp] theorem putOut_work_outPos (b : Byte) (s : State) :
    (putOut b s).work.outPos = s.work.outPos + 1 := rfl

@[simp] theorem putOut_work_cap (b : Byte) (s : State) :
    (putOut b s).work.cap = s.work.cap := rfl

@[simp] theorem putOut_work_bitsPP (b : Byte) (s : State) :
    (putOut b s).work.bitsPP = s.work.bitsPP := rfl

@[simp] theorem putOut_work_rowBytes (b : Byte) (s : State) :
    (putOut b s).work.rowBytes = s.work.rowBytes := rfl

@[simp] theorem putOut_work_bpp (b : Byte) (s : State) :
    (putOut b s).work.bpp = s.work.bpp := rfl

@[simp] theorem putOut_work_bfinal (b : Byte) (s : State) :
    (putOut b s).work.bfinal = s.work.bfinal := rfl

@[simp] theorem putOut_work_btype (b : Byte) (s : State) :
    (putOut b s).work.btype = s.work.btype := rfl

@[simp] theorem putOut_work_hlit (b : Byte) (s : State) :
    (putOut b s).work.hlit = s.work.hlit := rfl

@[simp] theorem putOut_work_hdist (b : Byte) (s : State) :
    (putOut b s).work.hdist = s.work.hdist := rfl

@[simp] theorem putOut_work_hclen (b : Byte) (s : State) :
    (putOut b s).work.hclen = s.work.hclen := rfl

@[simp] theorem putOut_work_lenI (b : Byte) (s : State) :
    (putOut b s).work.lenI = s.work.lenI := rfl

@[simp] theorem putOut_work_row (b : Byte) (s : State) :
    (putOut b s).work.row = s.work.row := rfl

@[simp] theorem putOut_work_clLens (b : Byte) (s : State) :
    (putOut b s).work.clLens = s.work.clLens := rfl

@[simp] theorem putOut_work_lens (b : Byte) (s : State) :
    (putOut b s).work.lens = s.work.lens := rfl

@[simp] theorem putOut_work_clt (b : Byte) (s : State) :
    (putOut b s).work.clt = s.work.clt := rfl

@[simp] theorem putOut_work_llt (b : Byte) (s : State) :
    (putOut b s).work.llt = s.work.llt := rfl

@[simp] theorem putOut_work_dt (b : Byte) (s : State) :
    (putOut b s).work.dt = s.work.dt := rfl

@[simp] theorem putOut_work_cfg (b : Byte) (s : State) :
    (putOut b s).work.cfg = s.work.cfg := rfl

@[simp] theorem putOut_work_matchLen (b : Byte) (s : State) :
    (putOut b s).work.matchLen = s.work.matchLen := rfl

end Sys2Proof.Machine
end

