-- ==== Sys2Proof/Laws/Memory.lean ====
section
/-! SUPPORT. The laws of a memory: what a read after a write gives, and that every write keeps the canonical form. -/

namespace Sys2Proof.Machine

@[simp] theorem Memory.get?_nil (a : Nat) : Memory.get? [] a = none := rfl

theorem Memory.get?_set_same (m : List Host.Cell) (a : Nat) (b : Byte) :
    Memory.get? (Memory.set m a b) a = some b := by
  induction m with
  | nil => simp [Memory.set, Memory.get?]
  | cons c m ih =>
    obtain ⟨k, v⟩ := c
    unfold Memory.set
    split
    · simp [Memory.get?]
    · split
      · simp [Memory.get?]
      · rename_i h1 h2
        have : k ≠ a := fun h => h2 h.symm
        simp [Memory.get?, this, ih]

theorem Memory.get?_set_ne (m : List Host.Cell) {a x : Nat} (b : Byte) (h : x ≠ a) :
    Memory.get? (Memory.set m a b) x = Memory.get? m x := by
  induction m with
  | nil => simp [Memory.set, Memory.get?, Ne.symm h]
  | cons c m ih =>
    obtain ⟨k, v⟩ := c
    unfold Memory.set
    split
    · simp [Memory.get?, Ne.symm h]
    · split
      · rename_i h1 h2
        simp [Memory.get?, Ne.symm h, ← h2]
      · simp [Memory.get?, ih]

/-- One byte written: that byte changes and no other. -/
theorem Memory.get?_set (m : List Host.Cell) (a x : Nat) (b : Byte) :
    Memory.get? (Memory.set m a b) x = if x = a then some b else Memory.get? m x := by
  split
  · next h => rw [h, Memory.get?_set_same]
  · next h => exact Memory.get?_set_ne m b h

@[simp] theorem Memory.wf_nil : Memory.wf [] = true := rfl

theorem Memory.wf_cons (k : Nat) (v : Byte) (m : List Host.Cell) :
    Memory.wf ((k, v) :: m) = true ↔ (∀ c ∈ m.head?, k < c.1) ∧ Memory.wf m = true := by
  cases m with
  | nil => simp [Memory.wf]
  | cons c m => simp [Memory.wf]

/-- The head of a memory after a write is the address written or the old head. -/
theorem Memory.head?_set (m : List Host.Cell) (a : Nat) (b : Byte) :
    ∀ c ∈ (Memory.set m a b).head?, c.1 = a ∨ c ∈ m.head? := by
  cases m with
  | nil => simp [Memory.set]
  | cons c m =>
    obtain ⟨k, v⟩ := c
    unfold Memory.set
    split
    · simp
    · split <;> simp

/-- Every write keeps the canonical form. -/
theorem Memory.wf_set (m : List Host.Cell) (a : Nat) (b : Byte) (h : Memory.wf m = true) :
    Memory.wf (Memory.set m a b) = true := by
  induction m with
  | nil => rfl
  | cons c m ih =>
    obtain ⟨k, v⟩ := c
    have hm := ((Memory.wf_cons k v m).1 h)
    unfold Memory.set
    split
    · next h1 => exact (Memory.wf_cons _ _ _).2 ⟨by simpa using h1, h⟩
    · split
      · next h2 => subst h2; exact (Memory.wf_cons _ _ _).2 hm
      · next h1 h2 =>
        refine (Memory.wf_cons _ _ _).2 ⟨fun c hc => ?_, ih hm.2⟩
        rcases Memory.head?_set m a b c hc with h3 | h3
        · omega
        · exact hm.1 c h3

/-- The addresses of a memory after a write. -/
theorem Memory.mem_set {m : List Host.Cell} {a : Nat} {b : Byte} {c : Host.Cell} (h : c ∈ Memory.set m a b) :
    c = (a, b) ∨ c ∈ m := by
  induction m with
  | nil => simpa [Memory.set] using h
  | cons d m ih =>
    obtain ⟨k, v⟩ := d
    unfold Memory.set at h
    split at h
    · simpa using h
    · split at h
      · simp only [List.mem_cons] at h ⊢
        exact h.imp id .inr
      · simp only [List.mem_cons] at h ⊢
        rcases h with h | h
        · exact .inr (.inl h)
        · rcases ih h with h | h
          · exact .inl h
          · exact .inr (.inr h)

/-! ### Reads of the state -/

@[simp] theorem State.mem_write (s : State) (sp sp' : Space) (a : Nat) (b : Byte) :
    (s.write sp a b).mem sp' = if sp' = sp then Memory.set (s.mem sp) a b else s.mem sp' := by
  cases sp <;> cases sp' <;> rfl

@[simp] theorem State.epoch_write (s : State) (sp sp' : Space) (a : Nat) (b : Byte) :
    (s.write sp a b).epoch sp' = s.epoch sp' := by
  cases sp <;> cases sp' <;> rfl

/-- A read after a write (R71): the byte written, or the old byte anywhere else. -/
theorem State.read_write (s : State) (sp sp' : Space) (a x : Nat) (b : Byte) :
    (s.write sp a b).read sp' x = if sp' = sp ∧ x = a then b else s.read sp' x := by
  unfold State.read
  by_cases h : sp' = sp
  · subst h
    by_cases hx : x = a
    · simp [hx, Memory.get?_set]
    · simp [hx, Memory.get?_set]
  · simp [h]

@[simp] theorem State.read_write_same (s : State) (sp : Space) (a : Nat) (b : Byte) :
    (s.write sp a b).read sp a = b := by simp [State.read_write]

/-- A read depends on its memory and its generation only. -/
theorem State.read_congr {s t : State} {sp : Space} (hm : t.mem sp = s.mem sp) (he : t.epoch sp = s.epoch sp)
    (a : Nat) : t.read sp a = s.read sp a := by
  unfold State.read; rw [hm, he]

end Sys2Proof.Machine
end

