-- ==== Sys2Proof/Laws/Window.lean ====
section
/-! SUPPORT. The bit-reader: what `read`, `consume`, `align` and the refill can do, and that each keeps the bit window a
refinement of the cursor (spec/10_state.md R37, spec/40_bitreader.md R136). -/

namespace Sys2Proof.Machine

/-! ### The cursor -/

/-- The stream bits depend on IN and END_BIT only. -/
theorem State.sbit_congr {s t : State} (hm : t.inMem = s.inMem) (he : t.inEpoch = s.inEpoch)
    (hb : t.work.endBit = s.work.endBit) (i : Nat) : t.sbit i = s.sbit i := by
  unfold State.sbit
  rw [hb, State.read_congr (s := s) (t := t) (sp := .inp) hm he]

theorem State.bits_congr {s t : State} (hm : t.inMem = s.inMem) (he : t.inEpoch = s.inEpoch)
    (hb : t.work.endBit = s.work.endBit) (n i : Nat) : t.bits i n = s.bits i n := by
  induction n generalizing i with
  | zero => rfl
  | succ n ih => simp only [State.bits, ih, State.sbit_congr hm he hb]

@[simp] theorem State.sbit_advance (n : Nat) (s : State) (i : Nat) : (advance n s).sbit i = s.sbit i :=
  State.sbit_congr (by simp) (by simp) (by simp) i

@[simp] theorem State.bits_advance (m : Nat) (s : State) (i n : Nat) : (advance m s).bits i n = s.bits i n :=
  State.bits_congr (by simp) (by simp) (by simp) n i

@[simp] theorem State.sbit_align (s : State) (i : Nat) : (align s).sbit i = s.sbit i :=
  State.sbit_congr (by simp) (by simp) (by simp) i

@[simp] theorem State.bits_align (s : State) (i n : Nat) : (align s).bits i n = s.bits i n :=
  State.bits_congr (by simp) (by simp) (by simp) n i

theorem State.sbit_of_endBit_le {s : State} {i : Nat} (h : s.work.endBit ≤ i) : s.sbit i = false := by
  simp [State.sbit, Nat.not_lt.2 h]

theorem State.bits_lt (s : State) (i n : Nat) : s.bits i n < 2 ^ n := by
  induction n generalizing i with
  | zero => simp [State.bits]
  | succ n ih =>
    have h := ih (i + 1)
    have hb : (s.sbit i).toNat ≤ 1 := by cases s.sbit i <;> simp
    simp only [State.bits, Nat.pow_succ]
    omega

/-- Bit `k` of a field is the stream bit at its place (R131). -/
theorem State.testBit_bits (s : State) (i n k : Nat) :
    (s.bits i n).testBit k = (decide (k < n) && s.sbit (i + k)) := by
  induction n generalizing i k with
  | zero => simp [State.bits]
  | succ n ih =>
    cases k with
    | zero => cases h : s.sbit i <;> simp [State.bits, h] <;> omega
    | succ k =>
      have e : ((s.sbit i).toNat + 2 * s.bits (i + 1) n) / 2 = s.bits (i + 1) n := by
        cases s.sbit i <;> simp <;> omega
      have : i + 1 + k = i + (k + 1) := by omega
      rw [State.bits, Nat.testBit_succ, e, ih, this]
      simp

/-- What `read(n)` can do (R131). -/
theorem readBits_cases (n : Nat) (s : State) :
    (s.work.endBit < s.work.bitPos + n ∧ readBits n s = .raised .starved s) ∨
      (s.work.bitPos + n ≤ s.work.endBit ∧ readBits n s = .ok (s.bits s.work.bitPos n) (advance n s)) := by
  unfold readBits
  split
  · exact .inl ⟨by omega, rfl⟩
  · exact .inr ⟨by omega, rfl⟩

theorem readBits_ok {n : Nat} {s : State} (h : s.work.bitPos + n ≤ s.work.endBit) :
    readBits n s = .ok (s.bits s.work.bitPos n) (advance n s) := by
  unfold readBits; rw [if_neg (by omega)]

theorem readBits_starved {n : Nat} {s : State} (h : s.work.endBit < s.work.bitPos + n) :
    readBits n s = .raised .starved s := by
  unfold readBits; rw [if_pos (by omega)]

theorem consume_ok {n : Nat} {s : State} (h : s.work.bitPos + n ≤ s.work.endBit) :
    consume n s = .ok () (advance n s) := by
  unfold consume; rw [if_neg (by omega)]

theorem consume_starved {n : Nat} {s : State} (h : s.work.endBit < s.work.bitPos + n) :
    consume n s = .raised .starved s := by
  unfold consume; rw [if_pos (by omega)]

@[simp] theorem Res.bind_ok {α β : Type} (a : α) (s : State) (f : α → State → Res β) :
    (Res.ok a s).bind f = f a s := rfl

@[simp] theorem Res.bind_raised {α β : Type} (c : Cause) (s : State) (f : α → State → Res β) :
    (Res.raised c s : Res α).bind f = .raised c s := rfl

@[simp] theorem finish_ok (a : Unit) (s : State) : finish (.ok a s) = .next s := rfl

@[simp] theorem finish_raised (c : Cause) (s : State) : finish (.raised c s) = .next (raise c s) := rfl

theorem Res.bind_eq_ok {α β : Type} {r : Res α} {f : α → State → Res β} {b : β} {t : State} :
    r.bind f = .ok b t ↔ ∃ a s, r = .ok a s ∧ f a s = .ok b t := by
  cases r <;> simp [Res.bind, and_assoc]

theorem Res.bind_eq_raised {α β : Type} {r : Res α} {f : α → State → Res β} {c : Cause} {t : State} :
    r.bind f = .raised c t ↔ r = .raised c t ∨ ∃ a s, r = .ok a s ∧ f a s = .raised c t := by
  cases r <;> simp [Res.bind, and_assoc]

/-- An operation ends a step in a next state: its own, or the failure's. -/
theorem finish_eq_next {r : Res Unit} {t : State} :
    finish r = .next t ↔ r = .ok () t ∨ ∃ c s, r = .raised c s ∧ t = raise c s := by
  cases r <;> simp [finish, eq_comm, and_assoc]

/-! ### Every working register but the window -/

/-- A state after the cursor moved: only BITPOS and the window differ. -/
theorem advance_eq (n : Nat) (s : State) :
    advance n s = { s with work := { s.work with
      bitPos := s.work.bitPos + n, acc := (advance n s).work.acc, nbits := (advance n s).work.nbits,
      inPos := (advance n s).work.inPos } } := by
  apply State.ext <;> simp
  apply Work.ext <;> simp

theorem align_eq (s : State) :
    align s = { s with work := { s.work with
      bitPos := 8 * ((s.work.bitPos + 7) / 8), acc := (align s).work.acc, nbits := (align s).work.nbits,
      inPos := (align s).work.inPos } } := by
  apply State.ext <;> simp
  apply Work.ext <;> simp

/-- A moved cursor, in the words the statements use. -/
theorem advance_withCursor (n : Nat) (s : State) :
    advance n s = { s with work := s.work.withCursor (s.work.bitPos + n) (advance n s).work } := advance_eq n s

theorem align_withCursor (s : State) :
    align s = { s with work := s.work.withCursor (8 * ((s.work.bitPos + 7) / 8)) (align s).work } := align_eq s

/-! ### The window -/

/-- The window but for its fill: what holds between the turns of a refill. -/
def WindowPart (s : State) : Prop :=
  s.work.bitPos + s.work.nbits = 8 * s.work.inPos ∧
    (∀ k, s.work.acc.getLsbD k = (decide (k < s.work.nbits) && s.sbit (s.work.bitPos + k))) ∧
    s.work.nbits ≤ 23 ∧ 8 * s.work.inPos ≤ s.work.endBit ∧ s.work.endBit % 8 = 0

theorem WindowOk.part {s : State} (h : WindowOk s) : WindowPart s :=
  ⟨h.1, h.2.1, h.2.2.1, h.2.2.2.1, h.2.2.2.2.1⟩

/-- One turn of the refill keeps the window's meaning, and ends full, exhausted, or a byte further. -/
theorem WindowPart.refill1 {s : State} (h : WindowPart s) :
    WindowPart (refill1 s) ∧
      ((Machine.refill1 s = s ∧ (16 ≤ s.work.nbits ∨ 8 * s.work.inPos = s.work.endBit)) ∨
        (refill1 s).work.nbits = s.work.nbits + 8) := by
  obtain ⟨h1, h2, h3, h4, h5⟩ := h
  unfold Machine.refill1
  split
  · next hc =>
    obtain ⟨hc1, hc2⟩ := hc
    refine ⟨⟨?_, ?_, ?_, ?_, h5⟩, .inr rfl⟩
    · dsimp only; omega
    · intro k
      dsimp only
      have hs : ∀ i, ({ s with
          work.acc := s.work.acc ||| ((s.read .inp s.work.inPos).setWidth 32 <<< s.work.nbits)
          work.nbits := s.work.nbits + 8
          work.inPos := s.work.inPos + 1 } : State).sbit i = s.sbit i :=
        fun i => State.sbit_congr rfl rfl rfl i
      rw [hs, BitVec.getLsbD_or, h2, BitVec.getLsbD_shiftLeft, BitVec.getLsbD_setWidth]
      by_cases hk : k < s.work.nbits
      · have h8 : k < s.work.nbits + 8 := by omega
        simp [hk, h8]
      · by_cases hk8 : k < s.work.nbits + 8
        · have hpos : s.work.bitPos + k = 8 * s.work.inPos + (k - s.work.nbits) := by omega
          have hlt : k - s.work.nbits < 8 := by omega
          have hdiv : (8 * s.work.inPos + (k - s.work.nbits)) / 8 = s.work.inPos := by omega
          have hmod : (8 * s.work.inPos + (k - s.work.nbits)) % 8 = k - s.work.nbits := by omega
          have hend : 8 * s.work.inPos + (k - s.work.nbits) < s.work.endBit := by omega
          have h32 : k < 32 := by omega
          have h32' : k - s.work.nbits < 32 := by omega
          unfold State.sbit
          rw [hpos, hdiv, hmod]
          simp [hk, hk8, hend, h32, h32']
        · have hge : 8 ≤ k - s.work.nbits := by omega
          have : (s.read .inp s.work.inPos).getLsbD (k - s.work.nbits) = false :=
            BitVec.getLsbD_of_ge _ _ hge
          simp [hk, hk8, this]
    · dsimp only; omega
    · dsimp only; omega
  · next hc =>
    refine ⟨⟨h1, h2, h3, h4, h5⟩, .inl ⟨rfl, ?_⟩⟩
    by_cases h16 : s.work.nbits < 16
    · exact .inr (by have := fun h => hc ⟨h16, h⟩; omega)
    · exact .inl (by omega)

/-- The refill fills the window (R136). -/
theorem WindowPart.refill {s : State} (h : WindowPart s) : WindowOk (refill s) := by
  obtain ⟨p1, c1⟩ := h.refill1
  obtain ⟨p2, c2⟩ := p1.refill1
  have fin : 16 ≤ (Machine.refill s).work.nbits ∨
      8 * (Machine.refill s).work.inPos = (Machine.refill s).work.endBit := by
    unfold Machine.refill
    rcases c1 with ⟨e1, f1⟩ | n1
    · rw [e1, e1]; exact f1
    · rcases c2 with ⟨e2, f2⟩ | n2
      · rw [e2]; exact f2
      · exact .inl (by omega)
  exact ⟨p2.1, p2.2.1, p2.2.2.1, p2.2.2.2.1, p2.2.2.2.2, fin⟩

/-- Dropping held bits keeps the window's meaning. -/
theorem WindowPart.drop {s : State} (h : WindowPart s) {n : Nat} (hn : n ≤ s.work.nbits) :
    WindowPart (windowDrop n { s with work.bitPos := s.work.bitPos + n }) := by
  obtain ⟨h1, h2, h3, h4, h5⟩ := h
  refine ⟨?_, ?_, ?_, ?_, ?_⟩
  · simp only [windowDrop_work_bitPos, windowDrop_work_nbits, windowDrop_work_inPos]; omega
  · intro k
    simp only [windowDrop_work_bitPos, windowDrop_work_nbits, windowDrop_work_acc]
    rw [BitVec.getLsbD_ushiftRight, h2,
      State.sbit_congr (s := s) (t := windowDrop n { s with work.bitPos := s.work.bitPos + n })
        (by simp) (by simp) (by simp)]
    have e : s.work.bitPos + (n + k) = s.work.bitPos + n + k := by omega
    have d : decide (n + k < s.work.nbits) = decide (k < s.work.nbits - n) := by
      apply decide_eq_decide.2; omega
    rw [e, d]
    rfl
  · simp only [windowDrop_work_nbits]; omega
  · simpa using h4
  · simpa using h5

/-- A window that is not exhausted holds the next `n` bits (R136). -/
theorem WindowOk.le_nbits {s : State} (h : WindowOk s) {n : Nat} (h16 : n ≤ 16)
    (hn : s.work.bitPos + n ≤ s.work.endBit) : n ≤ s.work.nbits := by
  obtain ⟨h1, -, -, -, -, h6⟩ := h
  omega

/-- The window runs out exactly when the cursor does (R136). -/
theorem WindowOk.nbits_lt_iff {s : State} (h : WindowOk s) {n : Nat} (h16 : n ≤ 16) :
    s.work.nbits < n ↔ s.work.endBit < s.work.bitPos + n := by
  obtain ⟨h1, -, -, h4, -, h6⟩ := h
  omega

/-- In a full window, moving on by 0 bits does nothing (R132). -/
theorem WindowOk.advance_zero {s : State} (h : WindowOk s) : Machine.advance 0 s = s := by
  obtain ⟨h1, -, -, h4, h5, h6⟩ := h
  have e : windowDrop 0 { s with work.bitPos := s.work.bitPos + 0 } = s := by
    apply State.ext <;> simp [windowDrop]
  have r : refill1 s = s := by
    unfold refill1
    rw [if_neg (by omega)]
  rw [Machine.advance, e, refill, r, r]

/-- Reading keeps the window a refinement of the cursor. -/
theorem WindowOk.advance {s : State} (h : WindowOk s) {n : Nat} (h16 : n ≤ 16)
    (hn : s.work.bitPos + n ≤ s.work.endBit) : WindowOk (advance n s) :=
  (h.part.drop (h.le_nbits h16 hn)).refill

/-- Aligning keeps the window a refinement of the cursor (R136). -/
theorem WindowOk.align {s : State} (h : WindowOk s) : WindowOk (align s) := by
  have h1 := h.1
  have hd : s.work.nbits % 8 ≤ s.work.nbits := Nat.mod_le _ _
  have e : 8 * ((s.work.bitPos + 7) / 8) = s.work.bitPos + s.work.nbits % 8 := by omega
  have := (h.part.drop hd).refill
  unfold Machine.align
  rw [e]
  exact this

/-- The bit-reader starts as a refinement of the cursor (R170, R136). -/
theorem WindowOk.init {s : State} (h : 6 ≤ s.work.cfg.inLen.toNat) : WindowOk (initReader s) := by
  unfold initReader
  refine WindowPart.refill ⟨?_, ?_, ?_, ?_, ?_⟩
  · dsimp only
  · intro k; simp
  · dsimp only; omega
  · dsimp only; omega
  · dsimp only; omega

/-- The window depends on the reader's registers and IN only. -/
theorem WindowOk.congr {s t : State} (h : WindowOk s) (hb : t.work.bitPos = s.work.bitPos)
    (he : t.work.endBit = s.work.endBit) (ha : t.work.acc = s.work.acc) (hn : t.work.nbits = s.work.nbits)
    (hp : t.work.inPos = s.work.inPos) (hm : t.inMem = s.inMem) (hi : t.inEpoch = s.inEpoch) : WindowOk t := by
  obtain ⟨h1, h2, h3, h4, h5, h6⟩ := h
  refine ⟨?_, ?_, ?_, ?_, ?_, ?_⟩
  · rw [hb, hn, hp]; exact h1
  · intro k; rw [ha, hn, hb, State.sbit_congr hm hi he]; exact h2 k
  · rw [hn]; exact h3
  · rw [hp, he]; exact h4
  · rw [he]; exact h5
  · rw [hn, hp, he]; exact h6

end Sys2Proof.Machine
end

