-- ==== Sys2Proof/Laws/Loops.lean ====
section
/-! SUPPORT. What the loops do: the back-copy (spec/43_inflate_symbols.md R204, R205), a stored block's data
(spec/42_inflate_blocks.md R173), a filtered row (spec/44_scanline.md R351) and a row of pixels (spec/45_pixel.md
R362). -/

namespace Sys2Proof.Machine

/-! ### Appending to OUT -/

theorem putOut_read (b : Byte) (s : State) (x : Nat) :
    (putOut b s).read .out x = if x = s.work.outPos then b else s.read .out x := by
  have : (putOut b s).read .out x = (s.write .out s.work.outPos b).read .out x :=
    State.read_congr (by rfl) (by rfl) x
  rw [this, State.read_write]
  simp

/-! ### The back-copy -/

/-- The back-copy changes OUT and OUT_POS only. -/
theorem copyBack_eq (d n : Nat) (s : State) :
    copyBack d n s = { s with
      outMem := (copyBack d n s).outMem, work := { s.work with outPos := s.work.outPos + n } } := by
  induction n generalizing s with
  | zero => rfl
  | succ n ih =>
    rw [copyBack, ih]
    apply State.ext <;> simp
    omega

theorem copyBack_read_outside (d n : Nat) (s : State) {x : Nat}
    (h : x < s.work.outPos ∨ s.work.outPos + n ≤ x) : (copyBack d n s).read .out x = s.read .out x := by
  induction n generalizing s with
  | zero => rfl
  | succ n ih =>
    rw [copyBack, ih _ (by simp only [putOut_work_outPos]; omega), putOut_read, if_neg (by omega)]

/-- Each byte of a copy is the byte `d` positions before it, as it stands after the copy. -/
theorem copyBack_read_back (d n : Nat) (s : State) (hd : 1 ≤ d) (hp : d ≤ s.work.outPos) {i : Nat} (hi : i < n) :
    (copyBack d n s).read .out (s.work.outPos + i) = (copyBack d n s).read .out (s.work.outPos + i - d) := by
  induction n generalizing s i with
  | zero => omega
  | succ n ih =>
    rw [copyBack]
    cases i with
    | zero =>
      rw [copyBack_read_outside _ _ _ (by simp only [putOut_work_outPos]; omega),
        copyBack_read_outside _ _ _ (by simp only [putOut_work_outPos]; omega), putOut_read, putOut_read,
        if_pos (by omega), if_neg (by omega)]
      simp
    | succ i =>
      have := ih (putOut (s.read .out (s.work.outPos - d)) s) (by simp only [putOut_work_outPos]; omega)
        (i := i) (by omega)
      simp only [putOut_work_outPos] at this
      have e1 : s.work.outPos + (i + 1) = s.work.outPos + 1 + i := by omega
      rw [e1, this]

/-- The overlap law (R205). -/
theorem copyBack_read (d n : Nat) (s : State) (hd : 1 ≤ d) (hp : d ≤ s.work.outPos) {i : Nat} (hi : i < n) :
    (copyBack d n s).read .out (s.work.outPos + i) = s.read .out (s.work.outPos - d + i % d) := by
  induction i using Nat.strongRecOn with
  | _ i ih =>
    rw [copyBack_read_back d n s hd hp hi]
    by_cases h : i < d
    · rw [copyBack_read_outside _ _ _ (by omega), Nat.mod_eq_of_lt h]
      congr 1; omega
    · have h1 := ih (i - d) (by omega) (by omega)
      have e : s.work.outPos + i - d = s.work.outPos + (i - d) := by omega
      rw [e, h1, Nat.mod_eq_sub_mod (a := i) (by omega)]

/-- The bytes of a copy have been written, and none is unwritten by it. -/
theorem copyBack_written (d n : Nat) (s : State) {x : Nat}
    (h : (Memory.get? s.outMem x).isSome = true ∨ (s.work.outPos ≤ x ∧ x < s.work.outPos + n)) :
    (Memory.get? (copyBack d n s).outMem x).isSome = true := by
  induction n generalizing s with
  | zero => rcases h with h | h; exact h; omega
  | succ n ih =>
    rw [copyBack]
    apply ih
    simp only [putOut_outMem, putOut_work_outPos, Memory.get?_set]
    by_cases hx : x = s.work.outPos
    · left; simp [hx]
    · rcases h with h | h
      · left; simp [hx, h]
      · right; omega

/-! ### The data of a stored block -/

/-- All the data is there: each byte is eight stream bits (R173). -/
theorem storedBytes_ok (n : Nat) (s : State) (h : s.work.bitPos + 8 * n ≤ s.work.endBit) :
    ∃ t, storedBytes n s = .ok () t ∧
      t = { s with outMem := t.outMem, work := { s.work with
        bitPos := s.work.bitPos + 8 * n, acc := t.work.acc, nbits := t.work.nbits, inPos := t.work.inPos,
        outPos := s.work.outPos + n } } ∧
      (∀ i, i < n → t.read .out (s.work.outPos + i) = BitVec.ofNat 8 (s.bits (s.work.bitPos + 8 * i) 8)) ∧
      SameOutside .out s.work.outPos n s t ∧
      (∀ x, (Memory.get? s.outMem x).isSome = true ∨ (s.work.outPos ≤ x ∧ x < s.work.outPos + n) →
        (Memory.get? t.outMem x).isSome = true) ∧
      (WindowOk s → WindowOk t) := by
  induction n generalizing s with
  | zero =>
    exact ⟨s, rfl, by apply State.ext <;> simp, fun i hi => by omega, fun x _ => rfl,
      fun x hx => hx.elim id (by omega), id⟩
  | succ n ih =>
    have h8 : s.work.bitPos + 8 ≤ s.work.endBit := by omega
    obtain ⟨t, ht, heq, hr, ho, hw, hwin⟩ :=
      ih (putOut (BitVec.ofNat 8 (s.bits s.work.bitPos 8)) (advance 8 s))
        (by simp only [putOut_work_bitPos, putOut_work_endBit, advance_work_bitPos, advance_work_endBit]; omega)
    have hbits : ∀ i n, (putOut (BitVec.ofNat 8 (s.bits s.work.bitPos 8)) (advance 8 s)).bits i n = s.bits i n :=
      fun i n => State.bits_congr (by simp) (by simp) (by simp) n i
    have hread : ∀ x, (putOut (BitVec.ofNat 8 (s.bits s.work.bitPos 8)) (advance 8 s)).read .out x =
        if x = s.work.outPos then BitVec.ofNat 8 (s.bits s.work.bitPos 8) else s.read .out x := by
      intro x
      rw [putOut_read, advance_work_outPos]
      split
      · rfl
      · exact State.read_congr (by simp [State.mem]) (by simp [State.epoch]) x
    simp only [putOut_work_bitPos, putOut_work_outPos, advance_work_bitPos, advance_work_outPos] at heq hr ho hw
    refine ⟨t, ?_, ?_, ?_, ?_, ?_, ?_⟩
    · rw [storedBytes, readBits_ok h8]; exact ht
    · rw [heq]
      apply State.ext <;> simp
      omega
    · intro i hi
      cases i with
      | zero =>
        have := ho s.work.outPos (.inl (by omega))
        rw [hread] at this
        simpa using this
      | succ i =>
        have := hr i (by omega)
        rw [hbits] at this
        have e1 : s.work.outPos + (i + 1) = s.work.outPos + 1 + i := by omega
        have e2 : s.work.bitPos + 8 * (i + 1) = s.work.bitPos + 8 + 8 * i := by omega
        rw [e1, e2, this]
    · intro x hx
      rw [ho x (by omega), hread, if_neg (by omega)]
    · intro x hx
      apply hw
      simp only [putOut_outMem, advance_work_outPos, advance_outMem, Memory.get?_set]
      by_cases hxp : x = s.work.outPos
      · left; simp [hxp]
      · rcases hx with hx | hx
        · left; simp [hxp, hx]
        · right; omega
    · intro hok
      refine hwin ((hok.advance (n := 8) (by omega) h8).congr ?_ ?_ ?_ ?_ ?_ ?_ ?_) <;> simp

/-- A byte is missing: STARVED, the earlier bytes having been copied (R173). -/
theorem storedBytes_starved (n : Nat) (s : State) (hb : s.work.bitPos ≤ s.work.endBit)
    (h : s.work.endBit < s.work.bitPos + 8 * n) :
    ∃ t, storedBytes n s = .raised .starved t ∧
      t = { s with outMem := t.outMem, work := { s.work with
        bitPos := t.work.bitPos, acc := t.work.acc, nbits := t.work.nbits, inPos := t.work.inPos,
        outPos := t.work.outPos } } := by
  induction n generalizing s with
  | zero => omega
  | succ n ih =>
    by_cases h8 : s.work.bitPos + 8 ≤ s.work.endBit
    · obtain ⟨t, ht, heq⟩ :=
        ih (putOut (BitVec.ofNat 8 (s.bits s.work.bitPos 8)) (advance 8 s))
          (by simpa using h8)
          (by simp only [putOut_work_bitPos, putOut_work_endBit, advance_work_bitPos, advance_work_endBit]; omega)
      refine ⟨t, by rw [storedBytes, readBits_ok h8]; exact ht, ?_⟩
      rw [heq]
      apply State.ext <;> simp
    · exact ⟨s, by rw [storedBytes, readBits_starved (by omega)]; rfl, by apply State.ext <;> simp⟩

/-! ### A filtered row -/

/-- A filtered row changes OUT only. -/
theorem filterFrom_eq (pred : Nat → Nat → Nat → Nat) (y n x : Nat) (s : State) :
    filterFrom pred y n x s = { s with outMem := (filterFrom pred y n x s).outMem } := by
  induction n generalizing x s with
  | zero => rfl
  | succ n ih =>
    rw [filterFrom, ih]
    apply State.ext <;> simp [filterByte]

@[simp] theorem filterFrom_work (pred : Nat → Nat → Nat → Nat) (y n x : Nat) (s : State) :
    (filterFrom pred y n x s).work = s.work := by rw [filterFrom_eq]

theorem filterFrom_read_outside (pred : Nat → Nat → Nat → Nat) (y n x : Nat) (s : State) {a : Nat}
    (h : a < s.work.rowAddr y + x ∨ s.work.rowAddr y + x + n ≤ a) :
    (filterFrom pred y n x s).read .out a = s.read .out a := by
  induction n generalizing x s with
  | zero => rfl
  | succ n ih =>
    have hw : (filterByte pred y x s).work = s.work := by simp [filterByte]
    rw [filterFrom, ih _ _ (by rw [hw]; omega), filterByte, State.read_write, if_neg (by omega)]

/-- No other memory is read differently. -/
theorem filterFrom_written (pred : Nat → Nat → Nat → Nat) (y n x : Nat) (s : State) {a : Nat}
    (h : (Memory.get? s.outMem a).isSome = true) :
    (Memory.get? (filterFrom pred y n x s).outMem a).isSome = true := by
  induction n generalizing x s with
  | zero => exact h
  | succ n ih =>
    rw [filterFrom]
    apply ih
    simp only [filterByte, write_out_outMem, Memory.get?_set]
    split
    · rfl
    · exact h

theorem Work.rowAddr_pred (w : Work) {y : Nat} (h : 1 ≤ y) : w.rowAddr (y - 1) + w.rowBytes + 1 = w.rowAddr y := by
  obtain ⟨z, rfl⟩ : ∃ z, y = z + 1 := ⟨y - 1, by omega⟩
  simp only [Work.rowAddr, Nat.add_sub_cancel, Nat.add_mul]
  omega

/-- Each byte of a row is its filtered value plus the predictor of its neighbours, all as they stand after the row
(R342, R351): the byte to the left was done before it, the row above is not touched. -/
theorem filterFrom_read (pred : Nat → Nat → Nat → Nat) (y n x : Nat) (s : State) (hb : 1 ≤ s.work.bpp)
    (hn : x + n ≤ s.work.rowBytes) {k : Nat} (h1 : x ≤ k) (h2 : k < x + n) :
    (filterFrom pred y n x s).read .out (s.work.rowAddr y + k) =
      BitVec.ofNat 8 ((s.read .out (s.work.rowAddr y + k)).toNat +
        pred ((filterFrom pred y n x s).leftByte y k) ((filterFrom pred y n x s).upByte y k)
          ((filterFrom pred y n x s).upLeftByte y k)) := by
  induction n generalizing x s with
  | zero => omega
  | succ n ih =>
    have hw : (filterByte pred y x s).work = s.work := by simp [filterByte]
    rw [filterFrom]
    by_cases hk : k = x
    · subst hk
      have hout : ∀ a, a ≤ s.work.rowAddr y + k →
          (filterFrom pred y n (k + 1) (filterByte pred y k s)).read .out a =
            (filterByte pred y k s).read .out a := by
        intro a ha
        exact filterFrom_read_outside _ _ _ _ _ (by rw [hw]; omega)
      have hne : ∀ a, a ≠ s.work.rowAddr y + k → (filterByte pred y k s).read .out a = s.read .out a := by
        intro a ha
        rw [filterByte, State.read_write, if_neg (by simpa using ha)]
      have hl : (filterFrom pred y n (k + 1) (filterByte pred y k s)).leftByte y k = s.leftByte y k := by
        unfold State.leftByte
        rw [filterFrom_work, hw]
        split
        · rw [hout _ (by omega), hne _ (by omega)]
        · rfl
      have hu : (filterFrom pred y n (k + 1) (filterByte pred y k s)).upByte y k = s.upByte y k := by
        unfold State.upByte
        rw [filterFrom_work, hw]
        split
        · next hy =>
          have := s.work.rowAddr_pred hy
          rw [hout _ (by omega), hne _ (by omega)]
        · rfl
      have hul : (filterFrom pred y n (k + 1) (filterByte pred y k s)).upLeftByte y k = s.upLeftByte y k := by
        unfold State.upLeftByte
        rw [filterFrom_work, hw]
        split
        · next hy =>
          have := s.work.rowAddr_pred hy.1
          rw [hout _ (by omega), hne _ (by omega)]
        · rfl
      rw [hl, hu, hul, hout _ (by omega)]
      rw [filterByte, State.read_write_same]
    · have := ih (x + 1) (filterByte pred y x s) (by rw [hw]; exact hb) (by rw [hw]; omega) (by omega) (by omega)
      rw [hw] at this
      rw [this]
      congr 2
      rw [filterByte, State.read_write, if_neg (by omega)]

/-! ### A row of pixels -/

theorem putPixel_eq (y x : Nat) (p : Rgba) (s : State) :
    putPixel y x p s = { s with pixMem := (putPixel y x p s).pixMem } := by
  apply State.ext <;> simp [putPixel]

/-- The four bytes of a pixel (R78). -/
theorem putPixel_read (y x : Nat) (p : Rgba) (s : State) (a : Nat) :
    (putPixel y x p s).read .pix a =
      if a = 4 * (y * s.work.cfg.width.toNat + x) + 3 then p.a
      else if a = 4 * (y * s.work.cfg.width.toNat + x) + 2 then p.b
      else if a = 4 * (y * s.work.cfg.width.toNat + x) + 1 then p.g
      else if a = 4 * (y * s.work.cfg.width.toNat + x) then p.r
      else s.read .pix a := by
  simp [putPixel, State.read_write]

/-- A pixel function that does not read PIX. -/
def IgnoresPix (pixel : State → Nat → Nat → Except Cause Rgba) : Prop :=
  ∀ s m y x, pixel { s with pixMem := m } y x = pixel s y x

theorem pixelsFrom_eq {pixel : State → Nat → Nat → Except Cause Rgba} (y n x : Nat) (s : State) :
    (∃ t, pixelsFrom pixel y n x s = .ok () t ∧ t = { s with pixMem := t.pixMem }) ∨
      (∃ c t, pixelsFrom pixel y n x s = .raised c t ∧ t = { s with pixMem := t.pixMem } ∧
        ∃ s' k, pixel s' y k = .error c) := by
  induction n generalizing x s with
  | zero => exact .inl ⟨s, rfl, by rfl⟩
  | succ n ih =>
    rw [pixelsFrom]
    cases hp : pixel s y x with
    | error c => exact .inr ⟨c, s, rfl, by rfl, s, x, hp⟩
    | ok p =>
      rcases ih (x + 1) (putPixel y x p s) with ⟨t, ht, he⟩ | ⟨c, t, ht, he, hx⟩
      · refine .inl ⟨t, ht, ?_⟩
        rw [he, putPixel_eq]
      · refine .inr ⟨c, t, ht, ?_, hx⟩
        rw [he, putPixel_eq]

/-- Every pixel of the row can be made: all are written, nothing else of PIX (R362, R375). -/
theorem pixelsFrom_ok {pixel : State → Nat → Nat → Except Cause Rgba} (hi : IgnoresPix pixel) (y n x : Nat)
    (s : State) (f : Nat → Rgba) (h : ∀ k, x ≤ k → k < x + n → pixel s y k = .ok (f k)) :
    ∃ t, pixelsFrom pixel y n x s = .ok () t ∧ t = { s with pixMem := t.pixMem } ∧
      (∀ k, x ≤ k → k < x + n →
        t.read .pix (4 * (y * s.work.cfg.width.toNat + k)) = (f k).r ∧
        t.read .pix (4 * (y * s.work.cfg.width.toNat + k) + 1) = (f k).g ∧
        t.read .pix (4 * (y * s.work.cfg.width.toNat + k) + 2) = (f k).b ∧
        t.read .pix (4 * (y * s.work.cfg.width.toNat + k) + 3) = (f k).a) ∧
      SameOutside .pix (4 * (y * s.work.cfg.width.toNat + x)) (4 * n) s t := by
  induction n generalizing x s with
  | zero => exact ⟨s, rfl, by rfl, fun k _ _ => by omega, fun a _ => rfl⟩
  | succ n ih =>
    have hx := h x (by omega) (by omega)
    have hcfg : (putPixel y x (f x) s).work.cfg = s.work.cfg := by rw [putPixel_eq]
    obtain ⟨t, ht, he, hr, ho⟩ := ih (x + 1) (putPixel y x (f x) s) (fun k h1 h2 => by
      rw [putPixel_eq, hi]; exact h k (by omega) (by omega))
    rw [hcfg] at hr ho
    refine ⟨t, by rw [pixelsFrom, hx]; exact ht, by rw [he, putPixel_eq], ?_, ?_⟩
    · intro k h1 h2
      by_cases hk : k = x
      · subst hk
        refine ⟨?_, ?_, ?_, ?_⟩ <;>
        · rw [ho _ (by left; omega), putPixel_read]
          repeat (first | rw [if_pos (by omega)] | rw [if_neg (by omega)])
      · exact hr k (by omega) (by omega)
    · intro a ha
      rw [ho a (by omega), putPixel_read, if_neg (by omega), if_neg (by omega), if_neg (by omega), if_neg (by omega)]

/-- The first pixel that cannot be made ends the run; the pixels before it have been written (R413, R374). -/
theorem pixelsFrom_raised {pixel : State → Nat → Nat → Except Cause Rgba} (hi : IgnoresPix pixel) (y n x : Nat)
    (s : State) (f : Nat → Rgba) (c : Cause) (j : Nat) (hj : x ≤ j) (hjn : j < x + n)
    (h : ∀ k, x ≤ k → k < j → pixel s y k = .ok (f k)) (hc : pixel s y j = .error c) :
    ∃ t, pixelsFrom pixel y n x s = .raised c t ∧ t = { s with pixMem := t.pixMem } ∧
      SameOutside .pix (4 * (y * s.work.cfg.width.toNat + x)) (4 * (j - x)) s t := by
  induction n generalizing x s with
  | zero => omega
  | succ n ih =>
    rw [pixelsFrom]
    by_cases hk : j = x
    · subst hk
      rw [hc]
      exact ⟨s, rfl, by rfl, fun a _ => rfl⟩
    · have hx := h x (by omega) (by omega)
      have hcfg : (putPixel y x (f x) s).work.cfg = s.work.cfg := by rw [putPixel_eq]
      obtain ⟨t, ht, he, ho⟩ := ih (x + 1) (putPixel y x (f x) s) (by omega) (by omega)
        (fun k h1 h2 => by rw [putPixel_eq, hi]; exact h k (by omega) (by omega))
        (by rw [putPixel_eq, hi]; exact hc)
      rw [hcfg] at ho
      refine ⟨t, by rw [hx]; exact ht, by rw [he, putPixel_eq], ?_⟩
      intro a ha
      rw [ho a (by omega), putPixel_read, if_neg (by omega), if_neg (by omega), if_neg (by omega), if_neg (by omega)]

/-! ### Code lengths -/

/-- A run of code lengths sets its own entries and no others (R179 to R182). -/
theorem fillLens_getElem? (v : Vector (BitVec 4) 320) (i : Nat) (x : BitVec 4) (r j : Nat) (hj : j < 320) :
    (fillLens v i x r)[j]? = if i ≤ j ∧ j < i + r then some x else v[j]? := by
  induction r generalizing v i with
  | zero => rw [fillLens, if_neg (by omega)]
  | succ r ih =>
    rw [fillLens, ih]
    by_cases h : i = j
    · subst h
      rw [if_neg (by omega), if_pos (by omega)]
      simp [hj]
    · by_cases h2 : i + 1 ≤ j ∧ j < i + 1 + r
      · rw [if_pos h2, if_pos (by omega)]
      · rw [if_neg h2, if_neg (by omega)]
        simp [h]

/-- The code-length-code lengths (R176): all the bits are there. Each listed symbol gets its three bits, the others
keep what they had, and only the cursor moves besides. -/
theorem readClLens_ok (ks : List Nat) (s : State) (hn : ks.Nodup) (hk : ∀ k ∈ ks, k < 19)
    (h : s.work.bitPos + 3 * ks.length ≤ s.work.endBit) :
    ∃ t, readClLens ks s = .ok () t ∧
      t = { s with work := { s.work.withCursor (s.work.bitPos + 3 * ks.length) t.work with
        clLens := t.work.clLens } } ∧
      (∀ y, y < 19 → t.work.clLens[y]? =
        if y ∈ ks then some (BitVec.ofNat 3 (s.bits (s.work.bitPos + 3 * ks.idxOf y) 3)) else s.work.clLens[y]?) ∧
      (WindowOk s → WindowOk t) := by
  induction ks generalizing s with
  | nil => exact ⟨s, rfl, by apply State.ext <;> simp [Work.withCursor], fun y _ => by simp, id⟩
  | cons k ks ih =>
    simp only [List.length_cons] at h
    have h3 : s.work.bitPos + 3 ≤ s.work.endBit := by omega
    obtain ⟨hkn, hn⟩ := List.nodup_cons.1 hn
    let u : State := { advance 3 s with
      work.clLens := (advance 3 s).work.clLens.setIfInBounds k (BitVec.ofNat 3 (s.bits s.work.bitPos 3)) }
    have hu : u.work.bitPos = s.work.bitPos + 3 ∧ u.work.endBit = s.work.endBit := by simp [u]
    obtain ⟨t, ht, heq, hr, hw⟩ := ih u hn (fun x hx => hk x (by simp [hx])) (by rw [hu.1, hu.2]; omega)
    have hb : ∀ i n, u.bits i n = s.bits i n := fun i n => State.bits_congr (by simp [u]) (by simp [u]) (by simp [u]) n i
    refine ⟨t, by rw [readClLens, readBits_ok h3]; exact ht, ?_, ?_, ?_⟩
    · rw [heq]
      apply State.ext <;> simp [u, Work.withCursor]
      omega
    · intro y hy
      rw [hr y hy, hu.1, hb]
      have hc : u.work.clLens = s.work.clLens.setIfInBounds k (BitVec.ofNat 3 (s.bits s.work.bitPos 3)) := by simp [u]
      by_cases hyk : y = k
      · subst hyk
        rw [if_neg hkn, if_pos (by simp), hc]
        simp [hy]
      · have hne : (k == y) = false := by simpa using fun e => hyk e.symm
        have e : s.work.bitPos + 3 * (ks.idxOf y + 1) = s.work.bitPos + 3 + 3 * ks.idxOf y := by omega
        by_cases hm : y ∈ ks
        · rw [if_pos hm, if_pos (by simp [hm]), List.idxOf_cons, hne, cond_false, e]
        · rw [if_neg hm, if_neg (by simp [hm, hyk]), hc]
          simp [Ne.symm hyk]
    · intro w
      apply hw
      exact (w.advance (by omega) h3).congr rfl rfl rfl rfl rfl rfl rfl

/-- The code-length-code lengths: a bit is missing (R176). -/
theorem readClLens_starved (ks : List Nat) (s : State) (h : s.work.endBit < s.work.bitPos + 3 * ks.length)
    (h0 : s.work.bitPos ≤ s.work.endBit) :
    ∃ t, readClLens ks s = .raised .starved t ∧ t = { s with work := t.work } := by
  induction ks generalizing s with
  | nil => simp at h; omega
  | cons k ks ih =>
    simp only [List.length_cons] at h
    by_cases h3 : s.work.bitPos + 3 ≤ s.work.endBit
    · obtain ⟨t, ht, he⟩ := ih { advance 3 s with
        work.clLens := (advance 3 s).work.clLens.setIfInBounds k (BitVec.ofNat 3 (s.bits s.work.bitPos 3)) }
        (by simp; omega) (by simpa using h3)
      refine ⟨t, by rw [readClLens, readBits_ok h3]; exact ht, ?_⟩
      rw [he]
      apply State.ext <;> simp
    · exact ⟨s, by rw [readClLens, readBits_starved (by omega)]; rfl, rfl⟩

end Sys2Proof.Machine
end

