-- ==== Sys2Proof/Laws/Steps.lean ====
section
/-! SUPPORT. What a step can be: which shared operation each element's meaning is, what every operation leaves alone,
and the cases of a step (spec/46_commands.md R394). -/

namespace Sys2Proof.Machine

/-! ### Which operation an element is -/

/-- The pixel functions of the eight formats read nothing of PIX and can fail with PALETTE_INDEX only. -/
def PixelOk (pixel : State → Nat → Nat → Except Cause Rgba) : Prop :=
  IgnoresPix pixel ∧ ∀ s y x c, pixel s y x = .error c → c = .paletteIndex

theorem indexedPixel_ok (d : Nat) : PixelOk (fun s y x => s.indexedPixel d y x) := by
  refine ⟨fun _ _ _ _ => rfl, fun s y x c h => ?_⟩
  simp only [State.indexedPixel, State.palettePixel] at h
  split at h
  · cases h; rfl
  · cases h

theorem plainPixel_ok (f : State → Nat → Nat → Rgba) (h : ∀ s m y x, f { s with pixMem := m } y x = f s y x) :
    PixelOk (fun s y x => .ok (f s y x)) :=
  ⟨fun s m y x => congrArg Except.ok (h s m y x), fun _ _ _ _ h => by cases h⟩

/-- The meaning of every element but the commands, as one of the shared operations. -/
inductive Meaning (s : State) (i : Instr) (o : Out) : Prop where
  | zlib (h : i.format = .zlib) (e : o = execZlibHdr 0 0 0 s)
  | stored (f : Bool) (h : i.format = .blk) (e : o = finish (storedBlock (blockHeader f 0 .stored s)))
  | fixed (f : Bool) (h : i.format = .blk) (e : o = finish (fixedBlock (blockHeader f 1 .fixed s)))
  | dynamic (f : Bool) (h : i.format = .blk) (e : o = finish (dynHeader (blockHeader f 2 .dynhdr s)))
  | reserved (f : Bool) (h : i.format = .blk) (e : o = .next (raise .blockType (blockHeader f 3 s.phase s)))
  | lens (r : Nat) (x : BitVec 4) (h : i.format = .clsym) (hr : r = 1) (e : o = finish (putLens r x s))
  | run (b n : Nat) (x : BitVec 4) (h : i.format = .clsym) (hn : n ≤ 7) (e : o = finish (runLens b n x s))
  | noPrevious (h : i.format = .clsym) (e : o = .next (raise .clRepeat s))
  | literal (b : Byte) (h : i.format = .ll) (e : o = execLit b s)
  | blockEnd (h : i.format = .ll) (e : o = .next (blockEnd s))
  | length (y : Nat) (h : i.format = .ll) (h1 : 257 ≤ y) (h2 : y ≤ 285) (e : o = lengthSymbol y s)
  | distance (d : Nat) (h : i.format = .dist) (h1 : d < 30) (e : o = distanceSymbol d s)
  | badSymbol (h : i.format = .ll ∨ i.format = .dist) (e : o = .next (raise .badSymbol s))
  | row (pred : Nat → Nat → Nat → Nat) (h : i.format = .row) (e : o = reconstructRow pred s)
  | pixels (pixel : State → Nat → Nat → Except Cause Rgba) (h : i.format = .pix) (hp : PixelOk pixel)
      (e : o = assembleRow pixel s)
  | start (h : i = .start) (e : o = execStart s)
  | reset (h : i = .reset) (e : o = .next (resetEngine s))

theorem exec_meaning (i : Instr) (s : State) : Meaning s i (exec i s) := by
  cases i
  case zlibHdr => exact .zlib rfl rfl
  case blkStored f => exact .stored f rfl rfl
  case blkFixed f => exact .fixed f rfl rfl
  case blkDynamic f => exact .dynamic f rfl rfl
  case blkReserved f => exact .reserved f rfl rfl
  case clLen => exact .lens 1 _ rfl rfl rfl
  case clRep16 =>
    by_cases h : s.work.lenI = 0
    · exact .noPrevious rfl (by simp only [exec, execClRep16]; rw [if_pos h])
    · exact .run 3 2 _ rfl (by omega) (by simp only [exec, execClRep16]; rw [if_neg h])
  case clZero17 => exact .run 3 3 0 rfl (by omega) rfl
  case clZero18 => exact .run 11 7 0 rfl (by omega) rfl
  case lit b => exact .literal b rfl rfl
  case eob => exact .blockEnd rfl rfl
  case ll286 => exact .badSymbol (.inl rfl) rfl
  case ll287 => exact .badSymbol (.inl rfl) rfl
  case dist30 => exact .badSymbol (.inr rfl) rfl
  case dist31 => exact .badSymbol (.inr rfl) rfl
  case filtNone => exact .row _ rfl rfl
  case filtSub => exact .row _ rfl rfl
  case filtUp => exact .row _ rfl rfl
  case filtAvg => exact .row _ rfl rfl
  case filtPaeth => exact .row _ rfl rfl
  case pixGray8 => exact .pixels _ rfl (plainPixel_ok _ fun _ _ _ _ => rfl) rfl
  case pixRgb8 => exact .pixels _ rfl (plainPixel_ok _ fun _ _ _ _ => rfl) rfl
  case pixIdx1 => exact .pixels _ rfl (indexedPixel_ok 1) rfl
  case pixIdx2 => exact .pixels _ rfl (indexedPixel_ok 2) rfl
  case pixIdx4 => exact .pixels _ rfl (indexedPixel_ok 4) rfl
  case pixIdx8 => exact .pixels _ rfl (indexedPixel_ok 8) rfl
  case pixGa8 => exact .pixels _ rfl (plainPixel_ok _ fun _ _ _ _ => rfl) rfl
  case pixRgba8 => exact .pixels _ rfl (plainPixel_ok _ fun _ _ _ _ => rfl) rfl
  case start => exact .start rfl rfl
  case reset => exact .reset rfl rfl
  case len257 => exact .length 257 rfl (by omega) (by omega) rfl
  case len258 => exact .length 258 rfl (by omega) (by omega) rfl
  case len259 => exact .length 259 rfl (by omega) (by omega) rfl
  case len260 => exact .length 260 rfl (by omega) (by omega) rfl
  case len261 => exact .length 261 rfl (by omega) (by omega) rfl
  case len262 => exact .length 262 rfl (by omega) (by omega) rfl
  case len263 => exact .length 263 rfl (by omega) (by omega) rfl
  case len264 => exact .length 264 rfl (by omega) (by omega) rfl
  case len265 => exact .length 265 rfl (by omega) (by omega) rfl
  case len266 => exact .length 266 rfl (by omega) (by omega) rfl
  case len267 => exact .length 267 rfl (by omega) (by omega) rfl
  case len268 => exact .length 268 rfl (by omega) (by omega) rfl
  case len269 => exact .length 269 rfl (by omega) (by omega) rfl
  case len270 => exact .length 270 rfl (by omega) (by omega) rfl
  case len271 => exact .length 271 rfl (by omega) (by omega) rfl
  case len272 => exact .length 272 rfl (by omega) (by omega) rfl
  case len273 => exact .length 273 rfl (by omega) (by omega) rfl
  case len274 => exact .length 274 rfl (by omega) (by omega) rfl
  case len275 => exact .length 275 rfl (by omega) (by omega) rfl
  case len276 => exact .length 276 rfl (by omega) (by omega) rfl
  case len277 => exact .length 277 rfl (by omega) (by omega) rfl
  case len278 => exact .length 278 rfl (by omega) (by omega) rfl
  case len279 => exact .length 279 rfl (by omega) (by omega) rfl
  case len280 => exact .length 280 rfl (by omega) (by omega) rfl
  case len281 => exact .length 281 rfl (by omega) (by omega) rfl
  case len282 => exact .length 282 rfl (by omega) (by omega) rfl
  case len283 => exact .length 283 rfl (by omega) (by omega) rfl
  case len284 => exact .length 284 rfl (by omega) (by omega) rfl
  case len285 => exact .length 285 rfl (by omega) (by omega) rfl
  case dist0 => exact .distance 0 rfl (by omega) rfl
  case dist1 => exact .distance 1 rfl (by omega) rfl
  case dist2 => exact .distance 2 rfl (by omega) rfl
  case dist3 => exact .distance 3 rfl (by omega) rfl
  case dist4 => exact .distance 4 rfl (by omega) rfl
  case dist5 => exact .distance 5 rfl (by omega) rfl
  case dist6 => exact .distance 6 rfl (by omega) rfl
  case dist7 => exact .distance 7 rfl (by omega) rfl
  case dist8 => exact .distance 8 rfl (by omega) rfl
  case dist9 => exact .distance 9 rfl (by omega) rfl
  case dist10 => exact .distance 10 rfl (by omega) rfl
  case dist11 => exact .distance 11 rfl (by omega) rfl
  case dist12 => exact .distance 12 rfl (by omega) rfl
  case dist13 => exact .distance 13 rfl (by omega) rfl
  case dist14 => exact .distance 14 rfl (by omega) rfl
  case dist15 => exact .distance 15 rfl (by omega) rfl
  case dist16 => exact .distance 16 rfl (by omega) rfl
  case dist17 => exact .distance 17 rfl (by omega) rfl
  case dist18 => exact .distance 18 rfl (by omega) rfl
  case dist19 => exact .distance 19 rfl (by omega) rfl
  case dist20 => exact .distance 20 rfl (by omega) rfl
  case dist21 => exact .distance 21 rfl (by omega) rfl
  case dist22 => exact .distance 22 rfl (by omega) rfl
  case dist23 => exact .distance 23 rfl (by omega) rfl
  case dist24 => exact .distance 24 rfl (by omega) rfl
  case dist25 => exact .distance 25 rfl (by omega) rfl
  case dist26 => exact .distance 26 rfl (by omega) rfl
  case dist27 => exact .distance 27 rfl (by omega) rfl
  case dist28 => exact .distance 28 rfl (by omega) rfl
  case dist29 => exact .distance 29 rfl (by omega) rfl

/-! ### What every operation leaves alone -/

/-- A memory after some writes. -/
inductive Writes (m : List Host.Cell) : List Host.Cell → Prop where
  | refl : Writes m m
  | set {n : List Host.Cell} (h : Writes m n) (a : Nat) (b : Byte) : Writes m (Memory.set n a b)

theorem Writes.trans {m n k : List Host.Cell} (h1 : Writes m n) (h2 : Writes n k) : Writes m k := by
  induction h2 with
  | refl => exact h1
  | set _ a b ih => exact ih.set a b

theorem Writes.wf {m n : List Host.Cell} (h : Writes m n) (w : Memory.wf m = true) : Memory.wf n = true := by
  induction h with
  | refl => exact w
  | set _ a b ih => exact Memory.wf_set _ a b ih

theorem Writes.isSome {m n : List Host.Cell} (h : Writes m n) {x : Nat} (w : (Memory.get? m x).isSome = true) :
    (Memory.get? n x).isSome = true := by
  induction h with
  | refl => exact w
  | set _ a b ih =>
    rw [Memory.get?_set]
    split
    · rfl
    · exact ih

/-- What phase CHECK wrote, and no element changes: the working copy of the configuration registers and the geometry
(R20, R392). -/
def Work.descriptor (w : Work) : Cfg × Nat × Nat × Nat × Nat := (w.cfg, w.bitsPP, w.rowBytes, w.bpp, w.cap)

/-- What an element may have done to a state short of ending its step: any working register but the descriptor's, the
phase, and writes to OUT and PIX. -/
def Touched (s t : State) : Prop :=
  Kept s t ∧ Writes s.outMem t.outMem ∧ Writes s.pixMem t.pixMem ∧ t.work.descriptor = s.work.descriptor

theorem Touched.descriptor {s t : State} (h : Touched s t) : t.work.descriptor = s.work.descriptor := h.2.2.2

theorem Touched.cfg {s t : State} (h : Touched s t) : t.work.cfg = s.work.cfg := congrArg Prod.fst h.descriptor

theorem Touched.refl (s : State) : Touched s s :=
  ⟨⟨⟨rfl, rfl, rfl, rfl, rfl, rfl, rfl, rfl, rfl⟩, rfl, rfl, rfl⟩, .refl, .refl, rfl⟩

theorem SameInputs.trans {s t u : State} (h1 : SameInputs s t) (h2 : SameInputs t u) : SameInputs s u := by
  obtain ⟨a1, a2, a3, a4, a5, a6, a7, a8, a9⟩ := h1
  obtain ⟨b1, b2, b3, b4, b5, b6, b7, b8, b9⟩ := h2
  exact ⟨b1.trans a1, b2.trans a2, b3.trans a3, b4.trans a4, b5.trans a5, b6.trans a6, b7.trans a7, b8.trans a8,
    b9.trans a9⟩

theorem SameStatus.trans {s t u : State} (h1 : SameStatus s t) (h2 : SameStatus t u) : SameStatus s u :=
  ⟨h2.1.trans h1.1, h2.2.1.trans h1.2.1, h2.2.2.trans h1.2.2⟩

theorem Touched.trans {s t u : State} (h1 : Touched s t) (h2 : Touched t u) : Touched s u :=
  ⟨⟨h1.1.1.trans h2.1.1, h1.1.2.trans h2.1.2⟩, h1.2.1.trans h2.2.1, h1.2.2.1.trans h2.2.2.1,
    h2.descriptor.trans h1.descriptor⟩

/-- A change of phase and of working registers other than the descriptor's only. -/
theorem Touched.of_eq {s t : State} (h : t = { s with work := t.work, phase := t.phase })
    (g : t.work.descriptor = s.work.descriptor := by rfl) : Touched s t := by
  revert g
  rw [h]
  exact fun g => ⟨⟨⟨rfl, rfl, rfl, rfl, rfl, rfl, rfl, rfl, rfl⟩, rfl, rfl, rfl⟩, .refl, .refl, g⟩

theorem Touched.advance (n : Nat) (s : State) : Touched s (advance n s) :=
  .of_eq (by rw [advance_eq]) (by simp [Work.descriptor])

theorem Touched.align (s : State) : Touched s (align s) :=
  .of_eq (by rw [align_eq]) (by simp [Work.descriptor])

theorem Touched.putOut (b : Byte) (s : State) : Touched s (putOut b s) :=
  ⟨⟨⟨rfl, rfl, rfl, rfl, rfl, rfl, rfl, rfl, rfl⟩, rfl, rfl, rfl⟩, .set .refl _ _, .refl, rfl⟩

theorem Touched.writePix (a : Nat) (b : Byte) (s : State) : Touched s (s.write .pix a b) :=
  ⟨⟨⟨rfl, rfl, rfl, rfl, rfl, rfl, rfl, rfl, rfl⟩, rfl, rfl, rfl⟩, .refl, .set .refl _ _, rfl⟩

theorem Touched.writeOut (a : Nat) (b : Byte) (s : State) : Touched s (s.write .out a b) :=
  ⟨⟨⟨rfl, rfl, rfl, rfl, rfl, rfl, rfl, rfl, rfl⟩, rfl, rfl, rfl⟩, .set .refl _ _, .refl, rfl⟩

/-- An operation of an element on a state: whatever it answers, only what `Touched` allows has happened, and a failure
has a cause. -/
inductive Res.Touches {α : Type} (s : State) : Res α → Prop where
  | ok {a : α} {t : State} (h : Touched s t) : Res.Touches s (.ok a t)
  | raised {c : Cause} {t : State} (hc : c ≠ .none) (h : Touched s t) : Res.Touches s (.raised c t)

theorem Res.Touches.bind {α β : Type} {s : State} {r : Res α} {f : α → State → Res β} (h : r.Touches s)
    (hf : ∀ a t, r = .ok a t → Touched s t → (f a t).Touches t) : (r.bind f).Touches s := by
  cases h with
  | raised hc h => exact .raised hc h
  | @ok a t h =>
    have := hf a t rfl h
    simp only [Res.bind_ok]
    generalize f a t = q at this ⊢
    cases this with
    | ok h2 => exact .ok (h.trans h2)
    | raised hc h2 => exact .raised hc (h.trans h2)

/-- The same, after a change that is itself allowed. -/
theorem Res.Touches.after {α : Type} {s t : State} {r : Res α} (h : r.Touches t) (ht : Touched s t) : r.Touches s := by
  cases h with
  | ok h => exact .ok (ht.trans h)
  | raised hc h => exact .raised hc (ht.trans h)

theorem readBits_touches (n : Nat) (s : State) : (readBits n s).Touches s := by
  rcases readBits_cases n s with ⟨-, h⟩ | ⟨-, h⟩ <;> rw [h]
  · exact .raised (by simp) (.refl s)
  · exact .ok (.advance n s)

theorem storedBytes_touches (n : Nat) (s : State) : (storedBytes n s).Touches s := by
  induction n generalizing s with
  | zero => exact .ok (.refl s)
  | succ n ih =>
    rw [storedBytes]
    exact (readBits_touches 8 s).bind fun b t _ _ => (ih _).after (.putOut _ t)

theorem storedBlock_touches (s : State) : (storedBlock s).Touches s := by
  unfold storedBlock
  refine ((readBits_touches 16 _).after (.align s)).bind fun len t _ _ => (readBits_touches 16 t).bind fun nlen t _ _ => ?_
  split
  · exact .raised (by simp) (.refl t)
  · split
    · exact .raised (by simp) (.refl t)
    · exact (storedBytes_touches len t).bind fun _ t _ _ => .ok (.of_eq rfl)

theorem fixedBlock_touches (s : State) : (fixedBlock s).Touches s := by
  unfold fixedBlock loadLlt loadDt
  split
  · exact .raised (by simp) (.refl s)
  · simp only [Res.bind_ok]
    split
    · exact .raised (by simp) (.of_eq rfl)
    · exact .ok (.of_eq rfl)

theorem readClLens_touches (ks : List Nat) (s : State) : (readClLens ks s).Touches s := by
  induction ks generalizing s with
  | nil => exact .ok (.refl s)
  | cons k ks ih =>
    rw [readClLens]
    exact (readBits_touches 3 s).bind fun x t _ _ => (ih _).after (.of_eq rfl)

theorem dynHeader_touches (s : State) : (dynHeader s).Touches s := by
  unfold dynHeader
  refine (readBits_touches 5 s).bind fun hl t _ _ => ((readBits_touches 5 _).after (.of_eq rfl)).bind fun hd t _ _ =>
    ((readBits_touches 4 _).after (.of_eq rfl)).bind fun hc t _ _ =>
      ((readClLens_touches _ _).after (.of_eq rfl)).bind fun _ t _ _ => ?_
  unfold loadClt
  split
  · exact .raised (by simp) (.refl t)
  · exact .ok (.of_eq rfl)

theorem buildTables_touches (s : State) : (buildTables s).Touches s := by
  unfold buildTables loadLlt loadDt
  split
  · exact .raised (by simp) (.refl s)
  · simp only [Res.bind_ok]
    split
    · exact .raised (by simp) (.of_eq rfl)
    · exact .ok (.of_eq rfl)

theorem putLens_touches (r : Nat) (x : BitVec 4) (s : State) : (putLens r x s).Touches s := by
  unfold putLens
  dsimp only
  split
  · exact .ok (.of_eq rfl)
  · exact (buildTables_touches _).after (.of_eq rfl)

theorem runLens_touches (b n : Nat) (x : BitVec 4) (s : State) : (runLens b n x s).Touches s := by
  unfold runLens
  refine (readBits_touches n s).bind fun e t _ _ => ?_
  split
  · exact .raised (by simp) (.refl t)
  · exact putLens_touches _ _ t

theorem Touched.copyBack (d n : Nat) (s : State) : Touched s (copyBack d n s) := by
  induction n generalizing s with
  | zero => exact .refl s
  | succ n ih => exact (Touched.putOut _ s).trans (ih _)

theorem copyMatch_touches (length distance : Nat) (s : State) : (copyMatch length distance s).Touches s := by
  unfold copyMatch
  split
  · exact .raised (by simp) (.refl s)
  · split
    · exact .raised (by simp) (.refl s)
    · exact .ok ((Touched.copyBack distance length s).trans (.of_eq rfl))

theorem Touched.filterFrom (pred : Nat → Nat → Nat → Nat) (y n x : Nat) (s : State) :
    Touched s (filterFrom pred y n x s) := by
  induction n generalizing x s with
  | zero => exact .refl s
  | succ n ih => exact (Touched.writeOut _ _ s).trans (ih _ _)

theorem Touched.putPixel (y x : Nat) (p : Rgba) (s : State) : Touched s (putPixel y x p s) :=
  (((Touched.writePix _ _ s).trans (.writePix _ _ _)).trans (.writePix _ _ _)).trans (.writePix _ _ _)

theorem pixelsFrom_touches {pixel : State → Nat → Nat → Except Cause Rgba} (hp : PixelOk pixel) (y n x : Nat)
    (s : State) : (pixelsFrom pixel y n x s).Touches s := by
  induction n generalizing x s with
  | zero => exact .ok (.refl s)
  | succ n ih =>
    rw [pixelsFrom]
    split
    · next c h => exact .raised (by rw [hp.2 _ _ _ _ h]; simp) (.refl s)
    · exact (ih _ _).after (.putPixel _ _ _ s)

/-! ### Phases -/

theorem readBits_phase {n : Nat} {s t : State} {a : Nat} (h : readBits n s = .ok a t) : t.phase = s.phase := by
  rcases readBits_cases n s with ⟨-, e⟩ | ⟨-, e⟩ <;> rw [e] at h <;> cases h
  exact advance_phase n s

theorem storedBlock_phase {s t : State} (h : storedBlock s = .ok () t) : t.phase = .infend ∨ t.phase = .blkhdr := by
  unfold storedBlock at h
  simp only [Res.bind_eq_ok] at h
  obtain ⟨len, t1, -, nlen, t2, -, h⟩ := h
  split at h
  · cases h
  · split at h
    · cases h
    · obtain ⟨a, t3, -, h⟩ := Res.bind_eq_ok.1 h
      cases h
      unfold blockEnd
      dsimp only
      split
      · exact .inl rfl
      · exact .inr rfl

theorem fixedBlock_phase {s t : State} (h : fixedBlock s = .ok () t) : t.phase = .body := by
  unfold fixedBlock at h
  simp only [Res.bind_eq_ok] at h
  obtain ⟨_, t1, -, _, t2, -, h⟩ := h
  cases h; rfl

theorem readClLens_phase {ks : List Nat} {s t : State} (h : readClLens ks s = .ok () t) : t.phase = s.phase := by
  induction ks generalizing s with
  | nil => cases h; rfl
  | cons k ks ih =>
    rw [readClLens] at h
    obtain ⟨x, u, h1, h2⟩ := Res.bind_eq_ok.1 h
    have := readBits_phase h1
    rw [ih h2]
    exact this

theorem dynHeader_phase {s t : State} (h : dynHeader s = .ok () t) : t.phase = s.phase := by
  unfold dynHeader at h
  simp only [Res.bind_eq_ok] at h
  obtain ⟨_, t1, h1, _, t2, h2, _, t3, h3, _, t4, h4, _, t5, h5, h⟩ := h
  cases h
  unfold loadClt at h5
  split at h5
  · cases h5
  · cases h5
    have e1 := readBits_phase h1
    have e2 := readBits_phase h2
    have e3 := readBits_phase h3
    have e4 := readClLens_phase h4
    exact e4.trans (e3.trans (e2.trans e1))

theorem putLens_phase {r : Nat} {x : BitVec 4} {s t : State} (h : putLens r x s = .ok () t) :
    t.phase = s.phase ∨ t.phase = .body := by
  unfold putLens at h
  dsimp only at h
  split at h
  · cases h; exact .inl rfl
  · unfold buildTables at h
    simp only [Res.bind_eq_ok] at h
    obtain ⟨_, t1, -, _, t2, -, h⟩ := h
    cases h; exact .inr rfl

theorem runLens_phase {b n : Nat} {x : BitVec 4} {s t : State} (h : runLens b n x s = .ok () t) :
    t.phase = s.phase ∨ t.phase = .body := by
  unfold runLens at h
  obtain ⟨e, u, h1, h2⟩ := Res.bind_eq_ok.1 h
  split at h2
  · cases h2
  · rw [← readBits_phase h1]; exact putLens_phase h2

/-! ### How an element ends -/

/-- The phases a step can lead to (R394; STORED and FIXED are over within the step that enters them, entry 5). -/
def laterPhases : List Phase :=
  [.zhdr, .blkhdr, .dynhdr, .body, .infend, .defilter, .assemble]

/-- How an element of a format, other than a command, can end its step. -/
inductive Ends (s : State) (f : Format) : Out → Prop where
  /-- it ran: the phase is the old one or one that follows it -/
  | ran (t : State) (h : Touched s t) (hp : t.phase = s.phase ∨ t.phase ∈ laterPhases) : Ends s f (.next t)
  /-- it failed -/
  | failed (c : Cause) (v : State) (hc : c ≠ .none) (h : Touched s v) : Ends s f (.next (raise c v))
  /-- it was the last row of the image -/
  | done (v : State) (h : Touched s v) (hf : f = .pix) (hr : s.work.row + 1 = s.work.cfg.height.toNat) :
      Ends s f (.next { v with phase := .idle, runState := .done })
  /-- it was a distance symbol with no length before it -/
  | noMatch (hf : f = .dist) (h : s.work.matchLen = none) : Ends s f (.fault .noMatchLength)

/-- From what an operation answers to how the step ends. -/
theorem Ends.finish {s : State} {f : Format} {r : Res Unit} (h : r.Touches s)
    (hp : ∀ t, r = .ok () t → t.phase = s.phase ∨ t.phase ∈ laterPhases) :
    Ends s f (Machine.finish r) := by
  cases h with
  | ok h => exact .ran _ h (hp _ rfl)
  | raised hc h => exact .failed _ _ hc h

/-- Every element but the commands ends its step in one of these ways. -/
theorem exec_ends (i : Instr) (s : State) (hi : i.format ≠ .ctrl) : Ends s i.format (exec i s) := by
  cases exec_meaning i s with
  | zlib h e =>
    rw [e]; unfold execZlibHdr
    split
    · exact .failed _ _ (by simp) (.refl s)
    · refine .ran _ (.of_eq ?_ (by simp [Work.descriptor])) (.inr (by simp [laterPhases]))
      apply State.ext <;> simp
  | stored f h e =>
    have h0 : Touched s (blockHeader f 0 .stored s) := .of_eq rfl
    rw [e]
    refine .finish ((storedBlock_touches _).after h0) fun t ht => .inr ?_
    rcases storedBlock_phase ht with h | h <;> simp [h, laterPhases]
  | fixed f h e =>
    have h0 : Touched s (blockHeader f 1 .fixed s) := .of_eq rfl
    rw [e]
    have h1 := fixedBlock_touches (blockHeader f 1 .fixed s)
    have h2 : ∀ t, fixedBlock (blockHeader f 1 .fixed s) = .ok () t → t.phase = .body := fun t => fixedBlock_phase
    generalize fixedBlock (blockHeader f 1 .fixed s) = r at h1 h2 ⊢
    exact .finish (h1.after h0) fun t ht => .inr (by simp [h2 t ht, laterPhases])
  | dynamic f h e =>
    have h0 : Touched s (blockHeader f 2 .dynhdr s) := .of_eq rfl
    rw [e]
    refine .finish ((dynHeader_touches _).after h0) fun t ht => .inr ?_
    simp [dynHeader_phase ht, laterPhases]
  | reserved f h e => rw [e]; exact .failed _ _ (by simp) (.of_eq rfl)
  | lens r x h hr e =>
    rw [e]
    refine .finish (putLens_touches _ _ _) fun t ht => ?_
    rcases putLens_phase ht with h | h
    · exact .inl h
    · exact .inr (by simp [h, laterPhases])
  | run b n x h hn e =>
    rw [e]
    refine .finish (runLens_touches _ _ _ _) fun t ht => ?_
    rcases runLens_phase ht with h | h
    · exact .inl h
    · exact .inr (by simp [h, laterPhases])
  | noPrevious h e => rw [e]; exact .failed _ _ (by simp) (.refl s)
  | literal b h e =>
    rw [e]; unfold execLit
    split
    · exact .failed _ _ (by simp) (.refl s)
    · exact .ran _ (.putOut b s) (.inl rfl)
  | blockEnd h e =>
    rw [e]
    refine .ran _ (.of_eq rfl) (.inr ?_)
    unfold Machine.blockEnd laterPhases
    dsimp only
    split <;> simp
  | length y h h1 h2 e =>
    have h0 : ∀ (t : State) m, Touched t { t with work.matchLen := m } := fun t m => .of_eq rfl
    rw [e]; unfold lengthSymbol
    have h3 := readBits_touches (lextra y) s
    have h4 : ∀ a t, readBits (lextra y) s = .ok a t → t.phase = s.phase := fun a t => readBits_phase
    generalize readBits (lextra y) s = r at h3 h4 ⊢
    cases h3 with
    | @ok a t h =>
      have := h4 a t rfl
      exact .ran _ (h.trans (h0 _ _)) (.inl this)
    | raised hc h => exact .failed _ _ hc h
  | distance d h h1 e =>
    rw [e]; unfold distanceSymbol
    split
    · next hm => exact .noMatch h hm
    · next len hm =>
      refine .finish ((readBits_touches _ s).bind fun _ t _ _ => copyMatch_touches _ _ t) fun t ht => .inl ?_
      obtain ⟨a, u, h1, h2⟩ := Res.bind_eq_ok.1 ht
      unfold copyMatch at h2
      split at h2
      · cases h2
      · split at h2
        · cases h2
        · cases h2
          have := readBits_phase h1
          dsimp only
          rw [copyBack_eq]
          exact this
  | badSymbol h e => rw [e]; exact .failed _ _ (by simp) (.refl s)
  | row pred h e =>
    rw [e]; unfold reconstructRow
    refine .ran _ ((Touched.filterFrom pred s.work.row s.work.rowBytes 0 s).trans ?_) ?_
    · unfold rowFiltered
      split <;> exact .of_eq rfl
    · rw [filterFrom_eq]
      unfold rowFiltered
      split
      · exact .inr (by simp [laterPhases])
      · exact .inl rfl
  | pixels pixel h hp e =>
    rw [e]; unfold assembleRow
    have ht := pixelsFrom_touches hp s.work.row s.work.cfg.width.toNat 0 s
    rcases pixelsFrom_eq (pixel := pixel) s.work.row s.work.cfg.width.toNat 0 s with ⟨t, e, he⟩ | ⟨c, t, e, he, -⟩
    · rw [e] at ht ⊢
      obtain ⟨ht⟩ := ht
      simp only [Res.bind_ok, finish_ok]
      have hrow : t.work.row = s.work.row := by rw [he]
      have hcfg : t.work.cfg = s.work.cfg := by rw [he]
      unfold rowAssembled
      split
      · next hl =>
        exact .done { t with work.row := t.work.row + 1 } (Touched.trans ht (.of_eq rfl)) h (by rw [← hrow, ← hcfg]; exact hl)
      · exact .ran _ (Touched.trans ht (.of_eq rfl)) (.inl (by rw [he]))
    · rw [e] at ht ⊢
      cases ht with
      | raised hc h => exact .failed c t hc h
  | start h e => rw [h] at hi; exact absurd rfl hi
  | reset h e => rw [h] at hi; exact absurd rfl hi

/-! ### The cases of a step -/

theorem rows_format (f : Format) : ∀ r ∈ f.rows, ∀ w, (r.make w).format = f := by
  cases f <;>
    simp only [Format.rows, zlibRows, blkRows, clsymRows, llRows, distRows, rowRows, pixRows, ctrlRows,
      List.forall_mem_cons, List.cons_append, List.nil_append] <;>
    (repeat' apply And.intro) <;> intros <;> first | rfl | contradiction

/-- A word that decodes in a format is an element of that format. -/
theorem format_of_decode {f : Format} {w : Nat} {i : Instr} (h : decodeWord f w = .ok i) : i.format = f := by
  unfold decodeWord at h
  split at h
  · split at h
    · next r hr =>
      injection h with h
      rw [← h]
      exact rows_format f r (List.mem_of_find?_eq_some hr) w
    · cases h
  · cases h

theorem causeOf_ne_none (e : DecodeError) : causeOf e ≠ .none := by cases e <;> simp [causeOf]

/-- An element's end, seen from the state its fetch began in. -/
theorem Ends.before {u t : State} {f : Format} {o : Out} (h : Ends t f o) (ht : Touched u t) (hp : t.phase = u.phase)
    (hr : t.work.row = u.work.row) (hm : t.work.matchLen = u.work.matchLen) : Ends u f o := by
  cases h with
  | ran v h hv => exact .ran v (ht.trans h) (hp ▸ hv)
  | failed c v hc h => exact .failed c v hc (ht.trans h)
  | done v h hf hl => exact .done v (ht.trans h) hf (by rw [← hr, ← ht.cfg]; exact hl)
  | noMatch hf h => exact .noMatch hf (hm ▸ h)

/-- The outcome of an action. -/
def Act.outcome : Act → Out
  | .run i s => exec i s
  | .out o => o

theorem step_eq (s : State) : step s = s.nextAct.outcome := by
  unfold step Act.outcome
  cases s.nextAct <;> rfl

/-- What the engine's own step gives: DONE only from ASSEMBLE, and a distance symbol only after a length. -/
def EngineEnds (u : State) (o : Out) : Prop :=
  ∃ f, Ends u f o ∧ (f = .dist → u.work.matchLen ≠ none) ∧ (f = .pix → u.phase = .assemble)

theorem EngineEnds.failed {u v : State} {c : Cause} (hc : c ≠ .none) (h : Touched u v) :
    EngineEnds u (.next (raise c v)) :=
  ⟨.zlib, .failed c v hc h, by simp, by simp⟩

theorem EngineEnds.ran {u v : State} (h : Touched u v) (hp : v.phase = u.phase ∨ v.phase ∈ laterPhases) :
    EngineEnds u (.next v) :=
  ⟨.zlib, .ran v h hp, by simp, by simp⟩

theorem EngineEnds.decode {u t : State} {f : Format} {w : Nat} (hf : f ≠ .ctrl)
    (ht : Touched u t) (hp : t.phase = u.phase) (hr : t.work.row = u.work.row)
    (hm : t.work.matchLen = u.work.matchLen) (hd : f = .dist → u.work.matchLen ≠ none)
    (ha : f = .pix → u.phase = .assemble) : EngineEnds u (Act.ofDecode (decodeWord f w) t).outcome := by
  cases hw : decodeWord f w with
  | error e => exact .failed (causeOf_ne_none e) ht
  | ok i =>
    have hi := format_of_decode hw
    have he := exec_ends i t (by rw [hi]; exact hf)
    rw [hi] at he
    exact ⟨f, he.before ht hp hr hm, hd, ha⟩

theorem EngineEnds.symbol {u : State} {f : Format} (table : Huff) (hf : f ≠ .ctrl)
    (hd : f = .dist → u.work.matchLen ≠ none) (ha : f ≠ .pix) : EngineEnds u (fetchSymbol f table u).outcome := by
  unfold fetchSymbol huffDecode
  split
  · exact .failed (by simp) (.refl u)
  · next y l hl =>
    unfold consume
    split
    · exact .failed (by simp) (.refl u)
    · exact .decode hf (.advance l u) (by simp) (by simp) (by simp) hd (fun h => absurd h ha)

/-- Phase CHECK (R392): a failed test ends the run, or the descriptor is written and PHASE is ZHDR. -/
theorem checkPhase_cases (u : State) :
    (∃ c v, c ≠ .none ∧ checkPhase u = .next (raise c v) ∧ (v = u ∨ v = setGeometry u)) ∨
      checkPhase u = .next { setGeometry u with phase := .zhdr } := by
  unfold checkPhase
  split
  · exact .inl ⟨_, u, by simp, rfl, .inl rfl⟩
  split
  · exact .inl ⟨_, u, by simp, rfl, .inl rfl⟩
  split
  · exact .inl ⟨_, u, causeOf_ne_none _, rfl, .inl rfl⟩
  split
  · exact .inl ⟨_, u, by simp, rfl, .inl rfl⟩
  split
  · exact .inl ⟨_, u, by simp, rfl, .inl rfl⟩
  dsimp only
  split
  · exact .inl ⟨_, setGeometry u, by simp, rfl, .inr rfl⟩
  split
  · exact .inl ⟨_, setGeometry u, by simp, rfl, .inr rfl⟩
  · exact .inr rfl

/-- CHECK changes working registers only. -/
theorem setGeometry_eq (u : State) : setGeometry u = { u with work := (setGeometry u).work } := rfl

/-- The engine's step after CHECK, by phase (R394). -/
theorem engine_ends (u : State) (hb : u.runState = .busy) (hp : u.phase ≠ .idle) (hc : u.phase ≠ .check) :
    EngineEnds u (engineAct u).outcome := by
  unfold engineAct
  rw [if_neg (by simp [hb])]
  cases hph : u.phase with
  | idle => exact absurd hph hp
  | check => exact absurd hph hc
  | zhdr =>
    change EngineEnds u (fetchZlib u).outcome
    unfold fetchZlib
    split
    · exact .failed (by simp) (.refl u)
    · exact .decode (by simp) (.refl u) rfl rfl rfl (by simp) (by simp)
  | blkhdr =>
    change EngineEnds u (fetchBlock u).outcome
    unfold fetchBlock
    rcases readBits_cases 1 u with ⟨-, e⟩ | ⟨-, e⟩ <;> rw [e]
    · exact .failed (by simp) (.refl u)
    · simp only [Res.bind_ok]
      rcases readBits_cases 2 (advance 1 u) with ⟨-, e⟩ | ⟨-, e⟩ <;> rw [e]
      · exact .failed (by simp) (.advance 1 u)
      · exact .decode (by simp) ((Touched.advance 1 u).trans (.advance 2 _)) (by simp) (by simp) (by simp) (by simp)
          (by simp)
  | stored =>
    change EngineEnds u (finish (storedBlock u))
    refine ⟨.blk, .finish (storedBlock_touches u) fun t ht => .inr ?_, by simp, by simp⟩
    rcases storedBlock_phase ht with h | h <;> simp [h, laterPhases]
  | fixed =>
    change EngineEnds u (finish (fixedBlock u))
    have h1 := fixedBlock_touches u
    have h2 : ∀ t, fixedBlock u = .ok () t → t.phase = .body := fun t => fixedBlock_phase
    generalize fixedBlock u = r at h1 h2 ⊢
    exact ⟨.blk, .finish h1 fun t ht => .inr (by simp [h2 t ht, laterPhases]), by simp, by simp⟩
  | dynhdr => exact .symbol u.work.clt (by simp) (by simp) (by simp)
  | body =>
    change EngineEnds u (fetchBody u).outcome
    unfold fetchBody
    split
    · exact .symbol u.work.llt (by simp) (by simp) (by simp)
    · next h => exact .symbol u.work.dt (by simp) (fun _ => by simp [h]) (by simp)
  | infend =>
    change EngineEnds u (infEnd u)
    unfold infEnd
    split
    · exact .failed (by simp) (.refl u)
    · exact .ran (.of_eq rfl) (.inr (by simp [laterPhases]))
  | defilter => exact .decode (by simp) (.refl u) rfl rfl rfl (by simp) (by simp)
  | assemble => exact .decode (by simp) (.refl u) rfl rfl rfl (by simp) (fun _ => hph)

/-- What a step can be: the engine's step in its own state, or a host access. -/
theorem step_cases (s : State) :
    (∃ u, EngineTurn s u ∧ step s = (engineAct u).outcome) ∨
      ∃ op rest, s.host = op :: rest ∧ op ≠ .wait ∧ step s = (hostAct op { s with host := rest }).outcome := by
  rw [step_eq]
  unfold State.nextAct
  cases h : s.host with
  | nil => exact .inl ⟨s, .inl ⟨h, rfl⟩, rfl⟩
  | cons op rest =>
    by_cases hw : op = .wait
    · subst hw; exact .inl ⟨_, .inr ⟨rest, h, rfl⟩, rfl⟩
    · exact .inr ⟨op, rest, rfl, hw, rfl⟩

/-- The engine has only one state to act in. -/
theorem EngineTurn.step {s u : State} (h : EngineTurn s u) : step s = (engineAct u).outcome := by
  rw [step_eq]
  rcases h with ⟨h, rfl⟩ | ⟨rest, h, rfl⟩ <;> simp only [State.nextAct, h] <;> rfl

theorem engine_idle {u : State} (h : u.runState ≠ .busy) : (engineAct u).outcome = .next u := by
  unfold engineAct; rw [if_pos h]; rfl

theorem engine_fault {u : State} (h : u.runState = .busy) (hp : u.phase = .idle) :
    (engineAct u).outcome = .fault .busyIdle := by
  unfold engineAct; rw [if_neg (by simp [h]), hp]; rfl

/-- The engine's step in phase CHECK. -/
theorem engine_check {u : State} (hb : u.runState = .busy) (hp : u.phase = .check) :
    (engineAct u).outcome = checkPhase u := by
  unfold engineAct; rw [if_neg (by simp [hb]), hp]; rfl

/-- What a next state of the engine's turn can be (R394, R392, R395, R412). Only phase CHECK writes the descriptor's
working registers, and it is the only phase that reads a configuration register (R20). -/
theorem engine_next {u t : State} (h : (engineAct u).outcome = .next t) :
    (u.runState ≠ .busy ∧ t = u) ∨
      (u.runState = .busy ∧ u.phase = .check ∧
        (t = { setGeometry u with phase := .zhdr } ∨
          ∃ c v, c ≠ .none ∧ t = raise c v ∧ (v = u ∨ v = setGeometry u))) ∨
      (u.runState = .busy ∧ u.phase ≠ .idle ∧ u.phase ≠ .check ∧
        ((Touched u t ∧ (t.phase = u.phase ∨ t.phase ∈ laterPhases)) ∨
          (∃ c v, c ≠ .none ∧ t = raise c v ∧ Touched u v) ∨
          (u.phase = .assemble ∧ u.work.row + 1 = u.work.cfg.height.toNat ∧
            ∃ v, Touched u v ∧ t = { v with phase := .idle, runState := .done }))) := by
  by_cases hb : u.runState = .busy
  · by_cases hp : u.phase = .idle
    · rw [engine_fault hb hp] at h; cases h
    by_cases hc : u.phase = .check
    · rw [engine_check hb hc] at h
      rcases checkPhase_cases u with ⟨c, v, hn, e, hv⟩ | e <;> rw [e] at h <;> cases h
      · exact .inr (.inl ⟨hb, hc, .inr ⟨c, v, hn, rfl, hv⟩⟩)
      · exact .inr (.inl ⟨hb, hc, .inl rfl⟩)
    obtain ⟨f, hE, hd, ha⟩ := engine_ends u hb hp hc
    rw [h] at hE
    refine .inr (.inr ⟨hb, hp, hc, ?_⟩)
    generalize ho : (Host.Outcome.next t : Out) = o at hE
    cases hE with
    | ran v h1 h2 => cases ho; exact .inl ⟨h1, h2⟩
    | failed c v hc h1 => cases ho; exact .inr (.inl ⟨c, v, hc, rfl, h1⟩)
    | done v h1 hf hr => cases ho; exact .inr (.inr ⟨ha hf, hr, v, h1, rfl⟩)
    | noMatch => cases ho
  · rw [engine_idle hb] at h; cases h; exact .inl ⟨hb, rfl⟩

/-- The command a CTRL write gives (R390): RESET first, then START, else nothing. -/
theorem ctrl_cases (v : Word) (s : State) :
    (v.getLsbD 1 = true ∧ (ctrlAct v s).outcome = .next (resetEngine s)) ∨
      (v.getLsbD 1 = false ∧ v.getLsbD 0 = true ∧ (ctrlAct v s).outcome = execStart s) ∨
      (v.getLsbD 1 = false ∧ v.getLsbD 0 = false ∧ (ctrlAct v s).outcome = .next s) := by
  have hlt : v.toNat < 2 ^ Format.ctrl.width := v.isLt
  have h3 : v.toNat &&& 3 = v.toNat % 4 := Nat.and_two_pow_sub_one_eq_mod v.toNat 2
  have h2 : v.toNat &&& 2 = v.toNat % 4 - v.toNat % 2 := by
    have : v.toNat &&& 2 = (v.toNat &&& 3) &&& 2 := by rw [Nat.and_assoc]; rfl
    rw [this, h3]
    have h4 : v.toNat % 4 < 4 := Nat.mod_lt _ (by omega)
    have e : v.toNat % 2 = v.toNat % 4 % 2 := by omega
    rw [e]
    generalize v.toNat % 4 = m at h4
    have : m = 0 ∨ m = 1 ∨ m = 2 ∨ m = 3 := by omega
    rcases this with rfl | rfl | rfl | rfl <;> rfl
  have b0 : v.getLsbD 0 = decide (v.toNat % 2 = 1) := by rw [BitVec.getLsbD, Nat.testBit_zero]
  have b1 : v.getLsbD 1 = decide (v.toNat / 2 % 2 = 1) := by rw [BitVec.getLsbD, Nat.testBit_succ, Nat.testBit_zero]
  rw [b0, b1]
  unfold ctrlAct decodeWord
  rw [if_pos hlt]
  simp only [Format.rows, ctrlRows, List.find?_cons, List.find?_nil, h2, h3]
  have h4 : v.toNat % 4 < 4 := Nat.mod_lt _ (by omega)
  by_cases c1 : v.toNat / 2 % 2 = 1
  · have e : (v.toNat % 4 == 1) = false := by rw [beq_eq_false_iff_ne]; omega
    have e2 : (v.toNat % 4 - v.toNat % 2 == 2) = true := by rw [beq_iff_eq]; omega
    rw [e, e2]
    exact .inl ⟨by simpa using c1, rfl⟩
  · by_cases c0 : v.toNat % 2 = 1
    · have e : (v.toNat % 4 == 1) = true := by rw [beq_iff_eq]; omega
      rw [e]
      exact .inr (.inl ⟨by simpa using c1, by simpa using c0, rfl⟩)
    · have e : (v.toNat % 4 == 1) = false := by rw [beq_eq_false_iff_ne]; omega
      have e2 : (v.toNat % 4 - v.toNat % 2 == 2) = false := by rw [beq_eq_false_iff_ne]; omega
      rw [e, e2]
      exact .inr (.inr ⟨by simpa using c1, by simpa using c0, rfl⟩)

/-- What a next state of a host access can be. -/
theorem host_next {op : HostOp} {s t : State} (hw : op ≠ .wait) (h : (hostAct op s).outcome = .next t) :
    ((op = .hardReset ∨ ∃ v, op = .regWrite 0 v ∧ v.getLsbD 1 = true) ∧ t = resetEngine s) ∨
      (∃ v, op = .regWrite 0 v ∧ v.getLsbD 1 = false ∧ v.getLsbD 0 = true ∧ s.runState ≠ .busy ∧ t = startRun s) ∨
      t = s ∨
      (∃ off v, s.runState ≠ .busy ∧ t = { s with cfg := s.cfg.put off v }) ∨
      (∃ d, t = { s with hostData := d }) ∨
      ∃ sp a b, s.runState ≠ .busy ∧ a < s.size sp ∧ t = s.write sp a b := by
  cases op with
  | wait => exact absurd rfl hw
  | hardReset => left; exact ⟨.inl rfl, by cases h; rfl⟩
  | regRead off => cases h; right; right; right; right; left; exact ⟨_, rfl⟩
  | regWrite off v =>
    by_cases ho : off = 0
    · subst ho
      change (ctrlAct v s).outcome = _ at h
      rcases ctrl_cases v s with ⟨h1, h2⟩ | ⟨h1, h2, h3⟩ | ⟨h1, h2, h3⟩
      · rw [h2] at h; cases h; left; exact ⟨.inr ⟨v, rfl, h1⟩, rfl⟩
      · rw [h3] at h; unfold execStart at h
        split at h
        · cases h; right; right; left; rfl
        · cases h; right; left; exact ⟨v, rfl, h1, h2, by assumption, rfl⟩
      · rw [h3] at h; cases h; right; right; left; rfl
    · unfold hostAct at h; dsimp only at h; rw [if_neg ho] at h
      cases h
      unfold State.regWrite
      split
      · right; right; left; rfl
      · right; right; right; left; exact ⟨off, v, by assumption, rfl⟩
  | memWrite sp a b =>
    change hostMemWrite sp a b s = _ at h
    unfold hostMemWrite at h
    split at h
    · cases h
    · split at h
      · cases h; right; right; right; right; right; exact ⟨sp, a, b, by assumption, by assumption, rfl⟩
      · cases h
  | memRead sp a =>
    change hostMemRead sp a s = _ at h
    unfold hostMemRead at h
    split at h
    · cases h
    · split at h
      · cases h; right; right; right; right; left; exact ⟨_, rfl⟩
      · cases h

end Sys2Proof.Machine
end

