-- ==== Sys2Proof/Laws/Descriptor.lean ====
section
/-! SUPPORT. No element reads a configuration register: the engine works from the copy that phase CHECK made
(spec/10_state.md R20, spec/46_commands.md R396). Every operation commutes with a change of the registers. -/

namespace Sys2Proof.Machine

/-- A state with other configuration registers. -/
def State.withCfg (s : State) (c : Cfg) : State := { s with cfg := c }

/-- The same change in what an operation answers. -/
def Res.withCfg {α : Type} (c : Cfg) : Res α → Res α
  | .ok a s => .ok a (s.withCfg c)
  | .raised k s => .raised k (s.withCfg c)

/-- The same change in a step's outcome. -/
def outWithCfg (c : Cfg) : Out → Out
  | .next s => .next (s.withCfg c)
  | .fault f => .fault f
  | .refused r => .refused r

/-- An operation that neither reads nor writes the configuration registers. -/
def BlindTo {α : Type} (f : State → Res α) : Prop := ∀ s c, f (s.withCfg c) = (f s).withCfg c

/-- The same, of an operation that always answers a state. -/
def Passive (f : State → State) : Prop := ∀ s c, f (s.withCfg c) = (f s).withCfg c

theorem BlindTo.ok {α : Type} (a : α) {f : State → State} (h : Passive f) : BlindTo fun s => .ok a (f s) :=
  fun s c => congrArg (Res.ok a) (h s c)

/-- A test that sees no configuration register. -/
theorem ite_map {α β : Type} (F : α → β) {p : Prop} [Decidable p] {a b : α} {a' b' : β} (ha : a' = F a)
    (hb : b' = F b) : (if p then a' else b') = F (if p then a else b) := by
  split <;> assumption

theorem BlindTo.raised {α : Type} (k : Cause) : BlindTo (α := α) (.raised k) := fun _ _ => rfl

theorem BlindTo.bind {α β : Type} {f : State → Res α} {g : α → State → Res β} (hf : BlindTo f)
    (hg : ∀ a, BlindTo (g a)) : BlindTo fun s => (f s).bind g := by
  intro s c
  dsimp only
  rw [hf]
  cases f s with
  | ok a t => exact hg a t c
  | raised k t => rfl

theorem BlindTo.after {α : Type} {f : State → Res α} {g : State → State} (hf : BlindTo f) (hg : Passive g) :
    BlindTo fun s => f (g s) := fun s c => by dsimp only; rw [hg]; exact hf _ c

theorem BlindTo.ite {α : Type} {p : State → Prop} [DecidablePred p] {f g : State → Res α}
    (hp : ∀ s c, p (s.withCfg c) ↔ p s) (hf : BlindTo f) (hg : BlindTo g) :
    BlindTo fun s => if p s then f s else g s := by
  intro s c
  by_cases h : p s
  · dsimp only; rw [if_pos h, if_pos ((hp s c).2 h)]; exact hf s c
  · dsimp only; rw [if_neg h, if_neg (mt (hp s c).1 h)]; exact hg s c

theorem Passive.comp {f g : State → State} (hf : Passive f) (hg : Passive g) : Passive fun s => f (g s) :=
  fun s c => by dsimp only; rw [hg, hf]

/-! ### The bit-reader -/

theorem refill1_passive : Passive refill1 := by
  intro s c
  unfold refill1
  exact ite_map (State.withCfg · c) rfl rfl

theorem refill_passive : Passive refill := refill1_passive.comp refill1_passive

theorem advance_passive (n : Nat) : Passive (advance n) := fun s c =>
  refill_passive (windowDrop n { s with work.bitPos := s.work.bitPos + n }) c

theorem align_passive : Passive align := fun s c =>
  refill_passive (windowDrop (s.work.nbits % 8) { s with work.bitPos := 8 * ((s.work.bitPos + 7) / 8) }) c

theorem initReader_passive : Passive initReader := fun s c =>
  refill_passive { s with
    work.endBit := 8 * (s.work.cfg.inLen.toNat - 4), work.bitPos := 16, work.acc := 0, work.nbits := 0
    work.inPos := 2 } c

theorem bits_withCfg (s : State) (c : Cfg) (i n : Nat) : (s.withCfg c).bits i n = s.bits i n :=
  State.bits_congr (s := s) (t := s.withCfg c) rfl rfl rfl n i

theorem readBits_blind (n : Nat) : BlindTo (readBits n) := by
  intro s c
  unfold readBits
  rw [bits_withCfg, advance_passive]
  exact ite_map (Res.withCfg c) rfl rfl

theorem consume_blind (n : Nat) : BlindTo (consume n) := by
  intro s c
  unfold consume
  rw [advance_passive]
  exact ite_map (Res.withCfg c) rfl rfl

theorem huffDecode_blind (t : Huff) : BlindTo (huffDecode t) := by
  intro s c
  unfold huffDecode
  have e : (s.withCfg c).peekbit = s.peekbit := rfl
  rw [e]
  cases t.lookup s.peekbit with
  | none => rfl
  | some p => exact (consume_blind p.2).bind (fun _ => .ok _ fun _ _ => rfl) s c

/-! ### Blocks -/

theorem putOut_passive (b : Byte) : Passive (putOut b) := fun _ _ => rfl

theorem storedBytes_blind (n : Nat) : BlindTo (storedBytes n) := by
  induction n with
  | zero => exact fun _ _ => rfl
  | succ n ih => exact (readBits_blind 8).bind fun b => ih.after (putOut_passive _)

theorem storedBlock_blind : BlindTo storedBlock :=
  ((readBits_blind 16).after align_passive).bind fun len => (readBits_blind 16).bind fun _ =>
    .ite (fun _ _ => Iff.rfl) (.raised _) (.ite (fun _ _ => Iff.rfl) (.raised _)
      ((storedBytes_blind len).bind fun _ => .ok _ fun _ _ => rfl))

theorem loadLlt_blind (lens : List Nat) (n : Nat) : BlindTo (loadLlt lens n) := by
  intro s c; unfold loadLlt; split <;> rfl

theorem loadDt_blind (lens : List Nat) (n : Nat) : BlindTo (loadDt lens n) := by
  intro s c; unfold loadDt; split <;> rfl

theorem fixedBlock_blind : BlindTo fixedBlock :=
  (loadLlt_blind _ _).bind fun _ => (loadDt_blind _ _).bind fun _ => .ok _ fun _ _ => rfl

theorem readClLens_blind (ks : List Nat) : BlindTo (readClLens ks) := by
  induction ks with
  | nil => exact fun _ _ => rfl
  | cons k ks ih =>
    exact (readBits_blind 3).bind fun x => ih.after
      (g := fun s => { s with work.clLens := s.work.clLens.setIfInBounds k (BitVec.ofNat 3 x) }) fun _ _ => rfl

theorem loadClt_blind : BlindTo loadClt := by
  intro s c
  unfold loadClt
  have e : (s.withCfg c).work = s.work := rfl
  rw [e]
  split <;> rfl

theorem dynHeader_blind : BlindTo dynHeader :=
  (readBits_blind 5).bind fun hl =>
    ((readBits_blind 5).after (g := fun s => { s with work.hlit := hl + 257 }) fun _ _ => rfl).bind fun hd =>
      ((readBits_blind 4).after (g := fun s => { s with work.hdist := hd + 1 }) fun _ _ => rfl).bind fun hc =>
        ((readClLens_blind _).after
          (g := fun s => { s with work.hclen := hc + 4, work.clLens := Vector.replicate 19 0 }) fun _ _ => rfl).bind
          fun _ => loadClt_blind.bind fun _ => .ok () (f := fun s => { s with work.lenI := 0 }) fun _ _ => rfl

theorem buildTables_blind : BlindTo buildTables := by
  have hd : BlindTo fun t => (loadDt t.work.distLens t.work.hdist t).bind fun _ t => .ok () (enterBody t) :=
    fun t c => (loadDt_blind t.work.distLens t.work.hdist).bind (fun _ => .ok () fun _ _ => rfl) t c
  exact fun s c => (loadLlt_blind s.work.litLens s.work.hlit).bind (fun _ => hd) s c

theorem putLens_blind (r : Nat) (x : BitVec 4) : BlindTo (putLens r x) := fun s c =>
  (BlindTo.ite (p := fun s => s.work.lenI < s.work.lensTotal) (fun _ _ => Iff.rfl)
    (.ok () (f := fun s => s) fun _ _ => rfl) buildTables_blind).after
    (g := fun s => { s with work.lens := fillLens s.work.lens s.work.lenI x r, work.lenI := s.work.lenI + r })
    (fun _ _ => rfl) s c

theorem runLens_blind (b n : Nat) (x : BitVec 4) : BlindTo (runLens b n x) :=
  (readBits_blind n).bind fun _ => .ite (fun _ _ => Iff.rfl) (.raised _) (putLens_blind _ _)

/-! ### Matches, rows and pixels -/

theorem copyBack_passive (d n : Nat) : Passive (copyBack d n) := by
  induction n with
  | zero => exact fun _ _ => rfl
  | succ n ih => exact fun s c => ih (putOut (s.read .out (s.work.outPos - d)) s) c

theorem copyMatch_blind (length distance : Nat) : BlindTo (copyMatch length distance) :=
  .ite (fun _ _ => Iff.rfl) (.raised _) (.ite (fun _ _ => Iff.rfl) (.raised _)
    (.ok () (f := fun s => { copyBack distance length s with work.matchLen := none })
      fun s c => by dsimp only; rw [copyBack_passive]; rfl))

theorem filterFrom_passive (pred : Nat → Nat → Nat → Nat) (y n x : Nat) : Passive (filterFrom pred y n x) := by
  induction n generalizing x with
  | zero => exact fun _ _ => rfl
  | succ n ih => exact fun s c => ih (x + 1) (filterByte pred y x s) c

theorem rowFiltered_passive : Passive rowFiltered := by
  intro s c
  unfold rowFiltered
  exact ite_map (State.withCfg · c) rfl rfl

theorem rowAssembled_passive : Passive rowAssembled := by
  intro s c
  unfold rowAssembled
  exact ite_map (State.withCfg · c) rfl rfl

/-- A pixel function that reads no configuration register. -/
def IgnoresCfg (pixel : State → Nat → Nat → Except Cause Rgba) : Prop :=
  ∀ s c y x, pixel (s.withCfg c) y x = pixel s y x

theorem pixelsFrom_blind {pixel : State → Nat → Nat → Except Cause Rgba} (h : IgnoresCfg pixel) (y n x : Nat) :
    BlindTo (pixelsFrom pixel y n x) := by
  induction n generalizing x with
  | zero => exact fun _ _ => rfl
  | succ n ih =>
    intro s c
    rw [pixelsFrom, pixelsFrom, h]
    cases pixel s y x with
    | error k => rfl
    | ok p => exact ih (x + 1) (putPixel y x p s) c

/-! ### Elements -/

theorem finish_withCfg (r : Res Unit) (c : Cfg) : finish (r.withCfg c) = outWithCfg c (finish r) := by
  cases r <;> rfl

theorem BlindTo.finish {f : State → Res Unit} (h : BlindTo f) (s : State) (c : Cfg) :
    Machine.finish (f (s.withCfg c)) = outWithCfg c (Machine.finish (f s)) := by rw [h, finish_withCfg]

theorem execZlibHdr_blind (a b d : Nat) (s : State) (c : Cfg) :
    execZlibHdr a b d (s.withCfg c) = outWithCfg c (execZlibHdr a b d s) := by
  unfold execZlibHdr
  rw [initReader_passive]
  exact ite_map (outWithCfg c) rfl rfl

theorem execLit_blind (b : Byte) (s : State) (c : Cfg) : execLit b (s.withCfg c) = outWithCfg c (execLit b s) := by
  unfold execLit
  exact ite_map (outWithCfg c) rfl rfl

theorem execClRep16_blind (s : State) (c : Cfg) : execClRep16 (s.withCfg c) = outWithCfg c (execClRep16 s) := by
  unfold execClRep16
  exact ite_map (outWithCfg c) rfl ((runLens_blind 3 2 _).finish s c)

theorem lengthSymbol_blind (y : Nat) (s : State) (c : Cfg) :
    lengthSymbol y (s.withCfg c) = outWithCfg c (lengthSymbol y s) :=
  ((readBits_blind (lextra y)).bind fun e =>
    .ok () (f := fun s => { s with work.matchLen := some (lbase y + e) }) fun _ _ => rfl).finish s c

theorem distanceSymbol_blind (d : Nat) (s : State) (c : Cfg) :
    distanceSymbol d (s.withCfg c) = outWithCfg c (distanceSymbol d s) := by
  unfold distanceSymbol
  have e : (s.withCfg c).work = s.work := rfl
  rw [e]
  split
  · rfl
  · exact ((readBits_blind (dextra d)).bind fun e => copyMatch_blind _ _).finish s c

theorem reconstructRow_blind (pred : Nat → Nat → Nat → Nat) (s : State) (c : Cfg) :
    reconstructRow pred (s.withCfg c) = outWithCfg c (reconstructRow pred s) := by
  unfold reconstructRow
  have e : (s.withCfg c).work = s.work := rfl
  rw [e, filterFrom_passive, rowFiltered_passive]
  rfl

theorem assembleRow_blind {pixel : State → Nat → Nat → Except Cause Rgba} (h : IgnoresCfg pixel) (s : State) (c : Cfg) :
    assembleRow pixel (s.withCfg c) = outWithCfg c (assembleRow pixel s) :=
  ((pixelsFrom_blind h s.work.row s.work.cfg.width.toNat 0).bind fun _ => .ok () rowAssembled_passive).finish s c

/-- No element of the engine reads a configuration register (R20). -/
theorem exec_withCfg (i : Instr) (hi : i.format ≠ .ctrl) (s : State) (c : Cfg) :
    exec i (s.withCfg c) = outWithCfg c (exec i s) := by
  cases i
  case zlibHdr a b d => exact execZlibHdr_blind a b d s c
  case blkStored f => exact storedBlock_blind.finish (blockHeader f 0 .stored s) c
  case blkFixed f => exact fixedBlock_blind.finish (blockHeader f 1 .fixed s) c
  case blkDynamic f => exact dynHeader_blind.finish (blockHeader f 2 .dynhdr s) c
  case clLen len => exact (putLens_blind 1 _).finish s c
  case clRep16 => exact execClRep16_blind s c
  case clZero17 => exact (runLens_blind 3 3 0).finish s c
  case clZero18 => exact (runLens_blind 11 7 0).finish s c
  case lit b => exact execLit_blind b s c
  case start => exact absurd rfl hi
  case reset => exact absurd rfl hi
  all_goals first
    | rfl
    | exact reconstructRow_blind _ s c
    | exact assembleRow_blind (fun _ _ _ _ => rfl) s c
    | exact lengthSymbol_blind _ s c
    | exact distanceSymbol_blind _ s c

/-! ### The engine's step -/

/-- A decoded element, or the failure its word raises. -/
theorem ofDecode_withCfg (r : Except DecodeError Instr) (hr : ∀ i, r = .ok i → i.format ≠ .ctrl) (s : State) (c : Cfg) :
    (Act.ofDecode r (s.withCfg c)).outcome = outWithCfg c (Act.ofDecode r s).outcome := by
  cases r with
  | error e => rfl
  | ok i => exact exec_withCfg i (hr i rfl) s c

/-- A fetch through the bit-reader. -/
theorem ofFetch_withCfg {f : State → Res (Except DecodeError Instr)} (hf : BlindTo f)
    (hr : ∀ s i t, f s = .ok (.ok i) t → i.format ≠ .ctrl) (s : State) (c : Cfg) :
    (Act.ofFetch (f (s.withCfg c))).outcome = outWithCfg c (Act.ofFetch (f s)).outcome := by
  rw [hf]
  cases h : f s with
  | ok d t => exact ofDecode_withCfg d (fun i hi => hr s i t (by rw [h, hi])) t c
  | raised k t => rfl

theorem fetchSymbol_withCfg (f : Format) (hc : f ≠ .ctrl) (t : Huff) (s : State) (c : Cfg) :
    (fetchSymbol f t (s.withCfg c)).outcome = outWithCfg c (fetchSymbol f t s).outcome := by
  refine ofFetch_withCfg (f := fun s => (huffDecode t s).bind fun y s => .ok (decodeWord f y) s)
    ((huffDecode_blind t).bind fun y => .ok _ fun _ _ => rfl) ?_ s c
  intro s i t h
  obtain ⟨y, u, -, h⟩ := Res.bind_eq_ok.1 h
  injection h with h1
  rw [format_of_decode h1]; exact hc

/-- The engine's step reads the configuration registers in phase CHECK only (R20). -/
theorem engine_withCfg (u : State) (h : u.phase ≠ .check) (c : Cfg) :
    (engineAct (u.withCfg c)).outcome = outWithCfg c (engineAct u).outcome := by
  unfold engineAct
  by_cases hb : u.runState ≠ .busy
  · rw [if_pos hb, if_pos (show (u.withCfg c).runState ≠ .busy from hb)]; rfl
  rw [if_neg hb, if_neg (show ¬ (u.withCfg c).runState ≠ .busy from hb)]
  have ep : (u.withCfg c).phase = u.phase := rfl
  rw [ep]
  cases hp : u.phase with
  | idle => rfl
  | check => exact absurd hp h
  | zhdr =>
    change (fetchZlib (u.withCfg c)).outcome = outWithCfg c (fetchZlib u).outcome
    unfold fetchZlib
    by_cases h6 : u.work.cfg.inLen.toNat < 6
    · rw [if_pos h6, if_pos (show (u.withCfg c).work.cfg.inLen.toNat < 6 from h6)]; rfl
    · rw [if_neg h6, if_neg (show ¬ (u.withCfg c).work.cfg.inLen.toNat < 6 from h6)]
      exact ofDecode_withCfg _ (fun i hi => by rw [format_of_decode hi]; simp) u c
  | blkhdr =>
    refine ofFetch_withCfg (f := fun s => (readBits 1 s).bind fun f s => (readBits 2 s).bind fun t s =>
      .ok (decodeWord .blk (f + 2 * t)) s) ?_ ?_ u c
    · exact (readBits_blind 1).bind fun _ => (readBits_blind 2).bind fun _ => .ok _ fun _ _ => rfl
    · intro s i t h
      obtain ⟨y, u, -, h⟩ := Res.bind_eq_ok.1 h
      obtain ⟨y, u, -, h⟩ := Res.bind_eq_ok.1 h
      injection h with h1
      rw [format_of_decode h1]; simp
  | stored => exact storedBlock_blind.finish u c
  | fixed => exact fixedBlock_blind.finish u c
  | dynhdr => exact fetchSymbol_withCfg _ (by simp) u.work.clt u c
  | body =>
    change (fetchBody (u.withCfg c)).outcome = outWithCfg c (fetchBody u).outcome
    unfold fetchBody
    have e : (u.withCfg c).work = u.work := rfl
    rw [e]
    split
    · exact fetchSymbol_withCfg _ (by simp) _ u c
    · exact fetchSymbol_withCfg _ (by simp) _ u c
  | infend =>
    change infEnd (u.withCfg c) = outWithCfg c (infEnd u)
    unfold infEnd
    exact ite_map (outWithCfg c) rfl rfl
  | defilter => exact ofDecode_withCfg _ (fun i hi => by rw [format_of_decode hi]; simp) u c
  | assemble => exact ofDecode_withCfg _ (fun i hi => by rw [format_of_decode hi]; simp) u c

end Sys2Proof.Machine
end

