-- ==== Sys2Proof/Laws/Elements.lean ====
section
/-! SUPPORT. What each shared operation of the block elements does, for proofs that cite it instead of unfolding it:
the symbols by number, the stored block, the fixed tables, the dynamic header, the code lengths. -/

namespace Sys2Proof.Machine

/-! ### Symbols by number -/

/-- The symbols 0 to 255 of format LL (R250). -/
theorem decode_lit {y : Nat} (h : y < 256) : decodeWord .ll y = .ok (.lit (BitVec.ofNat 8 y)) := by
  have key : ∀ a : Fin 256, decodeWord .ll a.val = .ok (.lit (BitVec.ofNat 8 a.val)) := by decide +kernel
  exact key ⟨y, h⟩

/-- The elements of the symbols 257 to 285. -/
def lengthElements : List Instr :=
  [.len257, .len258, .len259, .len260, .len261, .len262, .len263, .len264, .len265, .len266, .len267, .len268, .len269,
    .len270, .len271, .len272, .len273, .len274, .len275, .len276, .len277, .len278, .len279, .len280, .len281, .len282,
    .len283, .len284, .len285]

/-- The elements of the distance symbols 0 to 29. -/
def distanceElements : List Instr :=
  [.dist0, .dist1, .dist2, .dist3, .dist4, .dist5, .dist6, .dist7, .dist8, .dist9, .dist10, .dist11, .dist12, .dist13,
    .dist14, .dist15, .dist16, .dist17, .dist18, .dist19, .dist20, .dist21, .dist22, .dist23, .dist24, .dist25, .dist26,
    .dist27, .dist28, .dist29]

/-- A length symbol's element is the shared operation at its number (R201). -/
theorem decode_length {y : Nat} (h1 : 257 ≤ y) (h2 : y ≤ 285) :
    ∃ i, decodeWord .ll y = .ok i ∧ i ∈ lengthElements ∧ ∀ s, exec i s = lengthSymbol y s := by
  obtain ⟨k, rfl⟩ := Nat.exists_eq_add_of_le h1
  have hk : k < 29 := by omega
  clear h1 h2
  have e : ∀ k : Fin 29, decodeWord .ll (257 + k.val) = .ok (lengthElements[k.val]'k.isLt) := by decide +kernel
  refine ⟨_, e ⟨k, hk⟩, List.getElem_mem _, fun s => ?_⟩
  rcases k with _ | _ | _ | _ | _ | _ | _ | _ | _ | _ | _ | _ | _ | _ | _ | _ | _ | _ | _ | _ | _ | _ | _ | _ | _ | _ | _
    | _ | _ | k <;> first | rfl | omega

/-- A distance symbol's element is the shared operation at its number (R202). -/
theorem decode_distance {d : Nat} (h : d ≤ 29) :
    ∃ i, decodeWord .dist d = .ok i ∧ i ∈ distanceElements ∧ ∀ s, exec i s = distanceSymbol d s := by
  have hd : d < 30 := by omega
  clear h
  have e : ∀ k : Fin 30, decodeWord .dist k.val = .ok (distanceElements[k.val]'k.isLt) := by decide +kernel
  refine ⟨_, e ⟨d, hd⟩, List.getElem_mem _, fun s => ?_⟩
  rcases d with _ | _ | _ | _ | _ | _ | _ | _ | _ | _ | _ | _ | _ | _ | _ | _ | _ | _ | _ | _ | _ | _ | _ | _ | _ | _ | _
    | _ | _ | _ | d <;> first | rfl | omega

/-! ### The stored block -/

/-- Eight stream bits at a byte boundary are a byte of IN (R60). -/
theorem byte_bits (s : State) (a : Nat) (h : 8 * a + 8 ≤ s.work.endBit) :
    BitVec.ofNat 8 (s.bits (8 * a) 8) = s.read .inp a := by
  apply BitVec.eq_of_getLsbD_eq
  intro i hi
  rw [BitVec.getLsbD_ofNat, State.testBit_bits]
  have e1 : (8 * a + i) / 8 = a := by omega
  have e2 : (8 * a + i) % 8 = i := by omega
  have h3 : 8 * a + i < s.work.endBit := by omega
  simp [hi, State.sbit, e1, e2, h3]

/-- The test of LEN against NLEN (R173), as a subtraction. -/
theorem xor_eq_ffff {a b : Nat} (ha : a < 2 ^ 16) (hb : b < 2 ^ 16) : a ^^^ b = 0xFFFF ↔ b = 0xFFFF - a := by
  have hsub := Nat.testBit_two_pow_sub_succ ha
  have e : 0xFFFF - a = 2 ^ 16 - (a + 1) := by omega
  have f : (0xFFFF : Nat) = 2 ^ 16 - 1 := rfl
  have high : ∀ c : Nat, c < 2 ^ 16 → ∀ i, ¬ i < 16 → c.testBit i = false := fun c hc i hi =>
    Nat.testBit_lt_two_pow (Nat.lt_of_lt_of_le hc (Nat.pow_le_pow_right (by omega) (by omega)))
  constructor
  · intro h
    apply Nat.eq_of_testBit_eq
    intro i
    rw [e, hsub]
    have hi : (a ^^^ b).testBit i = (0xFFFF : Nat).testBit i := by rw [h]
    rw [Nat.testBit_xor, f, Nat.testBit_two_pow_sub_one] at hi
    by_cases h16 : i < 16
    · simp [h16] at hi ⊢; revert hi; cases a.testBit i <;> cases b.testBit i <;> simp
    · simp [h16, high b hb i h16]
  · rintro rfl
    apply Nat.eq_of_testBit_eq
    intro i
    rw [Nat.testBit_xor, e, hsub, f, Nat.testBit_two_pow_sub_one]
    by_cases h16 : i < 16
    · simp [h16]
    · simp [h16, high a ha i h16]

/-- The state a stored block's data begins in. -/
def afterLengths (s : State) : State := advance 16 (advance 16 (align s))

/-- A stored block whose LEN and NLEN are there (R173). -/
theorem storedBlock_eq (s : State) (h : 8 * ((s.work.bitPos + 7) / 8) + 32 ≤ s.work.endBit) :
    storedBlock s =
      if s.bits (8 * ((s.work.bitPos + 7) / 8)) 16 ^^^ s.bits (8 * ((s.work.bitPos + 7) / 8) + 16) 16 ≠ 0xFFFF then
        .raised .storedLen (afterLengths s)
      else if s.work.outPos + s.bits (8 * ((s.work.bitPos + 7) / 8)) 16 > s.work.cap then
        .raised .outCapacity (afterLengths s)
      else (storedBytes (s.bits (8 * ((s.work.bitPos + 7) / 8)) 16) (afterLengths s)).bind fun _ s =>
        .ok () (blockEnd s) := by
  unfold storedBlock afterLengths
  rw [readBits_ok (by simp; omega)]
  simp only [Res.bind_ok]
  rw [readBits_ok (by simp; omega)]
  simp

/-- A stored block whose LEN or NLEN is not all there (R173). -/
theorem storedBlock_starved (s : State) (h : s.work.endBit < 8 * ((s.work.bitPos + 7) / 8) + 32) :
    ∃ t, storedBlock s = .raised .starved t ∧ t = { s with work := t.work } := by
  unfold storedBlock
  by_cases h1 : 8 * ((s.work.bitPos + 7) / 8) + 16 ≤ s.work.endBit
  · rw [readBits_ok (by simpa using h1)]
    simp only [Res.bind_ok]
    rw [readBits_starved (by simp; omega)]
    exact ⟨_, rfl, by apply State.ext <;> simp⟩
  · rw [readBits_starved (by simp; omega)]
    exact ⟨_, rfl, by apply State.ext <;> simp⟩

/-! ### The fixed tables -/

/-- FIXLL and FIXD have tables (R157, R174). -/
theorem fixed_tables : Huff.build fixLL 288 = some fixedLlt ∧ Huff.build fixD 32 = some fixedDt := by decide +kernel

/-- A fixed block loads them and enters the body (R174). -/
theorem fixedBlock_eq (s : State) :
    fixedBlock s = .ok () (enterBody { s with work.llt := fixedLlt, work.dt := fixedDt }) := by
  obtain ⟨hl, hd⟩ := fixed_tables
  unfold fixedBlock loadLlt loadDt
  rw [hl, hd]
  generalize fixedLlt = a
  generalize fixedDt = b
  rfl

/-! ### Code lengths -/

/-- CLORDER lists each code-length symbol once (R45, R94). -/
theorem clOrder_perm : clOrder.Nodup ∧ (∀ k ∈ clOrder, k < 19) ∧ clOrder.length = 19 ∧ ∀ y, y < 19 → y ∈ clOrder := by
  decide +kernel

/-- Below the last length the loop goes on (R178). -/
theorem putLens_lt (r : Nat) (x : BitVec 4) (s : State) (h : s.work.lenI + r < s.work.hlit + s.work.hdist) :
    putLens r x s =
      .ok () { s with work.lens := fillLens s.work.lens s.work.lenI x r, work.lenI := s.work.lenI + r } := by
  simp [putLens, Work.lensTotal, h]

/-- At the last length the tables are built (R183). -/
theorem putLens_eq (r : Nat) (x : BitVec 4) (s : State) (h : s.work.lenI + r = s.work.hlit + s.work.hdist) :
    putLens r x s =
      buildTables { s with work.lens := fillLens s.work.lens s.work.lenI x r, work.lenI := s.work.lenI + r } := by
  simp [putLens, Work.lensTotal, h]

/-- A run that does not pass the last length (R180 to R182). -/
theorem runLens_eq (b n : Nat) (x : BitVec 4) (s : State) (h : s.work.bitPos + n ≤ s.work.endBit)
    (hr : s.work.lenI + (b + s.bits s.work.bitPos n) ≤ s.work.hlit + s.work.hdist) :
    runLens b n x s = putLens (b + s.bits s.work.bitPos n) x (advance n s) := by
  unfold runLens
  rw [readBits_ok h, Res.bind_ok, if_neg]
  simp [Work.lensTotal]; omega

/-- A run that passes it (R180 to R182). -/
theorem runLens_past (b n : Nat) (x : BitVec 4) (s : State) (h : s.work.bitPos + n ≤ s.work.endBit)
    (hr : s.work.hlit + s.work.hdist < s.work.lenI + (b + s.bits s.work.bitPos n)) :
    runLens b n x s = .raised .clRepeat (advance n s) := by
  unfold runLens
  rw [readBits_ok h, Res.bind_ok, if_pos]
  simpa [Work.lensTotal] using hr

/-- Both sets have a table (R183). -/
theorem buildTables_ok {s : State} {a b : Huff} (h1 : Huff.build s.work.litLens s.work.hlit = some a)
    (h2 : Huff.build s.work.distLens s.work.hdist = some b) :
    buildTables s = .ok () (enterBody { s with work.llt := a, work.dt := b }) := by
  have e : ({ s with work.llt := a } : State).work.distLens = s.work.distLens := rfl
  simp only [buildTables, loadLlt, h1, Res.bind_ok, loadDt, e, h2]

/-- One of them has none (R183). -/
theorem buildTables_raised {s : State}
    (h : Huff.build s.work.litLens s.work.hlit = none ∨ Huff.build s.work.distLens s.work.hdist = none) :
    ∃ t, buildTables s = .raised .table t ∧ t = { s with work := t.work } := by
  simp only [buildTables, loadLlt]
  cases h1 : Huff.build s.work.litLens s.work.hlit with
  | none => exact ⟨s, rfl, rfl⟩
  | some a =>
    rw [h1] at h
    simp only [reduceCtorEq, false_or] at h
    have e : ({ s with work.llt := a } : State).work.distLens = s.work.distLens := rfl
    simp only [Res.bind_ok, loadDt, e, h]
    exact ⟨_, rfl, rfl⟩

/-! ### Rows and pixels -/

/-- The index by shifts is the index by divisions (R365). -/
theorem packedIndex_eq (s : State) (d y x : Nat) : s.packedIndex d y x = s.indexAt d y x := by
  unfold State.packedIndex State.indexAt State.rowByte
  simp only [Nat.and_two_pow_sub_one_eq_mod, Nat.shiftRight_eq_div_pow]

/-- The step between rows changes no byte of OUT. -/
theorem rowFiltered_read (s : State) (x : Nat) : (rowFiltered s).read .out x = s.read .out x := by
  refine State.read_congr ?_ ?_ x <;> unfold rowFiltered <;> split <;> rfl

/-- In row 0 only the left neighbour counts: predictors that agree on it filter alike (R342). -/
theorem filterFrom_first {p q : Nat → Nat → Nat → Nat} (h : ∀ a, p a 0 0 = q a 0 0) (n x : Nat) (s : State) :
    filterFrom p 0 n x s = filterFrom q 0 n x s := by
  induction n generalizing x s with
  | zero => rfl
  | succ n ih =>
    have e : filterByte p 0 x s = filterByte q 0 x s := by simp [filterByte, State.upByte, State.upLeftByte, h]
    rw [filterFrom, filterFrom, ih, e]

/-- The step between rows of the assembler changes no byte of PIX. -/
theorem rowAssembled_read (s : State) (x : Nat) : (rowAssembled s).read .pix x = s.read .pix x := by
  refine State.read_congr ?_ ?_ x <;> unfold rowAssembled <;> split <;> rfl

end Sys2Proof.Machine
end

