-- ==== Sys2Proof/Laws/Huffman.lean ====
section
/-! SUPPORT. Canonical codes (spec/41_huffman.md): how the recurrences of `build` bound the codes of a length, and where
each symbol stands in the symbol list. -/

namespace Sys2Proof.Machine

/-! ### Counts and code ranges -/

theorem getD_map_range {α : Type} (f : Nat → α) {n l : Nat} (h : l < n) (d : α) :
    ((List.range n).map f).getD l d = f l := by
  simp [List.getD_eq_getElem?_getD, h]

/-- T.count (R151). -/
theorem countLens_getD (lens : List Nat) {l : Nat} (h1 : 1 ≤ l) (h2 : l ≤ 15) :
    (countLens lens).getD l 0 = lens.count l := by
  rw [countLens, getD_map_range _ (by omega), if_neg (by omega)]

theorem countLens_getD_zero (lens : List Nat) : (countLens lens).getD 0 0 = 0 := by
  rw [countLens, getD_map_range _ (by omega), if_pos rfl]

/-- The code space below the codes of one length never shrinks as the length grows: the end of the codes of length `l`,
scaled to length `l + k`, is at most the end there. -/
theorem codeEnd_mono (count : List Nat) (l k : Nat) :
    (firstCode count l + count.getD l 0) * 2 ^ k ≤ firstCode count (l + k) + count.getD (l + k) 0 := by
  induction k with
  | zero => simp
  | succ k ih =>
    have : firstCode count (l + (k + 1)) = 2 * (firstCode count (l + k) + count.getD (l + k) 0) := rfl
    rw [this, Nat.pow_succ, ← Nat.mul_assoc]
    omega

/-- The codes of length `l` end before the first code of every greater length begins. -/
theorem codeEnd_le_first (count : List Nat) (l k : Nat) :
    (firstCode count l + count.getD l 0) * 2 ^ (k + 1) ≤ firstCode count (l + (k + 1)) := by
  have := codeEnd_mono count l k
  have e : firstCode count (l + (k + 1)) = 2 * (firstCode count (l + k) + count.getD (l + k) 0) := rfl
  rw [e, Nat.pow_succ, ← Nat.mul_assoc]
  omega

/-- In an accepted set the codes of length `l` fit in `l` bits. -/
theorem codeEnd_le (count : List Nat) (h : firstCode count 15 + count.getD 15 0 ≤ 2 ^ 15) {l : Nat} (hl : l ≤ 15) :
    firstCode count l + count.getD l 0 ≤ 2 ^ l := by
  have h1 := codeEnd_mono count l (15 - l)
  have e : l + (15 - l) = 15 := by omega
  rw [e] at h1
  have h2 : (2 : Nat) ^ 15 = 2 ^ l * 2 ^ (15 - l) := by rw [← Nat.pow_add, e]
  have h3 : (firstCode count l + count.getD l 0) * 2 ^ (15 - l) ≤ 2 ^ l * 2 ^ (15 - l) := by omega
  exact Nat.le_of_mul_le_mul_right h3 (Nat.two_pow_pos _)

/-- R152's two forms of the validity test. -/
theorem codeEnd_eq_kraft (lens : List Nat) :
    firstCode (countLens lens) 15 + (countLens lens).getD 15 0 = kraft lens := by
  have h : ∀ l, 1 ≤ l → l ≤ 15 → (countLens lens).getD l 0 = lens.count l := fun l => countLens_getD lens
  have k : kraft lens = 16384 * lens.count 1 + 8192 * lens.count 2 + 4096 * lens.count 3 + 2048 * lens.count 4
      + 1024 * lens.count 5 + 512 * lens.count 6 + 256 * lens.count 7 + 128 * lens.count 8 + 64 * lens.count 9
      + 32 * lens.count 10 + 16 * lens.count 11 + 8 * lens.count 12 + 4 * lens.count 13 + 2 * lens.count 14
      + lens.count 15 := by
    simp only [kraft, List.range'_succ, List.range'_zero, List.map_cons, List.map_nil, List.sum_cons, List.sum_nil,
      Nat.reduceAdd]
    omega
  simp only [firstCode, countLens_getD_zero, h 1 (by omega) (by omega), h 2 (by omega) (by omega),
    h 3 (by omega) (by omega), h 4 (by omega) (by omega), h 5 (by omega) (by omega), h 6 (by omega) (by omega),
    h 7 (by omega) (by omega), h 8 (by omega) (by omega), h 9 (by omega) (by omega), h 10 (by omega) (by omega),
    h 11 (by omega) (by omega), h 12 (by omega) (by omega), h 13 (by omega) (by omega), h 14 (by omega) (by omega),
    h 15 (by omega) (by omega)]
  omega

/-! ### Symbols in order -/

/-- The symbols of a length, one more length behind the others. -/
theorem symsOfLen_append (lens : List Nat) (x l : Nat) :
    symsOfLen (lens ++ [x]) l = symsOfLen lens l ++ if x = l then [lens.length] else [] := by
  unfold symsOfLen
  rw [List.zipIdx_append, List.filterMap_append]
  congr 1
  simp only [List.zipIdx_cons, List.zipIdx_nil, List.filterMap_cons, List.filterMap_nil, Nat.zero_add]
  split
  · next h => split at h <;> simp_all
  · next h => split at h <;> simp_all

theorem symsOfLen_length (lens : List Nat) (l : Nat) : (symsOfLen lens l).length = lens.count l := by
  induction lens using List.reverseRecOn with
  | nil => rfl
  | append_singleton lens x ih =>
    rw [symsOfLen_append, List.length_append, ih, List.count_append]
    by_cases h : x = l <;> simp [h]

theorem mem_symsOfLen (lens : List Nat) (l y : Nat) :
    y ∈ symsOfLen lens l ↔ y < lens.length ∧ lens[y]? = some l := by
  unfold symsOfLen
  simp only [List.mem_filterMap, Prod.exists]
  constructor
  · rintro ⟨a, b, hm, h⟩
    split at h
    · next he =>
      cases h
      have := List.mem_zipIdx' hm
      obtain ⟨hlt, e⟩ := this
      subst he
      exact ⟨hlt, by rw [List.getElem?_eq_getElem hlt, e]⟩
    · cases h
  · rintro ⟨hlt, h⟩
    refine ⟨l, y, ?_, by simp⟩
    rw [List.mem_zipIdx_iff_getElem?]
    simpa using h

/-- A symbol of length `l` stands, among the symbols of its length, behind the smaller ones. -/
theorem symsOfLen_getElem? (lens : List Nat) (l y : Nat) (h : lens[y]? = some l) :
    (symsOfLen lens l)[(lens.take y).count l]? = some y := by
  induction lens using List.reverseRecOn generalizing y with
  | nil => simp at h
  | append_singleton lens x ih =>
    rw [symsOfLen_append]
    by_cases hy : y < lens.length
    · rw [List.getElem?_append_left hy] at h
      have := ih y h
      rw [List.take_append_of_le_length (by omega), List.getElem?_append_left, this]
      exact (List.getElem?_eq_some_iff.1 this).1
    · have hlen : y = lens.length := by
        have := (List.getElem?_eq_some_iff.1 h).1
        simp at this
        omega
      subst hlen
      simp at h
      subst h
      rw [List.take_left', List.getElem?_append_right, symsOfLen_length] <;> simp [symsOfLen_length]

/-- The symbols of one length are in rising order. -/
theorem symsOfLen_sorted (lens : List Nat) (l : Nat) : (symsOfLen lens l).Pairwise (· < ·) := by
  induction lens using List.reverseRecOn with
  | nil => exact List.Pairwise.nil
  | append_singleton lens x ih =>
    rw [symsOfLen_append, List.pairwise_append]
    refine ⟨ih, ?_, ?_⟩
    · split <;> simp
    · intro a ha b hb
      rw [mem_symsOfLen] at ha
      split at hb
      · simp at hb; omega
      · simp at hb

/-- T.base counts the symbols of all smaller lengths (R151). -/
theorem baseIndex_eq (lens : List Nat) {l : Nat} (h : l ≤ 15) :
    baseIndex (countLens lens) (l + 1) = ((List.range' 1 l).flatMap (symsOfLen lens)).length := by
  induction l with
  | zero => exact countLens_getD_zero lens
  | succ l ih =>
    rw [baseIndex, ih (by omega), countLens_getD lens (by omega) h, List.range'_1_concat, List.flatMap_append,
      List.length_append]
    simp [symsOfLen_length, Nat.add_comm]

/-- The place of a symbol in T.sym: T.base of its length, then its rank (R151). -/
theorem sortedSyms_getElem? (lens : List Nat) {l j : Nat} (h1 : 1 ≤ l) (h2 : l ≤ 15) (hj : j < lens.count l) :
    (sortedSyms lens)[baseIndex (countLens lens) l + j]? = (symsOfLen lens l)[j]? := by
  obtain ⟨m, rfl⟩ : ∃ m, l = m + 1 := ⟨l - 1, by omega⟩
  have split : List.range' 1 15 = List.range' 1 m ++ List.range' (m + 1) (15 - m) := by
    have := List.range'_append_1 (s := 1) (m := m) (n := 15 - m)
    rw [Nat.add_comm 1 m] at this
    rw [this]; congr 1; omega
  have hd : List.range' (m + 1) (15 - m) = (m + 1) :: List.range' (m + 2) (14 - m) := by
    have : 15 - m = (14 - m) + 1 := by omega
    rw [this, List.range'_succ]
  rw [sortedSyms, split, List.flatMap_append, baseIndex_eq lens (by omega), List.getElem?_append_right (by omega),
    Nat.add_sub_cancel_left, hd, List.flatMap_cons, List.getElem?_append_left]
  rw [symsOfLen_length]; exact hj

theorem mem_sortedSyms (lens : List Nat) (y : Nat) :
    y ∈ sortedSyms lens ↔ ∃ l, 1 ≤ l ∧ l ≤ 15 ∧ lens[y]? = some l := by
  simp only [sortedSyms, List.mem_flatMap, List.mem_range'_1, mem_symsOfLen]
  constructor
  · rintro ⟨l, ⟨h1, h2⟩, -, h⟩; exact ⟨l, h1, by omega, h⟩
  · rintro ⟨l, h1, h2, h⟩
    exact ⟨l, ⟨h1, by omega⟩, (List.getElem?_eq_some_iff.1 h).1, h⟩

/-! ### The fields of an accepted table -/

/-- What `build` answers (R151, R152). -/
theorem Huff.build_eq_some {lens : List Nat} {n : Nat} {t : Huff} :
    Huff.build lens n = some t ↔ kraft (lens.take n) ≤ 2 ^ 15 ∧
      t = { n := n, count := countLens (lens.take n),
            first := (List.range 16).map (firstCode (countLens (lens.take n))),
            base := (List.range 16).map (baseIndex (countLens (lens.take n))),
            sym := sortedSyms (lens.take n),
            used := baseIndex (countLens (lens.take n)) 15 + (countLens (lens.take n)).getD 15 0 } := by
  unfold Huff.build
  simp only [codeEnd_eq_kraft]
  split
  · next h => simp only [reduceCtorEq, false_iff]; omega
  · next h =>
    simp only [Option.some.injEq]
    exact ⟨fun e => ⟨by omega, e.symm⟩, fun e => e.2.symm⟩

/-! ### Candidates -/

theorem candidate_lt (peek : Nat → Bool) (l : Nat) : candidate peek l < 2 ^ l := by
  induction l with
  | zero => simp [candidate]
  | succ l ih =>
    have : (peek l).toNat ≤ 1 := Bool.toNat_le _
    rw [candidate, Nat.pow_succ]; omega

/-- A longer candidate begins with the shorter one. -/
theorem candidate_div (peek : Nat → Bool) (l k : Nat) : candidate peek (l + k) / 2 ^ k = candidate peek l := by
  induction k with
  | zero => simp
  | succ k ih =>
    have : (peek (l + k)).toNat ≤ 1 := Bool.toNat_le _
    have e : candidate peek (l + (k + 1)) = 2 * candidate peek (l + k) + (peek (l + k)).toNat := rfl
    rw [e, Nat.pow_succ, Nat.mul_comm (2 ^ k) 2, ← Nat.div_div_eq_div_mul]
    have : (2 * candidate peek (l + k) + (peek (l + k)).toNat) / 2 = candidate peek (l + k) := by omega
    rw [this, ih]

/-- The look-ahead begins with a code exactly when the candidate of that length is the code. -/
theorem startsWith_iff (peek : Nat → Bool) {code l : Nat} (h : code < 2 ^ l) :
    StartsWith peek code l ↔ candidate peek l = code := by
  induction l generalizing code with
  | zero =>
    have : code = 0 := by simpa using h
    simp [StartsWith, candidate, this]
  | succ l ih =>
    have hb : (peek l).toNat ≤ 1 := Bool.toNat_le _
    have ih' := ih (code := code / 2) (by rw [Nat.pow_succ] at h; omega)
    have step : StartsWith peek code (l + 1) ↔ StartsWith peek (code / 2) l ∧ peek l = code.testBit 0 := by
      constructor
      · intro hs
        refine ⟨fun k hk => ?_, ?_⟩
        · have := hs k (by omega)
          rw [this, Nat.testBit_div_two]
          congr 1; omega
        · have := hs l (by omega)
          simpa using this
      · rintro ⟨hs, h0⟩ k hk
        by_cases hkl : k = l
        · subst hkl; simpa using h0
        · have := hs k (by omega)
          rw [this, Nat.testBit_div_two]
          congr 1; omega
    rw [step, ih', candidate, Nat.testBit_zero]
    constructor
    · rintro ⟨e, p⟩
      rw [e, p]
      by_cases hc : code % 2 = 1 <;> simp [hc] <;> omega
    · intro e
      refine ⟨by omega, ?_⟩
      cases hp : peek l <;> simp [hp] at e ⊢ <;> omega

/-- What the search over the lengths answers (R153): the first length whose range takes the candidate, or none. -/
theorem Huff.search_cases (t : Huff) (peek : Nat → Bool) (fuel l : Nat) :
    (∃ m, l < m ∧ m ≤ l + fuel ∧ t.hit m (candidate peek m) = true ∧
      (∀ k, l < k → k < m → t.hit k (candidate peek k) = false) ∧
      t.search peek fuel l (candidate peek l) =
        some (t.sym.getD (t.base.getD m 0 + candidate peek m - t.first.getD m 0) 0, m)) ∨
      ((∀ m, l < m → m ≤ l + fuel → t.hit m (candidate peek m) = false) ∧
        t.search peek fuel l (candidate peek l) = none) := by
  induction fuel generalizing l with
  | zero => exact .inr ⟨fun m h1 h2 => by omega, rfl⟩
  | succ fuel ih =>
    have e : 2 * candidate peek l + (peek l).toNat = candidate peek (l + 1) := rfl
    rw [Huff.search]
    simp only [e]
    cases hh : t.hit (l + 1) (candidate peek (l + 1)) with
    | true =>
      refine .inl ⟨l + 1, by omega, by omega, hh, fun k h1 h2 => by omega, by rw [if_pos rfl]⟩
    | false =>
      rw [if_neg (by simp)]
      rcases ih (l + 1) with ⟨m, h1, h2, h3, h4, h5⟩ | ⟨h1, h2⟩
      · refine .inl ⟨m, by omega, by omega, h3, fun k hk1 hk2 => ?_, h5⟩
        by_cases hk : k = l + 1
        · rw [hk]; exact hh
        · exact h4 k (by omega) hk2
      · refine .inr ⟨fun m hm1 hm2 => ?_, h2⟩
        by_cases hm : m = l + 1
        · rw [hm]; exact hh
        · exact h1 m (by omega) (by omega)

/-- A symbol found is in the table's list, or is symbol 0; its code has 1 to 15 bits. -/
theorem Huff.lookup_bounds {t : Huff} {peek : Nat → Bool} {y l : Nat} (h : t.lookup peek = some (y, l)) :
    (y ∈ t.sym ∨ y = 0) ∧ 1 ≤ l ∧ l ≤ 15 := by
  have e : t.lookup peek = t.search peek 15 0 (candidate peek 0) := rfl
  rw [e] at h
  rcases t.search_cases peek 15 0 with ⟨m, h1, h2, -, -, h5⟩ | ⟨-, h2⟩
  · rw [h5] at h
    injection h with h
    injection h with hy hl
    subst hl
    refine ⟨?_, by omega, by omega⟩
    rw [← hy, List.getD_eq_getElem?_getD]
    cases hg : t.sym[t.base.getD m 0 + candidate peek m - t.first.getD m 0]? with
    | none => exact .inr rfl
    | some x => exact .inl (List.mem_of_getElem? hg)
  · rw [h2] at h; cases h

end Sys2Proof.Machine
end

