-- ==== Sys2Proof/Laws/PerInstr.lean ====
section
/-! SUPPORT. Statements made of every element one by one: the family `EncodingFits`. -/

namespace Sys2Proof.Laws

/-- The word of a well-formed element has the bits its format has, and a row of the format's table takes it (R91 to
R99, R105). -/
def EncodingFits.Statement (i : Instr) : Prop :=
  i.wellFormed = true →
    encode i < 2 ^ i.format.width ∧ (i.format.rows.any fun r => encode i &&& r.mask == r.patt) = true

theorem EncodingFits.zlibHdr (cinfo fcheck flevel : Nat) : EncodingFits.Statement (.zlibHdr cinfo fcheck flevel) := by
  intro h
  simp only [Instr.wellFormed, Bool.and_eq_true, decide_eq_true_eq] at h
  obtain ⟨⟨h1, h2⟩, h3⟩ := h
  have key : ∀ a : Fin 16, ∀ b : Fin 32, ∀ c : Fin 4,
      0x8 + a.val * 2 ^ 4 + b.val * 2 ^ 8 + c.val * 2 ^ 14 < 2 ^ 16 ∧
        ((0x8 + a.val * 2 ^ 4 + b.val * 2 ^ 8 + c.val * 2 ^ 14) &&& 0x200f) = 0x8 := by decide +kernel
  obtain ⟨k1, k2⟩ := key ⟨cinfo, h1⟩ ⟨fcheck, h2⟩ ⟨flevel, h3⟩
  refine ⟨k1, ?_⟩
  simp only [encode, Instr.format, Format.rows, zlibRows, List.any_cons, List.any_nil, Bool.or_false]
  exact beq_iff_eq.mpr k2

theorem EncodingFits.blkStored (final : Bool) : EncodingFits.Statement (.blkStored final) := fun _ => by cases final <;> decide

theorem EncodingFits.blkFixed (final : Bool) : EncodingFits.Statement (.blkFixed final) := fun _ => by cases final <;> decide

theorem EncodingFits.blkDynamic (final : Bool) : EncodingFits.Statement (.blkDynamic final) := fun _ => by cases final <;> decide

theorem EncodingFits.blkReserved (final : Bool) : EncodingFits.Statement (.blkReserved final) := fun _ => by cases final <;> decide

theorem EncodingFits.clLen (len : Nat) : EncodingFits.Statement (.clLen len) := by
  intro h
  simp only [Instr.wellFormed, decide_eq_true_eq] at h
  have key : ∀ a : Fin 16, a.val < 2 ^ 5 ∧ (clsymRows.any fun r => a.val &&& r.mask == r.patt) = true := by decide +kernel
  exact key ⟨len, h⟩

theorem EncodingFits.clRep16 : EncodingFits.Statement .clRep16 := fun _ => by decide

theorem EncodingFits.clZero17 : EncodingFits.Statement .clZero17 := fun _ => by decide

theorem EncodingFits.clZero18 : EncodingFits.Statement .clZero18 := fun _ => by decide

theorem EncodingFits.lit (byte : Byte) : EncodingFits.Statement (.lit byte) := fun _ => by
  have key : ∀ a : Fin 256, a.val < 2 ^ 9 ∧ (llRows.any fun r => a.val &&& r.mask == r.patt) = true := by decide +kernel
  exact key ⟨byte.toNat, byte.isLt⟩

theorem EncodingFits.eob : EncodingFits.Statement .eob := fun _ => by decide

theorem EncodingFits.len257 : EncodingFits.Statement .len257 := fun _ => by decide

theorem EncodingFits.len258 : EncodingFits.Statement .len258 := fun _ => by decide

theorem EncodingFits.len259 : EncodingFits.Statement .len259 := fun _ => by decide

theorem EncodingFits.len260 : EncodingFits.Statement .len260 := fun _ => by decide

theorem EncodingFits.len261 : EncodingFits.Statement .len261 := fun _ => by decide

theorem EncodingFits.len262 : EncodingFits.Statement .len262 := fun _ => by decide

theorem EncodingFits.len263 : EncodingFits.Statement .len263 := fun _ => by decide

theorem EncodingFits.len264 : EncodingFits.Statement .len264 := fun _ => by decide

theorem EncodingFits.len265 : EncodingFits.Statement .len265 := fun _ => by decide

theorem EncodingFits.len266 : EncodingFits.Statement .len266 := fun _ => by decide

theorem EncodingFits.len267 : EncodingFits.Statement .len267 := fun _ => by decide

theorem EncodingFits.len268 : EncodingFits.Statement .len268 := fun _ => by decide

theorem EncodingFits.len269 : EncodingFits.Statement .len269 := fun _ => by decide

theorem EncodingFits.len270 : EncodingFits.Statement .len270 := fun _ => by decide

theorem EncodingFits.len271 : EncodingFits.Statement .len271 := fun _ => by decide

theorem EncodingFits.len272 : EncodingFits.Statement .len272 := fun _ => by decide

theorem EncodingFits.len273 : EncodingFits.Statement .len273 := fun _ => by decide

theorem EncodingFits.len274 : EncodingFits.Statement .len274 := fun _ => by decide

theorem EncodingFits.len275 : EncodingFits.Statement .len275 := fun _ => by decide

theorem EncodingFits.len276 : EncodingFits.Statement .len276 := fun _ => by decide

theorem EncodingFits.len277 : EncodingFits.Statement .len277 := fun _ => by decide

theorem EncodingFits.len278 : EncodingFits.Statement .len278 := fun _ => by decide

theorem EncodingFits.len279 : EncodingFits.Statement .len279 := fun _ => by decide

theorem EncodingFits.len280 : EncodingFits.Statement .len280 := fun _ => by decide

theorem EncodingFits.len281 : EncodingFits.Statement .len281 := fun _ => by decide

theorem EncodingFits.len282 : EncodingFits.Statement .len282 := fun _ => by decide

theorem EncodingFits.len283 : EncodingFits.Statement .len283 := fun _ => by decide

theorem EncodingFits.len284 : EncodingFits.Statement .len284 := fun _ => by decide

theorem EncodingFits.len285 : EncodingFits.Statement .len285 := fun _ => by decide

theorem EncodingFits.ll286 : EncodingFits.Statement .ll286 := fun _ => by decide

theorem EncodingFits.ll287 : EncodingFits.Statement .ll287 := fun _ => by decide

theorem EncodingFits.dist0 : EncodingFits.Statement .dist0 := fun _ => by decide

theorem EncodingFits.dist1 : EncodingFits.Statement .dist1 := fun _ => by decide

theorem EncodingFits.dist2 : EncodingFits.Statement .dist2 := fun _ => by decide

theorem EncodingFits.dist3 : EncodingFits.Statement .dist3 := fun _ => by decide

theorem EncodingFits.dist4 : EncodingFits.Statement .dist4 := fun _ => by decide

theorem EncodingFits.dist5 : EncodingFits.Statement .dist5 := fun _ => by decide

theorem EncodingFits.dist6 : EncodingFits.Statement .dist6 := fun _ => by decide

theorem EncodingFits.dist7 : EncodingFits.Statement .dist7 := fun _ => by decide

theorem EncodingFits.dist8 : EncodingFits.Statement .dist8 := fun _ => by decide

theorem EncodingFits.dist9 : EncodingFits.Statement .dist9 := fun _ => by decide

theorem EncodingFits.dist10 : EncodingFits.Statement .dist10 := fun _ => by decide

theorem EncodingFits.dist11 : EncodingFits.Statement .dist11 := fun _ => by decide

theorem EncodingFits.dist12 : EncodingFits.Statement .dist12 := fun _ => by decide

theorem EncodingFits.dist13 : EncodingFits.Statement .dist13 := fun _ => by decide

theorem EncodingFits.dist14 : EncodingFits.Statement .dist14 := fun _ => by decide

theorem EncodingFits.dist15 : EncodingFits.Statement .dist15 := fun _ => by decide

theorem EncodingFits.dist16 : EncodingFits.Statement .dist16 := fun _ => by decide

theorem EncodingFits.dist17 : EncodingFits.Statement .dist17 := fun _ => by decide

theorem EncodingFits.dist18 : EncodingFits.Statement .dist18 := fun _ => by decide

theorem EncodingFits.dist19 : EncodingFits.Statement .dist19 := fun _ => by decide

theorem EncodingFits.dist20 : EncodingFits.Statement .dist20 := fun _ => by decide

theorem EncodingFits.dist21 : EncodingFits.Statement .dist21 := fun _ => by decide

theorem EncodingFits.dist22 : EncodingFits.Statement .dist22 := fun _ => by decide

theorem EncodingFits.dist23 : EncodingFits.Statement .dist23 := fun _ => by decide

theorem EncodingFits.dist24 : EncodingFits.Statement .dist24 := fun _ => by decide

theorem EncodingFits.dist25 : EncodingFits.Statement .dist25 := fun _ => by decide

theorem EncodingFits.dist26 : EncodingFits.Statement .dist26 := fun _ => by decide

theorem EncodingFits.dist27 : EncodingFits.Statement .dist27 := fun _ => by decide

theorem EncodingFits.dist28 : EncodingFits.Statement .dist28 := fun _ => by decide

theorem EncodingFits.dist29 : EncodingFits.Statement .dist29 := fun _ => by decide

theorem EncodingFits.dist30 : EncodingFits.Statement .dist30 := fun _ => by decide

theorem EncodingFits.dist31 : EncodingFits.Statement .dist31 := fun _ => by decide

theorem EncodingFits.filtNone : EncodingFits.Statement .filtNone := fun _ => by decide

theorem EncodingFits.filtSub : EncodingFits.Statement .filtSub := fun _ => by decide

theorem EncodingFits.filtUp : EncodingFits.Statement .filtUp := fun _ => by decide

theorem EncodingFits.filtAvg : EncodingFits.Statement .filtAvg := fun _ => by decide

theorem EncodingFits.filtPaeth : EncodingFits.Statement .filtPaeth := fun _ => by decide

theorem EncodingFits.pixGray8 : EncodingFits.Statement .pixGray8 := fun _ => by decide

theorem EncodingFits.pixRgb8 : EncodingFits.Statement .pixRgb8 := fun _ => by decide

theorem EncodingFits.pixIdx1 : EncodingFits.Statement .pixIdx1 := fun _ => by decide

theorem EncodingFits.pixIdx2 : EncodingFits.Statement .pixIdx2 := fun _ => by decide

theorem EncodingFits.pixIdx4 : EncodingFits.Statement .pixIdx4 := fun _ => by decide

theorem EncodingFits.pixIdx8 : EncodingFits.Statement .pixIdx8 := fun _ => by decide

theorem EncodingFits.pixGa8 : EncodingFits.Statement .pixGa8 := fun _ => by decide

theorem EncodingFits.pixRgba8 : EncodingFits.Statement .pixRgba8 := fun _ => by decide

theorem EncodingFits.start : EncodingFits.Statement .start := fun _ => by decide

theorem EncodingFits.reset : EncodingFits.Statement .reset := fun _ => by decide

end Sys2Proof.Laws
end

