-- ==== Sys2Proof/Tests/Slice0.lean ====
section
/-! SUPPORT. The model's own tests: ill-formed terms, a written-out word for every element, one step each on small
states, and a witness for the hypotheses of every statement. Expected values are those of spec/95_test_vectors.md (V, S
and P numbers) or are worked out by hand from the rules named. -/

namespace Sys2Proof.Tests

set_option Elab.async false

open Sys2Proof.Machine

/-! ### Small states -/

/-- Memory cells from bytes at addresses from 0 on. -/
def cells (l : List Nat) : List Host.Cell := l.zipIdx.map fun p => (p.2, BitVec.ofNat 8 p.1)

/-- The machine after reset, with memories of 64 bytes. -/
def machine : State := { State.reset with params := ⟨64, 64, 64⟩ }

/-- A raw stream (the vectors' own convention): the data at bit position 0, the window filled. -/
def raw (l : List Nat) (cap : Nat) (p : Phase) : State :=
  refill { machine with inMem := cells l, runState := .busy, phase := p, work.endBit := 8 * l.length, work.cap := cap }

/-- A whole IN with its zlib header behind the cursor. -/
def full (l : List Nat) (cap : Nat) (p : Phase) : State :=
  { initReader { machine with inMem := cells l, work.cfg.inLen := BitVec.ofNat 32 l.length, runState := .busy } with
    phase := p, work.cap := cap }

/-- A raw stream in the body of a fixed block. -/
def body (l : List Nat) (cap : Nat) : State :=
  { raw l cap .body with work.llt := fixedLlt, work.dt := fixedDt }

/-- Rows of OUT of `n` data bytes, BPP `bpp`, HEIGHT `h`, the row at hand being `y`. -/
def rows (l : List Nat) (n bpp h y : Nat) : State :=
  { machine with
    outMem := cells l, runState := .busy, phase := .defilter, work.cfg.height := BitVec.ofNat 32 h,
    work.rowBytes := n, work.bpp := bpp, work.row := y, work.cap := h * (1 + n) }

/-- One row to assemble, WIDTH `w`, with the palette of the vectors. -/
def line (l : List Nat) (w fmt : Nat) : State :=
  { rows (0 :: l) l.length 1 1 0 with
    phase := .assemble, work.cfg.width := BitVec.ofNat 32 w, work.cfg.imgFmt := BitVec.ofNat 32 fmt
    work.cfg.plteLen := 4
    plteMem := cells [0, 0, 0, 0xFF, 0, 0, 0, 0xFF, 0, 0, 0, 0xFF] }

/-- A descriptor that passes CHECK: 1 x 1 RGBA, IN_LEN 16 (V69). -/
def checked : State :=
  { machine with
    runState := .busy, phase := .check, cfg.inLen := 16, cfg.width := 1, cfg.height := 1, cfg.imgFmt := 0x0608 }

/-- The next state, if there is one. -/
def next? : Out → Option State
  | .next s => some s
  | _ => none

/-- What a function shows of the next state. -/
def see {α : Type} (o : Out) (f : State → α) : Option α := (next? o).map f

/-- The element an action runs. -/
def runs (a : Act) : Option Instr :=
  match a with
  | .run i _ => some i
  | .out _ => none

/-- Bytes of a memory. -/
def dump (s : State) (sp : Space) (a n : Nat) : List Nat := (List.range n).map fun k => (s.read sp (a + k)).toNat

/-- A look-ahead that begins with some bits. -/
def ahead (l : List Nat) (k : Nat) : Bool := l.getD k 0 == 1

theorem next_of_see {α : Type} [DecidableEq α] {o : Out} {f : State → α} {a : α} (h : see o f = some a) :
    ∃ t, o = .next t ∧ f t = a := by
  cases o with
  | next s => exact ⟨s, rfl, by simpa [see, next?] using h⟩
  | fault _ => simp [see, next?] at h
  | refused _ => simp [see, next?] at h

theorem raw_window (l : List Nat) (cap : Nat) (p : Phase) : WindowOk (raw l cap p) := by
  refine WindowPart.refill ⟨rfl, fun k => ?_, Nat.zero_le _, Nat.zero_le _, ?_⟩
  · simp [machine, State.reset, Work.reset]
  · simp

theorem full_window (l : List Nat) (cap : Nat) (p : Phase) (h : 6 ≤ (BitVec.ofNat 32 l.length).toNat) :
    WindowOk (full l cap p) := by
  refine (WindowOk.init (s := { machine with
    inMem := cells l, work.cfg.inLen := BitVec.ofNat 32 l.length, runState := .busy }) h).congr
      ?_ ?_ ?_ ?_ ?_ ?_ ?_ <;> rfl

/-! ### Ill-formed terms -/

/-- Each check of `wellFormed` refuses a term one past its field's range, and takes the last one inside it. -/
theorem test_wellFormed :
    (Instr.zlibHdr 16 0 0).wellFormed = false ∧ (Instr.zlibHdr 0 32 0).wellFormed = false ∧
      (Instr.zlibHdr 0 0 4).wellFormed = false ∧ (Instr.zlibHdr 15 31 3).wellFormed = true ∧
      (Instr.clLen 16).wellFormed = false ∧ (Instr.clLen 15).wellFormed = true := by decide

/-! ### Every element's word, written out bit by bit -/

/-- R91, R170: CM 8, CINFO, FCHECK, FDICT 0, FLEVEL. -/
theorem test_decode_zlib :
    ∀ p ∈ ([
        (0b00_0_00001_0111_1000, .zlibHdr 7 1 0), (0b11_0_11010_0111_1000, .zlibHdr 7 26 3),
        (0b00_0_00000_0000_1000, .zlibHdr 0 0 0)] : List (Nat × Instr)),
      decodeWord .zlib p.1 = .ok p.2 := by decide +kernel

/-- R92: BFINAL in bit 0, BTYPE in bits 2..1. -/
theorem test_decode_blk :
    ∀ p ∈ ([
        (0b001, .blkStored true), (0b000, .blkStored false), (0b011, .blkFixed true), (0b101, .blkDynamic true),
        (0b110, .blkReserved false)] : List (Nat × Instr)),
      decodeWord .blk p.1 = .ok p.2 := by decide +kernel

/-- R95: symbols 0 to 15 are lengths, 16, 17 and 18 repeats. -/
theorem test_decode_clsym :
    ∀ p ∈ ([
        (0b00000, .clLen 0), (0b01111, .clLen 15), (0b10000, .clRep16), (0b10001, .clZero17), (0b10010, .clZero18)] : List (Nat × Instr)),
      decodeWord .clsym p.1 = .ok p.2 := by decide +kernel

/-- R96, R250, R256 to R271. -/
theorem test_decode_ll_low :
    ∀ p ∈ ([
        (0b000000000, .lit 0), (0b001100001, .lit 0x61), (0b011111111, .lit 0xFF), (0b100000000, .eob),
        (0b100000001, .len257), (0b100000010, .len258), (0b100000011, .len259), (0b100000100, .len260),
        (0b100000101, .len261), (0b100000110, .len262), (0b100000111, .len263), (0b100001000, .len264),
        (0b100001001, .len265), (0b100001010, .len266), (0b100001011, .len267), (0b100001100, .len268),
        (0b100001101, .len269), (0b100001110, .len270), (0b100001111, .len271)] : List (Nat × Instr)),
      decodeWord .ll p.1 = .ok p.2 := by decide +kernel

/-- R96, R272 to R287. -/
theorem test_decode_ll_high :
    ∀ p ∈ ([
        (0b100010000, .len272), (0b100010001, .len273), (0b100010010, .len274), (0b100010011, .len275),
        (0b100010100, .len276), (0b100010101, .len277), (0b100010110, .len278), (0b100010111, .len279),
        (0b100011000, .len280), (0b100011001, .len281), (0b100011010, .len282), (0b100011011, .len283),
        (0b100011100, .len284), (0b100011101, .len285), (0b100011110, .ll286), (0b100011111, .ll287)] : List (Nat × Instr)),
      decodeWord .ll p.1 = .ok p.2 := by decide +kernel

/-- R96, R300 to R315. -/
theorem test_decode_dist_low :
    ∀ p ∈ ([
        (0b00000, .dist0), (0b00001, .dist1), (0b00010, .dist2), (0b00011, .dist3), (0b00100, .dist4),
        (0b00101, .dist5), (0b00110, .dist6), (0b00111, .dist7), (0b01000, .dist8), (0b01001, .dist9),
        (0b01010, .dist10), (0b01011, .dist11), (0b01100, .dist12), (0b01101, .dist13), (0b01110, .dist14),
        (0b01111, .dist15)] : List (Nat × Instr)),
      decodeWord .dist p.1 = .ok p.2 := by decide +kernel

/-- R96, R316 to R331. -/
theorem test_decode_dist_high :
    ∀ p ∈ ([
        (0b10000, .dist16), (0b10001, .dist17), (0b10010, .dist18), (0b10011, .dist19), (0b10100, .dist20),
        (0b10101, .dist21), (0b10110, .dist22), (0b10111, .dist23), (0b11000, .dist24), (0b11001, .dist25),
        (0b11010, .dist26), (0b11011, .dist27), (0b11100, .dist28), (0b11101, .dist29), (0b11110, .dist30),
        (0b11111, .dist31)] : List (Nat × Instr)),
      decodeWord .dist p.1 = .ok p.2 := by decide +kernel

/-- R97. -/
theorem test_decode_row :
    ∀ p ∈ ([
        (0b00000000, .filtNone), (0b00000001, .filtSub), (0b00000010, .filtUp), (0b00000011, .filtAvg),
        (0b00000100, .filtPaeth)] : List (Nat × Instr)),
      decodeWord .row p.1 = .ok p.2 := by decide +kernel

/-- R98: CTYPE in bits 15..8, DEPTH in bits 7..0. -/
theorem test_decode_pix :
    ∀ p ∈ ([
        (0b00000000_00001000, .pixGray8), (0b00000010_00001000, .pixRgb8), (0b00000011_00000001, .pixIdx1),
        (0b00000011_00000010, .pixIdx2), (0b00000011_00000100, .pixIdx4), (0b00000011_00001000, .pixIdx8),
        (0b00000100_00001000, .pixGa8), (0b00000110_00001000, .pixRgba8)] : List (Nat × Instr)),
      decodeWord .pix p.1 = .ok p.2 := by decide +kernel

/-- R99, V70: START in bit 0, RESET in bit 1 first, the others ignored. -/
theorem test_decode_ctrl :
    ∀ p ∈ ([
        (0b01, .start), (0b10, .reset), (0b11, .reset), (0xFFFFFFFE, .reset), (0xFFFFFFFD, .start)] : List (Nat × Instr)),
      decodeWord .ctrl p.1 = .ok p.2 := by decide +kernel

/-- V21, V54, V69, V70: refused words. -/
theorem test_decode_refused :
    decodeBytes .zlib [0x79, 0x01] = .error .zlibMethod ∧ decodeBytes .zlib [0x78, 0x20] = .error .zlibFdict ∧
      decodeBytes .zlib [0x79, 0x20] = .error .zlibMethod ∧ decodeBytes .row [0x05] = .error .filterType ∧
      decodeWord .pix 0x0108 = .error .colorType ∧ decodeWord .pix 0x0004 = .error .depth ∧
      decodeWord .ctrl 0xFFFFFFFC = .error .noCommand ∧ decodeWord .clsym 19 = .error .symbol := by decide

/-! ### One step each -/

/-- P1: END_BIT 96, BITPOS 16, OUT_POS 0. -/
theorem test_zlibHdr :
    see (step { full [0x78, 1, 1, 5, 0, 0xFA, 0xFF, 0, 0x11, 0x22, 0x33, 0x80, 1, 0x95, 0, 0xE7] 5 .zhdr with
        work.outPos := 3 })
      (fun t => (t.phase, t.work.endBit, t.work.bitPos, t.work.outPos)) = some (.blkhdr, 96, 16, 0) := by decide +kernel

/-- V21: IN_LEN = 5 gives ZLIB_SHORT whatever the bytes. -/
theorem test_zlibHdr_short :
    see (step { machine with inMem := cells [0x79, 1], work.cfg.inLen := 5, runState := .busy, phase := .zhdr })
      (fun t => (t.runState, t.errCause, t.errKind)) = some (.failed, .zlibShort, .truncated) := by decide +kernel

/-- V14. -/
theorem test_blkStored :
    see (step (raw [0x01, 0x05, 0x00, 0xFA, 0xFF, 0x48, 0x65, 0x6C, 0x6C, 0x6F] 5 .blkhdr))
      (fun t => (dump t .out 0 5, t.work.outPos, t.work.bitPos, t.phase)) =
      some ([0x48, 0x65, 0x6C, 0x6C, 0x6F], 5, 80, .infend) := by decide +kernel

/-- V16. -/
theorem test_blkStored_len :
    see (step (raw [0x01, 0x05, 0x00, 0xFB, 0xFF, 0x48, 0x65, 0x6C, 0x6C, 0x6F] 5 .blkhdr))
      (fun t => (t.errCause, t.work.outPos, t.work.bitPos)) = some (.storedLen, 0, 40) := by decide +kernel

/-- V10, V11, V23. -/
theorem test_blkFixed :
    see (step (raw [0x03, 0x00] 0 .blkhdr))
      (fun t => (t.phase, t.work.bfinal,
        [t.work.bitPos, t.work.llt.used, t.work.dt.used] ++
          [0, 23, 24, 167, 168, 175, 176, 287].map (t.work.llt.sym.getD · 999))) =
      some (.body, true, [3, 288, 32] ++ [256, 279, 0, 143, 280, 287, 144, 255]) := by decide +kernel

/-- V37: HLIT, HDIST, HCLEN, and the lengths of the code-length symbols 18, 0, 3, 2, 1. -/
theorem test_blkDynamic :
    see (step (raw [0x15, 0xC1, 0x01, 0x0D, 0x00, 0x00, 0x00, 0xC2, 0xA0, 0xAC] 10 .blkhdr))
      (fun t => (t.phase, [t.work.hlit, t.work.hdist, t.work.hclen, t.work.bitPos],
        [18, 0, 3, 2, 1, 4].map fun y => (t.work.clLens[y]?.getD 7).toNat, t.work.clt.codeOf 2)) =
      some (.dynhdr, [259, 2, 18, 71], [2, 3, 2, 3, 2, 0], some (7, 3)) := by decide +kernel

/-- V39. -/
theorem test_blkDynamic_table :
    see (step (raw [0x05, 0x00, 0x92, 0x00] 0 .blkhdr)) (fun t => (t.errCause, t.work.bitPos)) =
      some (.table, 29) := by decide +kernel

/-- V19. -/
theorem test_blkReserved :
    see (step (raw [0x07] 0 .blkhdr)) (fun t => (t.errCause, t.errKind, t.work.bitPos)) =
      some (.blockType, .stream, 3) := by decide +kernel

/-- V38: `CL 3` at LENS[65]. -/
theorem test_clLen :
    see (exec (.clLen 3) { raw [0] 0 .dynhdr with work.hlit := 257, work.hdist := 3, work.lenI := 65 })
      (fun t => (t.work.lens[65]?, t.work.lens[66]?, t.work.lenI, t.phase)) =
      some (some 3, some 0, 66, .dynhdr) := by decide +kernel

/-- V38: `CL16 rep=3` after LENS[65] = 3. -/
theorem test_clRep16 :
    see (exec .clRep16 { raw [0b00] 0 .dynhdr with
        work.hlit := 257, work.hdist := 3, work.lenI := 66, work.lens := (Vector.replicate 320 0).set 65 3 })
      (fun t => ([66, 67, 68, 69].map (fun k => (t.work.lens[k]?.getD 9).toNat), t.work.lenI, t.work.bitPos)) =
      some ([3, 3, 3, 0], 69, 2) := by decide +kernel

/-- V40: symbol 16 first, before its extra bits are read. -/
theorem test_clRep16_first :
    see (exec .clRep16 { raw [0b00] 0 .dynhdr with work.hlit := 257, work.hdist := 1 })
      (fun t => (t.errCause, t.work.bitPos)) = some (.clRepeat, 0) := by decide +kernel

/-- V38: the run of three zeros that ends at N = 260, so that the tables are built: 256 `0`, and no distance code. -/
theorem test_clZero17 :
    see (exec .clZero17 { raw [0b000] 0 .dynhdr with
        work.hlit := 257, work.hdist := 3, work.lenI := 257, work.lens := (Vector.replicate 320 0).set 256 1 })
      (fun t => (t.phase, [t.work.lenI, t.work.bitPos, t.work.dt.used], t.work.llt.codeOf 256)) =
      some (.body, [260, 3, 0], some (0, 1)) := by decide +kernel

/-- V41: 138 zeros more would pass N = 258. -/
theorem test_clZero18_past :
    see (exec .clZero18 { raw [0xFF] 0 .dynhdr with work.hlit := 257, work.hdist := 1, work.lenI := 138 })
      (fun t => (t.errCause, t.work.bitPos)) = some (.clRepeat, 7) := by decide +kernel

/-- V38: extra 54, a run of 65 zeros. -/
theorem test_clZero18 :
    see (exec .clZero18 { raw [54] 0 .dynhdr with work.hlit := 257, work.hdist := 3 })
      (fun t => (t.work.lenI, t.work.bitPos, t.phase)) = some (65, 7, .dynhdr) := by decide +kernel

/-- V34: the literal 0x62 does not fit. -/
theorem test_lit_full :
    see (exec (.lit 0x62) { body [0] 1 with outMem := [(0, 0x61)], work.outPos := 1 })
      (fun t => (t.errCause, t.work.outPos, dump t .out 0 1)) = some (.outCapacity, 1, [0x61]) := by decide +kernel

/-- V24: the literal 0x8F from its fixed code. -/
theorem test_lit :
    see (step (body [0b11111101] 4)) (fun t => (dump t .out 0 1, t.work.outPos, t.work.bitPos)) =
      some ([0x8F], 1, 8) := by decide +kernel

/-- V23, R185: the end of a final and of another block, 7 bits. -/
theorem test_eob :
    see (step { body [0] 4 with work.bfinal := true }) (fun t => (t.phase, t.work.bitPos)) = some (.infend, 7) ∧
      see (step (body [0] 4)) (fun t => (t.phase, t.work.bitPos)) = some (.blkhdr, 7) := by decide +kernel

/-- S10, V31, V27: the smallest and the largest lengths. -/
theorem test_lengths :
    see (exec .len257 (body [0xFF] 4)) (fun t => (t.work.matchLen, t.work.bitPos)) = some (some 3, 0) ∧
      see (exec .len266 (body [0xFF] 4)) (fun t => (t.work.matchLen, t.work.bitPos)) = some (some 14, 1) ∧
      see (exec .len284 (body [0xFF] 4)) (fun t => (t.work.matchLen, t.work.bitPos)) = some (some 258, 5) ∧
      see (exec .len285 (body [0xFF] 4)) (fun t => (t.work.matchLen, t.work.bitPos)) = some (some 258, 0) := by
  decide +kernel

/-- V35: distance 24577 + 8191 at OUT_POS 1. -/
theorem test_dist29 :
    see (exec .dist29 { body [0xFF, 0xFF] 4 with work.matchLen := some 3, outMem := [(0, 0x7A)], work.outPos := 1 })
      (fun t => (t.errCause, t.work.bitPos, t.work.outPos)) = some (.distRange, 13, 1) := by decide +kernel

/-- V36: distance 2 = OUT_POS, the largest legal, overlapping its own output. -/
theorem test_dist1 :
    see (exec .dist1 { body [0] 5 with
        work.matchLen := some 3, outMem := [(0, 0x61), (1, 0x62)], work.outPos := 2 })
      (fun t => (dump t .out 0 5, t.work.outPos, t.work.matchLen)) =
      some ([0x61, 0x62, 0x61, 0x62, 0x61], 5, none) := by decide +kernel

/-- V27: distance 7 + 1 = 8 with one extra bit. -/
theorem test_dist5 :
    see (exec .dist5 { body [1] 9 with
        work.matchLen := some 1, outMem := cells [1, 2, 3, 4, 5, 6, 7, 8], work.outPos := 8 })
      (fun t => (dump t .out 8 1, t.work.bitPos)) = some ([1], 1) := by decide +kernel

/-- V32, V33: symbols 286, 287, 30 and 31, from their fixed codes; no extra bit is read. -/
theorem test_badSymbol :
    see (step (body [0b01100011] 1)) (fun t => (t.errCause, t.work.bitPos)) = some (.badSymbol, 8) ∧
      see (step (body [0b11100011] 1)) (fun t => (t.errCause, t.work.bitPos)) = some (.badSymbol, 8) ∧
      see (step { body [0b01111] 1 with work.matchLen := some 3 }) (fun t => (t.errCause, t.work.bitPos)) =
        some (.badSymbol, 5) ∧
      see (step { body [0b11111] 1 with work.matchLen := some 3 }) (fun t => (t.errCause, t.work.bitPos)) =
        some (.badSymbol, 5) := by decide +kernel

/-- V46, V48 on row 0. -/
theorem test_filtNone :
    see (exec .filtNone (rows [0, 1, 2, 3, 4] 4 1 2 0)) (fun t => (dump t .out 0 5, t.work.row, t.phase)) =
      some ([0, 1, 2, 3, 4], 1, .defilter) := by decide +kernel

/-- V47 with BPP 3. -/
theorem test_filtSub :
    see (exec .filtSub (rows [1, 0x0A, 0x14, 0x1E, 1, 2, 3, 0xFF, 0xFF, 0xFF] 9 3 1 0))
      (fun t => (dump t .out 0 10, t.work.row, t.phase)) =
      some ([1, 0x0A, 0x14, 0x1E, 0x0B, 0x16, 0x21, 0x0A, 0x15, 0x20], 0, .assemble) := by decide +kernel

/-- V48. -/
theorem test_filtUp :
    see (exec .filtUp (rows [0, 0x0A, 0x14, 0x1E, 0xFA, 2, 1, 2, 3, 0x0A] 4 1 2 1)) (fun t => dump t .out 5 5) =
      some [2, 0x0B, 0x16, 0x21, 0x04] := by decide +kernel

/-- V49, the sum of which is above 255 before the halving. -/
theorem test_filtAvg :
    see (exec .filtAvg (rows [0, 0xFF, 0xFF, 3, 0, 0] 2 1 2 1)) (fun t => dump t .out 3 3) =
      some [3, 0x7F, 0xBF] := by decide +kernel

/-- V50. -/
theorem test_filtPaeth :
    see (exec .filtPaeth (rows [0, 0x0A, 0x14, 0x1E, 0xFA, 4, 1, 2, 3, 4] 4 1 2 1)) (fun t => dump t .out 5 5) =
      some [4, 0x0B, 0x16, 0x21, 0xFE] := by decide +kernel

/-- V56. -/
theorem test_paeth :
    [paeth 0 0 0, paeth 10 20 15, paeth 10 20 10, paeth 10 20 20, paeth 20 10 15, paeth 255 255 0, paeth 0 255 255,
      paeth 1 2 3, paeth 3 2 1, paeth 200 100 250, paeth 0 200 100] =
      [0, 15, 20, 10, 15, 255, 0, 1, 3, 100, 100] := by decide

/-- V54. -/
theorem test_filterType :
    see (step (rows [5, 1, 2, 3, 4] 4 1 1 0)) (fun t => (t.errCause, t.errKind, dump t .out 0 5)) =
      some (.filterType, .format, [5, 1, 2, 3, 4]) := by decide +kernel

/-- V57. -/
theorem test_pixGray8 :
    see (step { line [0x30, 0x62] 2 0x0008 with work.cfg.trnsCtrl := 0x10000, work.cfg.trnsKey := 0x62 })
      (fun t => (dump t .pix 0 8, t.runState)) =
      some ([0x30, 0x30, 0x30, 0xFF, 0x62, 0x62, 0x62, 0], .done) := by decide +kernel

/-- V58. -/
theorem test_pixRgb8 :
    see (step { line [1, 2, 3, 4, 5, 6] 2 0x0208 with work.cfg.trnsCtrl := 0x10000, work.cfg.trnsKey := 0x060504 })
      (fun t => dump t .pix 0 8) = some [1, 2, 3, 0xFF, 4, 5, 6, 0] := by decide +kernel

/-- V59. -/
theorem test_pixGa8 :
    see (step { line [0x80, 0x40, 0x11, 0xFF] 2 0x0408 with work.cfg.trnsCtrl := 0x10000, work.cfg.trnsKey := 0x80 })
      (fun t => dump t .pix 0 8) = some [0x80, 0x80, 0x80, 0x40, 0x11, 0x11, 0x11, 0xFF] := by decide +kernel

/-- V60. -/
theorem test_pixRgba8 :
    see (step (line [0x11, 0x22, 0x33, 0x80] 1 0x0608)) (fun t => dump t .pix 0 4) =
      some [0x11, 0x22, 0x33, 0x80] := by decide +kernel

/-- V61. -/
theorem test_pixIdx1 :
    see (step { line [0xB0] 4 0x0301 with work.cfg.plteLen := 2 }) (fun t => dump t .pix 0 16) =
      some [0xFF, 0, 0, 0xFF, 0, 0, 0, 0xFF, 0xFF, 0, 0, 0xFF, 0xFF, 0, 0, 0xFF] := by decide +kernel

/-- V63. -/
theorem test_pixIdx2 :
    see (step { line [0x1B, 0x00] 5 0x0302 with
        work.cfg.trnsCtrl := 0x10004, trnsMem := cells [0xFF, 0xFF, 0xFF, 0] }) (fun t => dump t .pix 0 20) =
      some [0, 0, 0, 0xFF, 0xFF, 0, 0, 0xFF, 0, 0xFF, 0, 0xFF, 0, 0, 0xFF, 0, 0, 0, 0, 0xFF] := by decide +kernel

/-- V64. -/
theorem test_pixIdx4 :
    see (step { line [0x31, 0x20] 3 0x0304 with work.cfg.trnsCtrl := 0x10002, trnsMem := cells [0x10, 0x20] })
      (fun t => dump t .pix 0 12) = some [0, 0, 0xFF, 0xFF, 0xFF, 0, 0, 0x20, 0, 0xFF, 0, 0xFF] := by decide +kernel

/-- V65. -/
theorem test_pixIdx8 :
    see (step (line [3, 0] 2 0x0308)) (fun t => dump t .pix 0 8) = some [0, 0, 0xFF, 0xFF, 0, 0, 0, 0xFF] ∧
      see (step { line [3, 0] 2 0x0308 with work.cfg.plteLen := 3 }) (fun t => (t.errCause, t.pixMem)) =
        some (.paletteIndex, []) := by decide +kernel

/-- V68, V70, V72: a START by the host, with the error registers of an earlier run cleared. -/
theorem test_start :
    see (step { machine with
        runState := .failed, errKind := .format, errCause := .dimension, host := [.regWrite 0 1] })
      (fun t => (t.regRead 4, t.regRead 8, t.regRead 12, t.phase)) = some (1, 0, 0, .check) := by decide +kernel

/-- V70, V71: both bits of CTRL set is a RESET; a write of neither bit does nothing. -/
theorem test_reset :
    see (step { machine with
        runState := .failed, errKind := .format, errCause := .dimension, cfg.width := 7, host := [.regWrite 0 3] })
      (fun t => (t.regRead 4, t.regRead 8, t.regRead 12, t.regRead 0x14)) = some (0, 0, 0, 0) ∧
    see (step { machine with runState := .failed, cfg.width := 7, host := [.regWrite 0 0xFFFFFFFC] })
      (fun t => (t.regRead 4, t.regRead 0x14)) = some (3, 7) := by decide +kernel

/-- V67, V73: the bits a register has; a write while BUSY is ignored. -/
theorem test_registers :
    [0x1C, 0x20, 0x24, 0x28, 0x2C].map (fun off => (machine.regWrite off 0xFFFFFFFF).regRead off) =
        [0xFFFF, 0x1FF, 0x101FF, 0xFFFFFF, 0] ∧
      ({ machine with runState := .busy }.regWrite 0x14 7).regRead 0x14 = 0 := by decide +kernel

/-- R20, R396: CHECK copies the registers; a later phase sees the copy and not the registers. -/
theorem test_descriptor :
    see (step checked) (fun t => (t.cfg, t.work.cfg)) = some (checked.cfg, checked.cfg) ∧
      see (step { rows [0, 1] 1 1 1 0 with cfg.height := 7 }) (fun t => t.phase) = some .assemble := by decide +kernel

/-- V69, P1: descriptor tests in their order, and the geometry of 1 x 1 RGBA. -/
theorem test_check :
    see (step checked) (fun t => (t.phase, t.work.bitsPP, t.work.rowBytes, t.work.bpp, t.work.cap)) =
        some (.zhdr, 32, 4, 4, 5) ∧
      see (step { checked with cfg.width := 0, cfg.imgFmt := 0x0108 }) (fun t => t.errCause) = some .dimension ∧
      see (step { checked with cfg.inLen := 65, cfg.width := 0 }) (fun t => t.errCause) = some .inSize := by
  decide +kernel

/-- V18: the final block ended one byte short. -/
theorem test_infend :
    see (step { raw [] 6 .infend with work.outPos := 5 }) (fun t => (t.errCause, t.errKind)) =
      some (.shortOutput, .stream) := by decide +kernel

/-- V1, V5: `read(3)` and the window after it. -/
theorem test_readBits :
    (match readBits 3 (raw [0xB5, 0x01, 0xF0] 0 .blkhdr) with
      | .ok v t => some (v, t.work.bitPos, t.work.acc, t.work.nbits)
      | .raised _ _ => none) = some (5, 3, 0x1E0036, 21) := by decide +kernel

/-- V7, V8, V9: canonical codes, and the sets that are refused. -/
theorem test_build :
    (Huff.build [3, 3, 3, 3, 3, 2, 4, 4] 8).map (fun t => (t.sym, t.used, [5, 0, 4, 6, 7].map t.codeOf)) =
        some ([5, 0, 1, 2, 3, 4, 6, 7], 8, [(0, 2), (2, 3), (6, 3), (14, 4), (15, 4)].map some) ∧
      Huff.build [1, 1, 1] 3 = none ∧ Huff.build [2, 2, 2, 2, 15] 5 = none ∧
      (Huff.build [0, 0, 0] 3).isSome = true ∧ (Huff.build [15, 15, 15] 3).isSome = true := by decide +kernel

/-- V14a: BAD_CODE against STARVED at the end of the stream. -/
theorem test_huffDecode :
    let one (lens : List Nat) : Option Cause :=
      match (Huff.build lens lens.length).map fun t =>
        huffDecode t { machine with inMem := cells [1], work.endBit := 1 } with
      | some (.raised c _) => some c
      | _ => none
    one [2, 2, 2] = some .starved ∧ one [1] = some .badCode := by decide +kernel

/-- A placed table word is the element the next step runs: a distance symbol, a filter, a command. -/
theorem test_withFetchWord :
    runs (State.reset.withFetchWord 8 3).nextAct = some .filtAvg ∧
      runs (State.reset.withFetchWord 16 0x11D).nextAct = some .len285 ∧
      runs (State.reset.withFetchWord 8 1).nextAct = some .start := by decide +kernel

/-! ### Witnesses: the hypotheses of each statement are met, for each of its clauses -/

/-- The tables of V8 (complete), of V13 (one code) and the states the witnesses share. -/
def tree : Huff := (Huff.build [2, 1, 3, 3] 4).getD Huff.empty
def single : Huff := (Huff.build [1] 1).getD Huff.empty
def stored : List Nat := [0x01, 0x05, 0x00, 0xFA, 0xFF, 0x48, 0x65, 0x6C, 0x6C, 0x6F]
def p1 : List Nat := [0x78, 1, 1, 5, 0, 0xFA, 0xFF, 0, 0x11, 0x22, 0x33, 0x80, 1, 0x95, 0, 0xE7]

/-- What the statements about a dynamic header say of its third part. -/
def clLensAt (s : State) (p : Nat) : List Nat :=
  (List.range 19).map fun y =>
    if clOrder.idxOf y < s.bits (p + 10) 4 + 4 then s.bits (p + 14 + 3 * clOrder.idxOf y) 3 else 0

/-- A state in the middle of a run that meets the whole invariant: P1's descriptor and IN, in the body of a fixed block
whose codes are bytes of that IN. -/
def running : State :=
  { full p1 5 .body with
    cfg := { checked.cfg with inLen := BitVec.ofNat 32 p1.length }
    work.cfg := { checked.cfg with inLen := BitVec.ofNat 32 p1.length }
    work.bitsPP := 32
    work.rowBytes := 4
    work.bpp := 4
    work.llt := fixedLlt
    work.dt := fixedDt }

theorem running_inv : Inv running := by
  have hm : MemInv running := by intro sp; cases sp <;> decide +kernel
  have hs : StatusInv running := by unfold StatusInv; decide +kernel
  have hr : RegInv running := by unfold RegInv; decide +kernel
  have hw : WindowOk running :=
    (full_window p1 5 .body (by decide)).congr rfl rfl rfl rfl rfl rfl rfl
  refine ⟨hm, hr, hs, fun _ => hw, ⟨fun _ => ?_, fun _ => ?_, fun h => ?_, fun _ l h => ?_, fun h => ?_⟩, ?_, fun h => ?_,
    fun _ => ⟨?_, ?_⟩⟩
  · exact ⟨rfl, by decide +kernel, by decide +kernel, by decide +kernel, ⟨.pixRgba8, by decide +kernel⟩,
      by decide +kernel,
      by decide +kernel, by decide +kernel, by decide +kernel, by decide +kernel, by decide +kernel⟩
  · have ho : running.work.outPos = 0 := by decide +kernel
    exact ⟨by decide +kernel, by decide +kernel, by decide +kernel, by decide +kernel, by decide +kernel,
      fun a ha => by omega⟩
  · exact absurd h (by decide +kernel)
  · exact absurd (show (none : Option Nat) = some l from h) (by simp)
  · exact absurd h (by decide +kernel)
  · intro sp
    cases sp <;> decide +kernel
  · exact absurd h (by decide +kernel)
  · decide +kernel
  · decide +kernel

/-- The descriptor of V69 in phase CHECK meets the whole invariant, whatever its WIDTH and the machine's sizes. -/
theorem check_inv (w : Word) (p : Params) : Inv { checked with cfg.width := w, params := p } := by
  have hr : RegInv checked := by unfold RegInv; decide +kernel
  have hs : StatusInv checked := by unfold StatusInv; decide +kernel
  refine ⟨?_, hr, hs, fun h => ?_, ⟨fun h => ?_, fun h => ?_, fun h => ?_, fun h => ?_, fun h => ?_⟩, ?_, fun h => ?_,
    fun h => ?_⟩
  · intro sp; cases sp <;> rfl
  · exact absurd h (by simp [checked, Phase.streaming])
  · exact absurd h (by simp [checked, Phase.checked])
  · exact absurd h (by simp [checked, Phase.streaming])
  · exact absurd h (by simp [checked])
  · exact absurd h (by simp [checked])
  · exact absurd h (by simp [checked])
  · intro sp c hc; cases sp <;> exact absurd hc (List.not_mem_nil)
  · exact absurd h (by simp [checked])
  · exact absurd h (by simp [checked])

theorem witness_DecodeEncode :
    (Instr.zlibHdr 15 31 3).wellFormed = true ∧ (Instr.clLen 15).wellFormed = true ∧
      (Instr.lit 0xFF).wellFormed = true := by decide

theorem witness_EncodeDecode :
    decodeWord .zlib 0xDFF8 = .ok (.zlibHdr 15 31 3) ∧ decodeWord .clsym 15 = .ok (.clLen 15) ∧
      decodeWord .ctrl 3 = .ok .reset := by decide +kernel

theorem witness_WordsRefused :
    (0xFFFF < 2 ^ 16 ∧ 0xFFFF % 16 ≠ 8) ∧ (0x2008 % 16 = 8 ∧ Nat.testBit 0x2008 13 = true) ∧
      (0xDFF8 % 16 = 8 ∧ Nat.testBit 0xDFF8 13 = false) ∧ 7 < 2 ^ 3 ∧ 4 < 5 ∧ (5 ≤ 5 ∧ 255 < 2 ^ 8) ∧
      255 ∉ [0, 2, 3, 4, 6] ∧
      (6 ∈ [0, 2, 3, 4, 6] ∧ (6, 16) ∉ [(0, 8), (2, 8), (3, 1), (3, 2), (3, 4), (3, 8), (4, 8), (6, 8)]) ∧
      (6, 8) ∈ [(0, 8), (2, 8), (3, 1), (3, 2), (3, 4), (3, 8), (4, 8), (6, 8)] ∧
      (Nat.testBit 0xFFFFFFFF 1 = true ∧ 0xFFFFFFFF < 2 ^ 32) ∧
      (Nat.testBit 0xFFFFFFFD 1 = false ∧ Nat.testBit 0xFFFFFFFD 0 = true) ∧
      (Nat.testBit 0xFFFFFFFC 1 = false ∧ Nat.testBit 0xFFFFFFFC 0 = false) := by decide

/-- 19 code-length-code lengths of 1: over-subscribed, in a list, and in CLLENS of a state. -/
theorem witness_BuildAccepts :
    let lens := List.replicate 19 1
    2 ^ 15 < kraft lens ∧ Huff.build lens 19 = none ∧ (Huff.build [1, 1] 2).isSome = true ∧
      ({ machine with work.clLens := Vector.replicate 19 1 } : State).work.clLens.toList.map BitVec.toNat = lens := by
  decide +kernel

/-- V9: the sums 32768 and 32769. -/
theorem test_kraft : kraft [1, 1] = 2 ^ 15 ∧ kraft [2, 2, 2, 2, 15] = 2 ^ 15 + 1 := by decide

theorem witness_BuildTable :
    (∀ l ∈ [2, 1, 3, 3], l ≤ 15) ∧ Huff.build [2, 1, 3, 3] [2, 1, 3, 3].length = some tree ∧
      3 < [2, 1, 3, 3].length ∧ [2, 1, 3, 3].getD 3 0 ≠ 0 := by decide +kernel

theorem witness_CodesDecode :
    (∀ l ∈ [2, 1, 3, 3], l ≤ 15) ∧ Huff.build [2, 1, 3, 3] [2, 1, 3, 3].length = some tree ∧
      StartsWith (ahead [1, 1, 1]) (tree.codeVal [2, 1, 3, 3] 3) ([2, 1, 3, 3].getD 3 0) ∧
      tree.lookup (ahead [1, 1, 1]) = some (3, 3) ∧
      Huff.build [1] [1].length = some single ∧ single.lookup (ahead [1]) = none := by
  unfold StartsWith; decide +kernel

theorem witness_CodesPrefixFree :
    (∀ l ∈ [2, 1, 3, 3], l ≤ 15) ∧ Huff.build [2, 1, 3, 3] [2, 1, 3, 3].length = some tree ∧
      StartsWith (ahead [1, 1, 1]) (tree.codeVal [2, 1, 3, 3] 3) ([2, 1, 3, 3].getD 3 0) ∧
      tree.hit 3 (candidate (ahead [1, 1, 1]) 3) = true ∧ kraft [2, 1, 3, 3] = 2 ^ 15 := by
  unfold StartsWith; decide +kernel

/-- S5, V11: the codes at each boundary. -/
theorem witness_FixedCodes :
    StartsWith (ahead [0, 0, 1, 1, 0, 0, 0, 0]) (48 + 0) 8 ∧ StartsWith (ahead [1, 0, 1, 1, 1, 1, 1, 1]) (48 + 143) 8 ∧
      StartsWith (ahead [1, 1, 0, 0, 1, 0, 0, 0, 0]) (400 + (144 - 144)) 9 ∧
      StartsWith (ahead [1, 1, 1, 1, 1, 1, 1, 1, 1]) (400 + (255 - 144)) 9 ∧
      StartsWith (ahead [0, 0, 0, 0, 0, 0, 0]) (256 - 256) 7 ∧ StartsWith (ahead [0, 0, 1, 0, 1, 1, 1]) (279 - 256) 7 ∧
      StartsWith (ahead [1, 1, 0, 0, 0, 0, 0, 0]) (192 + (280 - 280)) 8 ∧
      StartsWith (ahead [1, 1, 0, 0, 0, 1, 1, 1]) (192 + (287 - 280)) 8 ∧ StartsWith (ahead [0, 0, 0, 0, 0]) 0 5 ∧
      StartsWith (ahead [1, 1, 1, 1, 1]) 31 5 := by
  unfold StartsWith; decide +kernel

theorem witness_EngineTurn (s : State) (h : s.host = []) : EngineTurn s s ∧ EngineTurn { s with host := [.wait] } s :=
  ⟨.inl ⟨h, rfl⟩, .inr ⟨[], rfl, by cases s; cases h; rfl⟩⟩

theorem witness_StepRunsElement :
    (∃ s, EngineTurn s s ∧ s.runState = .busy ∧ s.phase = .zhdr ∧ 6 ≤ s.work.cfg.inLen.toNat ∧
      decodeBytes .zlib [s.read .inp 0, s.read .inp 1] = .ok (.zlibHdr 7 1 0)) ∧
    (∃ s, EngineTurn s s ∧ s.runState = .busy ∧ s.phase = .blkhdr ∧ s.work.bitPos + 3 ≤ s.work.endBit ∧
      decodeWord .blk (s.bits s.work.bitPos 3) = .ok (.blkStored true)) ∧
    (∃ s, EngineTurn s s ∧ s.runState = .busy ∧ s.phase = .dynhdr ∧
      s.work.clt.lookup s.peekbit = some (16, 5) ∧ s.work.bitPos + 5 ≤ s.work.endBit ∧
      decodeWord .clsym 16 = .ok .clRep16) ∧
    (∃ s, EngineTurn s s ∧ s.runState = .busy ∧ s.phase = .body ∧ s.work.matchLen = none ∧
      s.work.llt.lookup s.peekbit = some (256, 7) ∧ s.work.bitPos + 7 ≤ s.work.endBit ∧
      decodeWord .ll 256 = .ok .eob) ∧
    (∃ s, EngineTurn s s ∧ s.runState = .busy ∧ s.phase = .body ∧ s.work.matchLen ≠ none ∧
      s.work.dt.lookup s.peekbit = some (0, 5) ∧ s.work.bitPos + 5 ≤ s.work.endBit ∧
      decodeWord .dist 0 = .ok .dist0) ∧
    (∃ s, EngineTurn s s ∧ s.runState = .busy ∧ s.phase = .defilter ∧
      decodeBytes .row [s.read .out (s.work.row * (1 + s.work.rowBytes))] = .ok .filtPaeth) ∧
    (∃ s, EngineTurn s s ∧ s.runState = .busy ∧ s.phase = .assemble ∧
      decodeWord .pix s.work.cfg.pixWord = .ok .pixIdx1) ∧
    (∃ (s : State) (v : Word), s.host = .regWrite 0 v :: [] ∧ decodeWord .ctrl v.toNat = .ok .start) :=
  ⟨⟨full p1 5 .zhdr, .inl ⟨rfl, rfl⟩, by decide +kernel⟩,
    ⟨raw stored 5 .blkhdr, .inl ⟨rfl, rfl⟩, by decide +kernel⟩,
    ⟨{ raw [1] 5 .dynhdr with work.clt := flatClt }, .inl ⟨rfl, rfl⟩, by decide +kernel⟩,
    ⟨body [0] 5, .inl ⟨rfl, rfl⟩, by decide +kernel⟩,
    ⟨{ body [0] 5 with work.matchLen := some 3 }, .inl ⟨rfl, rfl⟩, by decide +kernel⟩,
    ⟨rows [0, 1, 4, 1] 1 1 2 1, .inl ⟨rfl, rfl⟩, by decide +kernel⟩,
    ⟨line [0xB0] 4 0x0301, .inl ⟨rfl, rfl⟩, by decide +kernel⟩,
    ⟨{ machine with host := [.regWrite 0 1] }, 1, rfl, by decide +kernel⟩⟩

theorem witness_FetchFailures :
    (∃ s, EngineTurn s s ∧ s.runState = .busy ∧ s.phase = .zhdr ∧ s.work.cfg.inLen.toNat < 6) ∧
    (∃ s, EngineTurn s s ∧ s.runState = .busy ∧ s.phase = .zhdr ∧ 6 ≤ s.work.cfg.inLen.toNat ∧
      (s.read .inp 0).toNat % 16 ≠ 8) ∧
    (∃ s, EngineTurn s s ∧ s.runState = .busy ∧ s.phase = .zhdr ∧ 6 ≤ s.work.cfg.inLen.toNat ∧
      (s.read .inp 0).toNat % 16 = 8 ∧ (s.read .inp 1).getLsbD 5 = true) ∧
    (∃ s, EngineTurn s s ∧ s.runState = .busy ∧ s.phase = .blkhdr ∧ s.work.endBit < s.work.bitPos + 3) ∧
    (∃ s, EngineTurn s s ∧ s.runState = .busy ∧ s.phase = .dynhdr ∧ s.work.clt.lookup s.peekbit = none) ∧
    (∃ s, EngineTurn s s ∧ s.runState = .busy ∧ s.phase = .body ∧ s.work.matchLen = none ∧
      s.work.llt.lookup s.peekbit = some (256, 7) ∧ s.work.endBit < s.work.bitPos + 7) ∧
    (∃ s, EngineTurn s s ∧ s.runState = .busy ∧ s.phase = .body ∧ s.work.matchLen ≠ none ∧
      s.work.dt.lookup s.peekbit = none) ∧
    (∃ s, EngineTurn s s ∧ s.runState = .busy ∧ s.phase = .defilter ∧
      5 ≤ (s.read .out (s.work.row * (1 + s.work.rowBytes))).toNat) :=
  ⟨⟨full [0x78, 1, 0, 0, 0] 5 .zhdr, .inl ⟨rfl, rfl⟩, by decide +kernel⟩,
    ⟨full [0x79, 1, 0, 0, 0, 0] 5 .zhdr, .inl ⟨rfl, rfl⟩, by decide +kernel⟩,
    ⟨full [0x78, 0x20, 0, 0, 0, 0] 5 .zhdr, .inl ⟨rfl, rfl⟩, by decide +kernel⟩,
    ⟨{ raw [7] 5 .blkhdr with work.bitPos := 6 }, .inl ⟨rfl, rfl⟩, by decide +kernel⟩,
    ⟨raw [1] 5 .dynhdr, .inl ⟨rfl, rfl⟩, by decide +kernel⟩,
    ⟨{ body [0] 5 with work.bitPos := 3 }, .inl ⟨rfl, rfl⟩, by decide +kernel⟩,
    ⟨{ body [1] 5 with work.matchLen := some 3, work.dt := single }, .inl ⟨rfl, rfl⟩, by decide +kernel⟩,
    ⟨rows [5, 1] 1 1 1 0, .inl ⟨rfl, rfl⟩, by decide +kernel⟩⟩

theorem witness_IdleEngine : machine.host = [] ∧ machine.runState ≠ .busy := by decide

theorem witness_ReadField :
    (raw [0xB5] 0 .blkhdr).work.endBit < (raw [0xB5] 0 .blkhdr).work.bitPos + 16 ∧
      (raw [0x34, 0x12] 0 .blkhdr).work.bitPos + 16 ≤ (raw [0x34, 0x12] 0 .blkhdr).work.endBit ∧
      WindowOk (raw [0x34, 0x12] 0 .blkhdr) := ⟨by decide +kernel, by decide +kernel, raw_window _ _ _⟩

theorem witness_AlignCursor : ∃ s, s.work.bitPos = 17 ∧ WindowOk s :=
  ⟨advance 1 (advance 16 (raw [0xB5, 0x01, 0xF0] 0 .blkhdr)), by decide +kernel,
    ((raw_window _ _ _).advance (by decide) (by decide +kernel)).advance (by decide) (by decide +kernel)⟩

theorem witness_WindowAnswers :
    WindowOk (raw [0x34, 0x12] 0 .blkhdr) ∧
      (raw [0x34, 0x12] 0 .blkhdr).work.bitPos + 16 ≤ (raw [0x34, 0x12] 0 .blkhdr).work.endBit ∧
      (raw [0xB5] 0 .blkhdr).work.nbits < 16 := ⟨raw_window _ _ _, by decide +kernel, by decide +kernel⟩

theorem witness_WindowKept :
    ∃ s t, StatusInv s ∧ WindowInv s ∧ step s = .next t ∧ s.phase = .blkhdr ∧ t.phase = .infend := by
  obtain ⟨t, h, e⟩ := next_of_see (o := step (raw stored 5 .blkhdr)) (f := fun t => t.phase) (a := .infend)
    (by decide +kernel)
  exact ⟨_, t, by unfold StatusInv; decide +kernel, fun _ => raw_window _ _ _, h, by decide +kernel, e⟩

theorem witness_ZlibHeader :
    (full [0x78, 1, 0, 0, 0] 5 .zhdr).work.cfg.inLen.toNat < 6 ∧
      6 ≤ (full [0x78, 1, 0, 0, 0, 0] 5 .zhdr).work.cfg.inLen.toNat := by decide +kernel

theorem witness_StoredBlock :
    let s := advance 3 (raw stored 5 .blkhdr)
    8 * ((s.work.bitPos + 7) / 8) = 8 ∧ s.bits (8 + 16) 16 = 0xFFFF - s.bits 8 16 ∧
      s.work.outPos + s.bits 8 16 ≤ s.work.cap ∧ 8 + 32 + 8 * s.bits 8 16 ≤ s.work.endBit := by decide +kernel

/-- V16 to V18. -/
theorem witness_StoredFailures :
    (let s := advance 3 (raw [0x01, 0x05, 0x00, 0xFA] 5 .blkhdr); s.work.endBit < 8 + 32) ∧
    (let s := advance 3 (raw [0x01, 0x05, 0x00, 0xFB, 0xFF] 5 .blkhdr);
      8 + 32 ≤ s.work.endBit ∧ s.bits (8 + 16) 16 ≠ 0xFFFF - s.bits 8 16) ∧
    (let s := advance 3 (raw stored 4 .blkhdr);
      8 + 32 ≤ s.work.endBit ∧ s.bits (8 + 16) 16 = 0xFFFF - s.bits 8 16 ∧ s.work.cap < s.work.outPos + s.bits 8 16) ∧
    (let s := advance 3 (raw (stored.take 9) 5 .blkhdr);
      8 + 32 ≤ s.work.endBit ∧ s.bits (8 + 16) 16 = 0xFFFF - s.bits 8 16 ∧
        s.work.outPos + s.bits 8 16 ≤ s.work.cap ∧ s.work.endBit < 8 + 32 + 8 * s.bits 8 16) := by decide +kernel

/-- V37. -/
theorem witness_DynamicHeader :
    let s := advance 3 (raw [0x15, 0xC1, 0x01, 0x0D, 0x00, 0x00, 0x00, 0xC2, 0xA0, 0xAC] 10 .blkhdr)
    s.work.bitPos + 14 + 3 * (s.bits (s.work.bitPos + 10) 4 + 4) ≤ s.work.endBit ∧
      (Huff.build (clLensAt s s.work.bitPos) 19).isSome = true := by decide +kernel

/-- V39, and V37 cut short. -/
theorem witness_DynamicFailures :
    (let s := advance 3 (raw [0x15, 0xC1, 0x01, 0x0D, 0x00, 0x00, 0x00, 0xC2] 10 .blkhdr);
      s.work.endBit < s.work.bitPos + 14 + 3 * (s.bits (s.work.bitPos + 10) 4 + 4)) ∧
    (let s := advance 3 (raw [0x05, 0x00, 0x92, 0x00] 0 .blkhdr);
      s.work.bitPos + 14 + 3 * (s.bits (s.work.bitPos + 10) 4 + 4) ≤ s.work.endBit ∧
        Huff.build (clLensAt s s.work.bitPos) 19 = none) := by decide +kernel

/-- Each run one length short of N = 258: with the extra bits all 1, the runs are 6, 10 and 138. -/
theorem witness_CodeLengths :
    let s (lenI : Nat) : State := { raw [0xFF] 0 .dynhdr with work.hlit := 257, work.hdist := 1, work.lenI := lenI }
    (15 < 16 ∧ (s 256).work.lenI + 1 < 257 + 1) ∧
    (1 ≤ (s 251).work.lenI ∧ (s 251).work.bitPos + 2 ≤ (s 251).work.endBit ∧
      (s 251).work.lenI + (3 + (s 251).bits (s 251).work.bitPos 2) < 257 + 1) ∧
    ((s 247).work.bitPos + 3 ≤ (s 247).work.endBit ∧
      (s 247).work.lenI + (3 + (s 247).bits (s 247).work.bitPos 3) < 257 + 1) ∧
    ((s 119).work.bitPos + 7 ≤ (s 119).work.endBit ∧
      (s 119).work.lenI + (11 + (s 119).bits (s 119).work.bitPos 7) < 257 + 1) := by decide +kernel

/-- Each run ends at N = 258; all the lengths are 0, or all 1. -/
theorem witness_CodeLengthsEnd :
    let s (lenI : Nat) : State := { raw [0xFF] 0 .dynhdr with work.hlit := 257, work.hdist := 1, work.lenI := lenI }
    ((s 257).work.lenI + 1 = 257 + 1 ∧ (s 252).work.lenI + (3 + (s 252).bits 0 2) = 257 + 1 ∧
      (s 248).work.lenI + (3 + (s 248).bits 0 3) = 257 + 1 ∧ (s 120).work.lenI + (11 + (s 120).bits 0 7) = 257 + 1) ∧
    (Huff.build ((lensAfter (s 257) 1 0).take 257) 257).isSome = true ∧
    (Huff.build (((lensAfter (s 257) 1 0).drop 257).take 1) 1).isSome = true ∧
    Huff.build ((lensAfter { s 257 with work.lens := Vector.replicate 320 1 } 1 1).take 257) 257 = none := by
  decide +kernel

theorem witness_CodeLengthFailures :
    let s (l : List Nat) (lenI : Nat) : State :=
      { raw l 0 .dynhdr with work.hlit := 257, work.hdist := 1, work.lenI := lenI }
    (s [] 0).work.lenI = 0 ∧ ((s [] 1).work.lenI ≠ 0 ∧ (s [] 1).work.endBit < (s [] 1).work.bitPos + 2) ∧
      (s [] 1).work.endBit < (s [] 1).work.bitPos + 3 ∧ (s [] 1).work.endBit < (s [] 1).work.bitPos + 7 ∧
      ((s [0xFF] 253).work.bitPos + 2 ≤ (s [0xFF] 253).work.endBit ∧ 257 + 1 < 253 + (3 + (s [0xFF] 253).bits 0 2)) ∧
      257 + 1 < 249 + (3 + (s [0xFF] 249).bits 0 3) ∧ 257 + 1 < 121 + (11 + (s [0xFF] 121).bits 0 7) := by
  decide +kernel

theorem witness_LiteralAppended :
    (body [0] 1).work.outPos + 1 ≤ (body [0] 1).work.cap ∧ (body [0] 0).work.cap < (body [0] 0).work.outPos + 1 := by
  decide +kernel

theorem witness_LengthSymbols :
    (let s : State := { body [0xFF] 1 with work.bitPos := 3 }; s.work.bitPos + 5 ≤ s.work.endBit) ∧
      (let s : State := { body [0xFF] 1 with work.bitPos := 4 }; s.work.endBit < s.work.bitPos + 5) := by decide +kernel

/-- V36: DIST1, distance 2 = OUT_POS, the copy filling OUT to CAP. -/
theorem witness_DistanceSymbols :
    let s : State := { body [0] 5 with work.matchLen := some 3, work.outPos := 2 }
    s.work.matchLen = some 3 ∧ s.work.bitPos + 0 ≤ s.work.endBit ∧ 2 + s.bits s.work.bitPos 0 ≤ s.work.outPos ∧
      s.work.outPos + 3 ≤ s.work.cap := by decide +kernel

/-- DIST29 with a bit missing and at OUT_POS one too low, DIST1 with CAP one too low. -/
theorem witness_MatchFailures :
    (let s : State := { body [0xFF, 0x0F] 5 with work.matchLen := some 3, work.bitPos := 4 };
      s.work.matchLen = some 3 ∧ s.work.endBit < s.work.bitPos + 13) ∧
    (let s : State := { body [0xFF, 0xFF] 5 with work.matchLen := some 3, work.outPos := 32767 };
      s.work.bitPos + 13 ≤ s.work.endBit ∧ s.work.outPos < 24577 + s.bits s.work.bitPos 13) ∧
    (let s : State := { body [0] 4 with work.matchLen := some 3, work.outPos := 2 };
      2 + s.bits s.work.bitPos 0 ≤ s.work.outPos ∧ s.work.cap < s.work.outPos + 3) := by decide +kernel

theorem witness_BodyStepRefined :
    (body [0xFF] 4).host = [] ∧ (body [0xFF] 4).runState = .busy ∧ (body [0xFF] 4).phase = .body ∧
      (body [0xFF] 4).work.matchLen = none := by decide +kernel

theorem witness_FilterRows : 1 ≤ (rows [1, 2] 1 1 1 0).work.bpp := by decide

/-- V56: (10, 20, 20) = a, (10, 20, 10) = b, (10, 20, 15) = c. -/
theorem witness_PaethNearest :
    (let p : Int := 10 + 20 - 20; (p - 10).natAbs ≤ (p - 20).natAbs ∧ (p - 10).natAbs ≤ (p - 20).natAbs) ∧
    (let p : Int := 10 + 20 - 10; (p - 20).natAbs < (p - 10).natAbs ∧ (p - 20).natAbs ≤ (p - 10).natAbs) ∧
    (let p : Int := 10 + 20 - 15; (p - 15).natAbs < (p - 10).natAbs ∧ (p - 15).natAbs < (p - 20).natAbs) := by decide

theorem witness_FirstRow : 1 ≤ (rows [1, 2] 1 1 1 0).work.bpp ∧ (rows [1, 2] 1 1 1 0).work.row = 0 := by decide

/-- V61, V63, V64, V65: every index below PLTE_LEN, the largest just below it. -/
theorem witness_IndexedPixels :
    (let s : State := { line [0xB0] 4 0x0301 with work.cfg.plteLen := 2 };
      ∀ x, x < s.work.cfg.width.toNat → s.indexAt 1 s.work.row x < s.work.cfg.palLen) ∧
    (let s := line [0x1B, 0] 5 0x0302; ∀ x, x < s.work.cfg.width.toNat → s.indexAt 2 s.work.row x < s.work.cfg.palLen) ∧
    (let s := line [0x31, 0x20] 3 0x0304;
      ∀ x, x < s.work.cfg.width.toNat → s.indexAt 4 s.work.row x < s.work.cfg.palLen) ∧
    (let s := line [3, 0] 2 0x0308;
      ∀ x, x < s.work.cfg.width.toNat → s.indexAt 8 s.work.row x < s.work.cfg.palLen) := by
  decide +kernel

/-- P4 (e): the index 3 at column 3 with PLTE_LEN 3. -/
theorem witness_PaletteFailure :
    let s : State := { line [0x1B, 0] 5 0x0302 with work.cfg.plteLen := 3 }
    3 < s.work.cfg.width.toNat ∧ s.work.cfg.palLen ≤ s.indexAt 2 s.work.row 3 ∧
      ∀ x, x < 3 → s.indexAt 2 s.work.row x < s.work.cfg.palLen := by decide +kernel

theorem witness_StartRun : machine.runState ≠ .busy ∧ checked.runState = .busy := by decide

theorem witness_ResetEngine : ∃ s : State, s.host = .hardReset :: [] :=
  ⟨{ checked with host := [.hardReset] }, rfl⟩

theorem witness_StatusReadback :
    let s : State := raise .pixSize checked
    s.errKind = s.errCause.kind ∧ s.errCause = .pixSize ∧ (Cause.pixSize, 0x42) ∈ [(Cause.pixSize, 0x42)] := by decide

theorem witness_BusyIgnores :
    (∃ s : State, s.runState = .busy ∧ s.host = .regWrite 0x14 7 :: [] ∧ 0x14 ≠ 0) ∧
      ∃ s : State, s.runState = .busy ∧ s.host = .regWrite 0 1 :: [] ∧ (1 : Word).getLsbD 1 = false :=
  ⟨⟨{ checked with host := [.regWrite 0x14 7] }, by decide +kernel⟩,
    ⟨{ checked with host := [.regWrite 0 1] }, by decide +kernel⟩⟩

theorem witness_RegisterFields :
    machine.runState ≠ .busy ∧ (0x14 ≠ 0 ∧ 0x18 ≠ 0x14) ∧
      0x04 ∉ [0x00, 0x10, 0x14, 0x18, 0x1C, 0x20, 0x24, 0x28] ∧
      0x2C ∉ [0x00, 0x10, 0x14, 0x18, 0x1C, 0x20, 0x24, 0x28] ∧
      0x2C ∉ [0x04, 0x08, 0x0C, 0x10, 0x14, 0x18, 0x1C, 0x20, 0x24, 0x28] := by decide

/-- PLTE's last address, and the one behind it (R50); a CTRL write of neither command outside BUSY and in it. -/
theorem witness_HostAccesses :
    (machine.runState ≠ .busy ∧ 767 < machine.size .plte ∧ machine.size .plte ≤ 768) ∧ checked.runState = .busy ∧
      (∃ s : State, s.host = .memWrite .plte 767 1 :: []) ∧ (∃ s : State, s.host = .memRead .plte 768 :: []) ∧
      (∃ s : State, s.host = .regRead 4 :: []) ∧ (∃ s : State, s.host = .regWrite 0x14 7 :: [] ∧ 0x14 ≠ 0) ∧
      (∃ s : State, s.host = .wait :: [] ∧ s.runState ≠ .busy) ∧
      (∀ r ∈ [RunState.idle, .busy], ∃ s : State, s.host = .regWrite 0 0xFFFFFFFC :: [] ∧ s.runState = r) ∧
      (0xFFFFFFFC : Word).getLsbD 0 = false ∧ (0xFFFFFFFC : Word).getLsbD 1 = false :=
  ⟨by decide, by decide, ⟨{ machine with host := [.memWrite .plte 767 1] }, rfl⟩,
    ⟨{ machine with host := [.memRead .plte 768] }, rfl⟩, ⟨{ machine with host := [.regRead 4] }, rfl⟩,
    ⟨{ machine with host := [.regWrite 0x14 7] }, rfl, by decide⟩, ⟨{ machine with host := [.wait] }, by decide⟩,
    fun r _ => ⟨{ machine with runState := r, host := [.regWrite 0 0xFFFFFFFC] }, rfl, rfl⟩, by decide, by decide⟩

/-- V69: each outcome of CHECK is met. -/
theorem witness_CheckOrder :
    EngineTurn checked checked ∧ checked.runState = .busy ∧ checked.phase = .check ∧
      [({ checked with cfg.inLen := 65, cfg.width := 0 } : State), { checked with cfg.height := 0 },
        { checked with cfg.imgFmt := 0x0508 }, { checked with cfg.imgFmt := 0x0610 },
        { checked with cfg.imgFmt := 0x0308 }, { checked with cfg.trnsCtrl := 0x101 },
        { checked with params := ⟨16, 4, 4⟩ }, { checked with params := ⟨16, 5, 3⟩ },
        { checked with params := ⟨16, 5, 4⟩ }].map (fun s => see (step s) fun t => t.errCause) =
      [.inSize, .dimension, .colorType, .depth, .noPalette, .descriptor, .outSize, .pixSize, .none].map some :=
  ⟨.inl ⟨rfl, rfl⟩, rfl, rfl, by decide +kernel⟩

theorem witness_InflateEnd :
    ∃ s : State, EngineTurn s s ∧ s.runState = .busy ∧ s.phase = .infend ∧ s.work.outPos = s.work.cap :=
  ⟨raw [] 0 .infend, .inl ⟨rfl, rfl⟩, by decide +kernel⟩

/-- A step in the middle of a run. -/
theorem witness_InvKept :
    ∃ t, Inv running ∧ EngineTurn running running ∧ running.runState = .busy ∧ step running = .next t ∧
      t.runState = .busy := by
  obtain ⟨t, h, e⟩ := next_of_see (o := step running) (f := fun t => t.runState) (a := .busy) (by decide +kernel)
  exact ⟨t, running_inv, .inl ⟨rfl, rfl⟩, rfl, h, e⟩

/-- The four ways STATE changes. -/
theorem witness_StateTransitions :
    see (step { machine with host := [.regWrite 0 1] }) (fun t => t.runState) = some .busy ∧
      ((1 : Word).getLsbD 1 = false ∧ (1 : Word).getLsbD 0 = true) ∧
      see (step (line [3, 0] 2 0x0308)) (fun t => t.runState) = some .done ∧
      see (step (rows [5, 1] 1 1 1 0)) (fun t => t.runState) = some .failed ∧
      see (step { checked with host := [.hardReset] }) (fun t => t.runState) = some .idle := by decide +kernel

theorem witness_CausesByPhase :
    ∃ s t, EngineTurn s s ∧ Inv s ∧ s.runState = .busy ∧ step s = .next t ∧ t.runState = .failed := by
  obtain ⟨t, h, e⟩ := next_of_see (o := step { checked with cfg.width := 0 }) (f := fun t => t.runState) (a := .failed)
    (by decide +kernel)
  exact ⟨_, t, .inl ⟨rfl, rfl⟩, check_inv 0 ⟨64, 64, 64⟩, rfl, h, e⟩

theorem witness_RunsEnd : Inv running ∧ running.host = [] ∧ running.runState = .busy :=
  ⟨running_inv, rfl, rfl⟩

/-- P1's IN with another trailer, and with a byte behind it. -/
theorem witness_TrailerUnread :
    ∃ t m, m ≠ running.inMem ∧
      (∀ a, a < 2 ∨ a + 4 < running.cfg.inLen.toNat → (running.withIn m).read .inp a = running.read .inp a) ∧
      step running = .next t := by
  obtain ⟨t, h, -⟩ := next_of_see (o := step running) (f := fun t => t.runState) (a := .busy) (by decide +kernel)
  refine ⟨t, cells (p1.take 12 ++ [9, 9, 9, 9, 9]), by decide +kernel, fun a ha => ?_, h⟩
  have hl : running.cfg.inLen.toNat = 16 := by decide +kernel
  rw [hl] at ha
  have hlt : a < 12 := by omega
  have key : ∀ a : Fin 12,
      (running.withIn (cells (p1.take 12 ++ [9, 9, 9, 9, 9]))).read .inp a.val = running.read .inp a.val := by
    decide +kernel
  exact key ⟨a, hlt⟩

theorem witness_MemoriesKept : ∃ s t, MemInv s ∧ step s = .next t :=
  have ⟨t, h, _, _, e, _⟩ := witness_InvKept
  ⟨_, t, h.1, e⟩

theorem witness_StatusKept : ∃ s t, StatusInv s ∧ step s = .next t :=
  have ⟨t, h, _, _, e, _⟩ := witness_InvKept
  ⟨_, t, h.2.2.1, e⟩

theorem witness_RegistersKept : ∃ s t, RegInv s ∧ step s = .next t :=
  have ⟨t, h, _, _, e, _⟩ := witness_InvKept
  ⟨_, t, h.2.1, e⟩

theorem witness_InputsKept :
    ∃ s t, EngineTurn s s ∧ s.runState = .busy ∧ step s = .next t ∧ s.phase ≠ .check ∧ s.cfg ≠ Cfg.reset :=
  have ⟨t, _, h, b, e, _⟩ := witness_InvKept
  ⟨running, t, h, b, e, by decide +kernel, by decide +kernel⟩

theorem witness_AlwaysSteps : ∃ s, Inv s ∧ EngineTurn s s :=
  have ⟨_, h, e, _⟩ := witness_InvKept
  ⟨_, h, e⟩

end Sys2Proof.Tests
end

namespace Sys2Proof.Machine

/-! ### Host accesses (spec/00_scope.md R11, R70, R71) -/

/-- A pending host access takes the step (R11, entry 6). -/
theorem step_of_host {s : State} {op : HostOp} {rest : List HostOp} (h : s.host = op :: rest) :
    step s = (hostAct op { s with host := rest }).outcome := by
  rw [step_eq, State.nextAct, h]

/-- A CTRL write with neither command bit set does nothing, in any state (R390). -/
theorem ctrlAct_of_no_command {v : Word} (h0 : v.getLsbD 0 = false) (h1 : v.getLsbD 1 = false) (s : State) :
    (ctrlAct v s).outcome = .next s := by
  rcases ctrl_cases v s with ⟨hreset, -⟩ | ⟨-, hstart, -⟩ | ⟨-, -, h⟩
  · exact absurd (h1.symm.trans hreset) (by decide)
  · exact absurd (h0.symm.trans hstart) (by decide)
  · exact h

/-- A register write other than CTRL is the write of R32. -/
theorem hostAct_regWrite {off : Nat} (h : off ≠ 0) (v : Word) (s : State) :
    hostAct (.regWrite off v) s = .out (.next (s.regWrite off v)) := if_neg h

section MemWrite

variable {s : State} {sp : Space} {a : Nat} {b : Byte} {rest : List HostOp}

theorem step_memWrite (h : s.host = .memWrite sp a b :: rest) :
    step s = hostMemWrite sp a b { s with host := rest } := step_of_host h

theorem step_memWrite_of_busy (h : s.host = .memWrite sp a b :: rest) (hb : s.runState = .busy) :
    step s = .refused .hostWhileBusy := by
  rw [step_memWrite h, hostMemWrite, if_pos hb]

theorem step_memWrite_of_size_le (h : s.host = .memWrite sp a b :: rest) (hb : s.runState ≠ .busy)
    (ha : s.size sp ≤ a) : step s = .fault .hostAddress := by
  rw [step_memWrite h, hostMemWrite, if_neg hb]
  exact if_neg (Nat.not_lt.mpr ha)

theorem step_memWrite_of_lt_size (h : s.host = .memWrite sp a b :: rest) (hb : s.runState ≠ .busy)
    (ha : a < s.size sp) : step s = .next ({ s with host := rest }.write sp a b) := by
  rw [step_memWrite h, hostMemWrite, if_neg hb]
  exact if_pos ha

end MemWrite

section MemRead

variable {s : State} {sp : Space} {a : Nat} {rest : List HostOp}

theorem step_memRead (h : s.host = .memRead sp a :: rest) :
    step s = hostMemRead sp a { s with host := rest } := step_of_host h

theorem step_memRead_of_busy (h : s.host = .memRead sp a :: rest) (hb : s.runState = .busy) :
    step s = .refused .hostWhileBusy := by
  rw [step_memRead h, hostMemRead, if_pos hb]

theorem step_memRead_of_size_le (h : s.host = .memRead sp a :: rest) (hb : s.runState ≠ .busy)
    (ha : s.size sp ≤ a) : step s = .fault .hostAddress := by
  rw [step_memRead h, hostMemRead, if_neg hb]
  exact if_neg (Nat.not_lt.mpr ha)

theorem step_memRead_of_lt_size (h : s.host = .memRead sp a :: rest) (hb : s.runState ≠ .busy)
    (ha : a < s.size sp) :
    step s = .next { s with host := rest, hostData := (s.read sp a).setWidth 32 } := by
  rw [step_memRead h, hostMemRead, if_neg hb]
  exact if_pos ha

end MemRead

/-- Settles O47: the pending access takes the step, and each kind of access has its own equation. -/
theorem hostAccesses : Obligations.HostAccesses := by
  intro s rest
  refine ⟨fun h hb => ?wait, fun v h h0 h1 => ?ctrl, fun off h => step_of_host h, fun off v h ho => ?regWrite,
    fun sp a b h => ⟨step_memWrite_of_busy h, step_memWrite_of_size_le h, fun hb ha =>
      ⟨_, step_memWrite_of_lt_size h hb ha, ?written⟩⟩,
    fun sp a h => ⟨step_memRead_of_busy h, step_memRead_of_size_le h, step_memRead_of_lt_size h⟩⟩
  case wait => rw [EngineTurn.step (.inr ⟨rest, h, rfl⟩)]; exact engine_idle hb
  case ctrl => rw [step_of_host h]; exact ctrlAct_of_no_command h0 h1 _
  case regWrite => rw [step_of_host h, hostAct_regWrite ho]; rfl
  case written =>
    simp only [SameStatus, write_host, write_cfg, write_phase, write_work, write_runState, write_errKind,
      write_errCause, and_self, true_and]
    exact fun sp' x => State.read_write _ sp sp' a x b

end Sys2Proof.Machine

namespace Sys2Proof.Machine

/-! ### What every step leaves alone (spec/46_commands.md R394 to R396) -/

/-- What a next state comes from: the engine's turn, or a host access other than `wait` (R11, entry 6). -/
theorem step_next {s t : State} (h : step s = .next t) :
    (∃ u, EngineTurn s u ∧ (engineAct u).outcome = .next t) ∨
      ∃ op rest, s.host = op :: rest ∧ op ≠ .wait ∧ (hostAct op { s with host := rest }).outcome = .next t := by
  rcases step_cases s with ⟨u, hu, e⟩ | ⟨op, rest, hs, hw, e⟩
  · exact .inl ⟨u, hu, e ▸ h⟩
  · exact .inr ⟨op, rest, hs, hw, e ▸ h⟩

/-- An invariant that does not speak of the host's list is kept by every step if the engine and every host access keep
it. -/
theorem step_keeps {P : State → Prop} (hlist : ∀ s rest, P s → P { s with host := rest })
    (hengine : ∀ u t, P u → (engineAct u).outcome = .next t → P t)
    (hhost : ∀ op s t, op ≠ .wait → P s → (hostAct op s).outcome = .next t → P t)
    {s t : State} (hs : P s) (h : step s = .next t) : P t := by
  rcases step_next h with ⟨u, ⟨-, rfl⟩ | ⟨rest, -, rfl⟩, he⟩ | ⟨op, rest, -, hw, he⟩
  · exact hengine _ t hs he
  · exact hengine _ t (hlist s rest hs) he
  · exact hhost op _ t hw (hlist s rest hs) he

theorem SameInputs.refl (s : State) : SameInputs s s := ⟨rfl, rfl, rfl, rfl, rfl, rfl, rfl, rfl, rfl⟩

/-- The engine writes OUT and PIX and changes no input, however its step ends (R395, R412). -/
theorem engine_frame {u t : State} (h : (engineAct u).outcome = .next t) :
    SameInputs u t ∧ Writes u.outMem t.outMem ∧ Writes u.pixMem t.pixMem := by
  have same : ∀ v, v = u ∨ v = setGeometry u →
      SameInputs u v ∧ Writes u.outMem v.outMem ∧ Writes u.pixMem v.pixMem := by
    rintro v (rfl | rfl) <;> exact ⟨.refl _, .refl, .refl⟩
  have touched : ∀ v, Touched u v → SameInputs u v ∧ Writes u.outMem v.outMem ∧ Writes u.pixMem v.pixMem :=
    fun v ⟨⟨hin, _⟩, hout, hpix, _⟩ => ⟨hin, hout, hpix⟩
  rcases engine_next h with ⟨-, rfl⟩ | ⟨-, -, rfl | ⟨c, v, -, rfl, hv⟩⟩ |
    ⟨-, -, -, ⟨ht, -⟩ | ⟨c, v, -, rfl, hv⟩ | ⟨-, -, v, hv, rfl⟩⟩
  · exact same _ (.inl rfl)
  · exact same (setGeometry u) (.inr rfl)
  · exact same v hv
  · exact touched t ht
  · exact touched v hv
  · exact touched v hv

/-! ### Memories -/

theorem engine_keeps_memInv (u t : State) (hu : MemInv u) (h : (engineAct u).outcome = .next t) : MemInv t := by
  obtain ⟨⟨-, hin, hplte, htrns, -⟩, hout, hpix⟩ := engine_frame h
  intro sp
  cases sp with
  | inp => exact (congrArg Memory.wf hin).trans (hu .inp)
  | plte => exact (congrArg Memory.wf hplte).trans (hu .plte)
  | trns => exact (congrArg Memory.wf htrns).trans (hu .trns)
  | out => exact hout.wf (hu .out)
  | pix => exact hpix.wf (hu .pix)

theorem host_keeps_memInv (op : HostOp) (s t : State) (hw : op ≠ .wait) (hs : MemInv s)
    (h : (hostAct op s).outcome = .next t) : MemInv t := by
  rcases host_next hw h with ⟨-, rfl⟩ | ⟨v, -, -, -, -, rfl⟩ | rfl | ⟨off, v, -, rfl⟩ | ⟨d, rfl⟩ |
    ⟨sp, a, b, -, -, rfl⟩
  case inl => exact fun sp => by cases sp <;> rfl
  case inr.inl =>
    intro sp
    cases sp with
    | out | pix => rfl
    | inp => exact hs .inp
    | plte => exact hs .plte
    | trns => exact hs .trns
  case inr.inr.inr.inr.inr =>
    intro sp'
    rw [State.mem_write]
    split
    · exact Memory.wf_set _ a b (hs sp)
    · exact hs sp'
  all_goals exact hs

/-- Settles O50: a step leaves a memory alone, empties it, or writes single bytes into it. -/
theorem memoriesKept : Obligations.MemoriesKept := fun _ _ =>
  step_keeps (P := MemInv) (fun _ _ h => h) engine_keeps_memInv host_keeps_memInv

/-! ### STATUS, PHASE and the error registers -/

/-- A state of a run that has not ended: BUSY, in one of the phases that stand between steps, and no cause. -/
theorem StatusInv.of_busy {s : State} (hr : s.runState = .busy) (hp : s.phase ∉ [.idle, .stored, .fixed])
    (hk : s.errKind = .none) (hc : s.errCause = .none) : StatusInv s := by
  simp only [List.mem_cons, List.not_mem_nil, or_false, not_or] at hp
  obtain ⟨hidle, hstored, hfixed⟩ := hp
  exact ⟨by simp [hr, hidle], hstored, hfixed, by rw [hk, hc]; rfl, by simp [hr, hc]⟩

/-- A state in which no run is under way. -/
theorem StatusInv.of_idle {s : State} (hr : s.runState ≠ .busy) (hp : s.phase = .idle)
    (hk : s.errKind = s.errCause.kind) (hc : s.runState = .failed ↔ s.errCause ≠ .none) : StatusInv s :=
  ⟨by simp [hr, hp], by simp [hp], by simp [hp], hk, hc⟩

/-- After a reset. -/
theorem StatusInv.of_reset {s : State} (hr : s.runState = .idle) (hp : s.phase = .idle) (hk : s.errKind = .none)
    (hc : s.errCause = .none) : StatusInv s :=
  .of_idle (by simp [hr]) hp (by rw [hk, hc]; rfl) (by simp [hr, hc])

theorem StatusInv.raise {c : Cause} (hc : c ≠ .none) (v : State) : StatusInv (raise c v) :=
  .of_idle (by simp) rfl rfl (by simp [hc])

/-- While BUSY there is no cause. -/
theorem StatusInv.no_cause {s : State} (h : StatusInv s) (hb : s.runState = .busy) :
    s.errKind = .none ∧ s.errCause = .none := by
  obtain ⟨-, -, -, hk, hf⟩ := h
  have hc : s.errCause = .none := by
    by_contra hne
    exact absurd (hb.symm.trans (hf.2 hne)) (by decide)
  exact ⟨by rw [hk, hc]; rfl, hc⟩

theorem StatusInv.phase_idle {s : State} (h : StatusInv s) (hb : s.runState ≠ .busy) : s.phase = .idle := by
  obtain ⟨hbusy, -⟩ := h
  by_contra hp
  exact hb (hbusy.2 hp)

theorem engine_keeps_statusInv (u t : State) (hu : StatusInv u) (h : (engineAct u).outcome = .next t) :
    StatusInv t := by
  rcases engine_next h with ⟨-, rfl⟩ | ⟨hb, -, rfl | ⟨c, v, hc, rfl, -⟩⟩ |
    ⟨hb, hidle, -, ⟨⟨⟨-, hr, hk, hc⟩, -⟩, hp⟩ | ⟨c, v, hc, rfl, -⟩ | ⟨-, -, v, ⟨⟨-, -, hk, hc⟩, -⟩, rfl⟩⟩
  · exact hu
  · obtain ⟨hk, hc⟩ := hu.no_cause hb
    exact .of_busy hb (show Phase.zhdr ∉ _ by decide) hk hc
  · exact .raise hc v
  · obtain ⟨hk', hc'⟩ := hu.no_cause hb
    obtain ⟨-, hstored, hfixed, -⟩ := hu
    refine .of_busy (hr.trans hb) ?_ (hk.trans hk') (hc.trans hc')
    rcases hp with hp | hp
    · simp [hp, hidle, hstored, hfixed]
    · revert hp; generalize t.phase = p; revert p; decide
  · exact .raise hc v
  · obtain ⟨hk', hc'⟩ := hu.no_cause hb
    exact .of_idle (show RunState.done ≠ .busy by decide) rfl (by rw [hk, hc, hk', hc']; rfl) (by simp [hc, hc'])

theorem host_keeps_statusInv (op : HostOp) (s t : State) (hw : op ≠ .wait) (hs : StatusInv s)
    (h : (hostAct op s).outcome = .next t) : StatusInv t := by
  rcases host_next hw h with ⟨-, rfl⟩ | ⟨v, -, -, -, -, rfl⟩ | rfl | ⟨off, v, -, rfl⟩ | ⟨d, rfl⟩ |
    ⟨sp, a, b, -, -, rfl⟩
  case inl => exact .of_reset rfl rfl rfl rfl
  case inr.inl => exact .of_busy rfl (show Phase.check ∉ _ by decide) rfl rfl
  case inr.inr.inr.inr.inr =>
    simpa only [StatusInv, write_runState, write_phase, write_errKind, write_errCause] using hs
  all_goals exact hs

/-- Settles O51: a step goes on with the run, raises a cause, ends the run, begins one, or resets. -/
theorem statusKept : Obligations.StatusKept := fun _ _ =>
  step_keeps (P := StatusInv) (fun _ _ h => h) engine_keeps_statusInv host_keeps_statusInv

/-! ### The bits a register does not have -/

theorem engine_keeps_regInv (u t : State) (hu : RegInv u) (h : (engineAct u).outcome = .next t) : RegInv t := by
  obtain ⟨⟨hcfg, -⟩, -⟩ := engine_frame h
  unfold RegInv
  rw [hcfg]
  exact hu

/-- Masking away bits that a mask already cleared (R20). -/
theorem and_masks (v a b : Word) (h : a &&& b = 0) : (v &&& a) &&& b = 0 := by
  rw [BitVec.and_assoc, h]; exact BitVec.and_zero

/-- A write leaves the bits a register does not have 0 (R20). -/
theorem put_keeps_regInv {s : State} (hs : RegInv s) (off : Nat) (v : Word) :
    RegInv { s with cfg := s.cfg.put off v } := by
  obtain ⟨hfmt, hplte, htrns, hkey⟩ := hs
  unfold Cfg.put
  split
  case h_4 => exact ⟨and_masks v _ _ rfl, hplte, htrns, hkey⟩
  case h_5 => exact ⟨hfmt, and_masks v _ _ rfl, htrns, hkey⟩
  case h_6 => exact ⟨hfmt, hplte, and_masks v _ _ rfl, hkey⟩
  case h_7 => exact ⟨hfmt, hplte, htrns, and_masks v _ _ rfl⟩
  all_goals exact ⟨hfmt, hplte, htrns, hkey⟩

theorem host_keeps_regInv (op : HostOp) (s t : State) (hw : op ≠ .wait) (hs : RegInv s)
    (h : (hostAct op s).outcome = .next t) : RegInv t := by
  rcases host_next hw h with ⟨-, rfl⟩ | ⟨v, -, -, -, -, rfl⟩ | rfl | ⟨off, v, -, rfl⟩ | ⟨d, rfl⟩ |
    ⟨sp, a, b, -, -, rfl⟩
  case inl => exact ⟨BitVec.zero_and, BitVec.zero_and, BitVec.zero_and, BitVec.zero_and⟩
  case inr.inr.inr.inl => exact put_keeps_regInv hs off v
  case inr.inr.inr.inr.inr => simpa only [RegInv, write_cfg] using hs
  all_goals exact hs

/-- Settles O52: only a register write changes the registers, and it masks the word. -/
theorem registersKept : Obligations.RegistersKept := fun _ _ =>
  step_keeps (P := RegInv) (fun _ _ h => h) engine_keeps_regInv host_keeps_regInv

/-! ### Changes of STATE -/

/-- The engine ends a run in DONE at the last row of ASSEMBLE or raises a cause (R395, R412). -/
theorem engine_runState {u t : State} (h : (engineAct u).outcome = .next t) (hne : t.runState ≠ u.runState) :
    u.runState = .busy ∧
      ((t.runState = .done ∧ u.phase = .assemble ∧ u.work.row + 1 = u.work.cfg.height.toNat) ∨
        (t.runState = .failed ∧ t.errCause ≠ .none)) := by
  rcases engine_next h with ⟨-, rfl⟩ | ⟨hb, -, rfl | ⟨c, v, hc, rfl, -⟩⟩ |
    ⟨hb, -, -, ⟨⟨⟨-, hr, -⟩, -⟩, -⟩ | ⟨c, v, hc, rfl, -⟩ | ⟨hp, hrow, v, -, rfl⟩⟩
  · exact absurd rfl hne
  · exact absurd rfl hne
  · exact ⟨hb, .inr ⟨rfl, hc⟩⟩
  · exact absurd hr hne
  · exact ⟨hb, .inr ⟨rfl, hc⟩⟩
  · exact ⟨hb, .inl ⟨rfl, hp, hrow⟩⟩

/-- A host access changes STATE by a START outside BUSY or by a reset (R391, R393, R450). -/
theorem host_runState {op : HostOp} {s t : State} (hw : op ≠ .wait) (h : (hostAct op s).outcome = .next t)
    (hne : t.runState ≠ s.runState) :
    (s.runState ≠ .busy ∧ t.runState = .busy ∧
        ∃ v, op = .regWrite 0 v ∧ v.getLsbD 1 = false ∧ v.getLsbD 0 = true) ∨
      (t.runState = .idle ∧ (op = .hardReset ∨ ∃ v, op = .regWrite 0 v ∧ v.getLsbD 1 = true)) := by
  rcases host_next hw h with ⟨hop, rfl⟩ | ⟨v, hop, h1, h0, hb, rfl⟩ | rfl | ⟨off, v, -, rfl⟩ | ⟨d, rfl⟩ |
    ⟨sp, a, b, -, -, rfl⟩
  case inl => exact .inr ⟨rfl, hop⟩
  case inr.inl => exact .inl ⟨hb, rfl, v, hop, h1, h0⟩
  case inr.inr.inr.inr.inr => exact absurd (write_runState s sp a b) hne
  all_goals exact absurd rfl hne

/-- Settles O55: the engine's two ways to leave BUSY, and the host's commands. -/
theorem stateTransitions : Obligations.StateTransitions := by
  intro s t h hne
  rcases step_next h with ⟨u, hu, he⟩ | ⟨op, rest, hs, hw, he⟩
  · have hsame : u.runState = s.runState ∧ u.phase = s.phase ∧ u.work = s.work := by
      rcases hu with ⟨-, rfl⟩ | ⟨rest, -, rfl⟩ <;> exact ⟨rfl, rfl, rfl⟩
    obtain ⟨hr, hp, hwk⟩ := hsame
    rw [← hr] at hne ⊢
    rw [← hp, ← hwk]
    obtain ⟨hb, ⟨hd, hph, hrow⟩ | ⟨hf, hc⟩⟩ := engine_runState he hne
    · exact .inr (.inl ⟨hb, hd, hph, hrow⟩)
    · exact .inr (.inr (.inl ⟨hb, hf, hc⟩))
  · rcases host_runState hw he hne with ⟨hb, ht, v, rfl, h1, h0⟩ | ⟨ht, hop⟩
    · exact .inl ⟨hb, ht, v, rest, hs, h1, h0⟩
    · exact .inr (.inr (.inr ⟨ht, op, rest, hs, hop⟩))

/-! ### The configuration registers -/

/-- The engine's turn with other configuration registers. -/
theorem EngineTurn.withCfg {s u : State} (h : EngineTurn s u) (c : Cfg) :
    EngineTurn { s with cfg := c } (u.withCfg c) := by
  rcases h with ⟨hs, rfl⟩ | ⟨rest, hs, rfl⟩
  · exact .inl ⟨hs, rfl⟩
  · exact .inr ⟨rest, hs, rfl⟩

/-- Settles O56: every operation of the engine commutes with a change of the registers, CHECK apart. -/
theorem inputsKept : Obligations.InputsKept := by
  intro s u t hturn hb h
  rw [hturn.step] at h
  refine ⟨(engine_frame h).1, fun hp c => ?_⟩
  rw [(hturn.withCfg c).step, engine_withCfg u hp c, h]
  rfl

end Sys2Proof.Machine

namespace Sys2Proof.Machine

/-! ### What the elements of the stream keep (spec/40_bitreader.md R136, spec/10_state.md R37, R38)

A property of the reader and of OUT that survives a read, `align()`, an appended byte inside CAP, and a change of
anything else survives every element of the stream, failures included. -/

/-- Every state an operation answers, in success and in failure, has a property. -/
inductive Res.All {α : Type} (P : State → Prop) : Res α → Prop where
  | ok {a : α} {t : State} (h : P t) : Res.All P (.ok a t)
  | raised {c : Cause} {t : State} (h : P t) : Res.All P (.raised c t)

/-- Two states with the same reader, the same OUT and the same memories; the tables, the counters of a header, PHASE and
the status registers may differ. -/
structure SameStream (s t : State) : Prop where
  bitPos : t.work.bitPos = s.work.bitPos := by rfl
  endBit : t.work.endBit = s.work.endBit := by rfl
  acc : t.work.acc = s.work.acc := by rfl
  nbits : t.work.nbits = s.work.nbits := by rfl
  inPos : t.work.inPos = s.work.inPos := by rfl
  outPos : t.work.outPos = s.work.outPos := by rfl
  cap : t.work.cap = s.work.cap := by rfl
  cfg : t.work.cfg = s.work.cfg := by rfl
  mem : t.mem = s.mem := by rfl
  inEpoch : t.inEpoch = s.inEpoch := by rfl
  params : t.params = s.params := by rfl

/-- A property every operation of the stream keeps. -/
structure StreamStable (P : State → Prop) : Prop where
  advance : ∀ {s : State} {n : Nat}, P s → n ≤ 16 → s.work.bitPos + n ≤ s.work.endBit → P (advance n s)
  align : ∀ {s : State}, P s → P (align s)
  putOut : ∀ {s : State} (b : Byte), P s → s.work.outPos + 1 ≤ s.work.cap → P (putOut b s)
  congr : ∀ {s t : State}, P s → SameStream s t → P t

section Stable

variable {P : State → Prop}

theorem Res.All.bind {α β : Type} {r : Res α} {f : α → State → Res β} (h : r.All P)
    (hf : ∀ a t, r = .ok a t → P t → (f a t).All P) : (r.bind f).All P := by
  cases h with
  | ok h => exact hf _ _ rfl h
  | raised h => exact .raised h

variable (hP : StreamStable P)
include hP

theorem readBits_all {n : Nat} (hn : n ≤ 16) {s : State} (h : P s) : (readBits n s).All P := by
  rcases readBits_cases n s with ⟨-, e⟩ | ⟨he, e⟩ <;> rw [e]
  · exact .raised h
  · exact .ok (hP.advance h hn he)

theorem storedBytes_all (n : Nat) {s : State} (h : P s) (hcap : s.work.outPos + n ≤ s.work.cap) :
    (storedBytes n s).All P := by
  induction n generalizing s with
  | zero => exact .ok h
  | succ n ih =>
    rw [storedBytes]
    rcases readBits_cases 8 s with ⟨-, e⟩ | ⟨he, e⟩ <;> rw [e]
    · exact .raised h
    · refine ih (hP.putOut _ (hP.advance h (by omega) he) ?_) ?_
      · simp only [advance_work_outPos, advance_work_cap]; omega
      · simp only [putOut_work_outPos, putOut_work_cap, advance_work_outPos, advance_work_cap]; omega

theorem storedBlock_all {s : State} (h : P s) : (storedBlock s).All P := by
  unfold storedBlock
  refine (readBits_all hP (by omega) (hP.align h)).bind fun len t _ ht =>
    (readBits_all hP (by omega) ht).bind fun nlen t _ ht => ?_
  split
  · exact .raised ht
  split
  · exact .raised ht
  · exact (storedBytes_all hP len ht (by omega)).bind fun _ t _ ht => .ok (hP.congr ht {})

theorem fixedBlock_all {s : State} (h : P s) : (fixedBlock s).All P := by
  rw [fixedBlock_eq]
  generalize fixedLlt = a
  generalize fixedDt = b
  exact .ok (hP.congr h {})

theorem readClLens_all (ks : List Nat) {s : State} (h : P s) : (readClLens ks s).All P := by
  induction ks generalizing s with
  | nil => exact .ok h
  | cons k ks ih =>
    rw [readClLens]
    exact (readBits_all hP (by omega) h).bind fun x t _ ht => ih (hP.congr ht {})

theorem loadClt_all {s : State} (h : P s) : (loadClt s).All P := by
  unfold loadClt
  split
  · exact .raised h
  · exact .ok (hP.congr h {})

theorem loadLlt_all (lens : List Nat) (n : Nat) {s : State} (h : P s) : (loadLlt lens n s).All P := by
  unfold loadLlt
  split
  · exact .raised h
  · exact .ok (hP.congr h {})

theorem loadDt_all (lens : List Nat) (n : Nat) {s : State} (h : P s) : (loadDt lens n s).All P := by
  unfold loadDt
  split
  · exact .raised h
  · exact .ok (hP.congr h {})

theorem dynHeader_all {s : State} (h : P s) : (dynHeader s).All P :=
  (readBits_all hP (by omega) h).bind fun _ _ _ h => (readBits_all hP (by omega) (hP.congr h {})).bind fun _ _ _ h =>
    (readBits_all hP (by omega) (hP.congr h {})).bind fun _ _ _ h => (readClLens_all hP _ (hP.congr h {})).bind
      fun _ _ _ h => (loadClt_all hP h).bind fun _ _ _ h => .ok (hP.congr h {})

theorem buildTables_all {s : State} (h : P s) : (buildTables s).All P :=
  (loadLlt_all hP _ _ h).bind fun _ _ _ h => (loadDt_all hP _ _ h).bind fun _ _ _ h => .ok (hP.congr h {})

theorem putLens_all (r : Nat) (x : BitVec 4) {s : State} (h : P s) : (putLens r x s).All P := by
  unfold putLens
  dsimp only
  split
  · exact .ok (hP.congr h {})
  · exact buildTables_all hP (hP.congr h {})

theorem runLens_all (b : Nat) {n : Nat} (hn : n ≤ 7) (x : BitVec 4) {s : State} (h : P s) : (runLens b n x s).All P := by
  refine (readBits_all hP (by omega) h).bind fun e t _ ht => ?_
  split
  · exact .raised ht
  · exact putLens_all hP _ x ht

theorem copyBack_stable (d n : Nat) {s : State} (h : P s) (hcap : s.work.outPos + n ≤ s.work.cap) :
    P (copyBack d n s) := by
  induction n generalizing s with
  | zero => exact h
  | succ n ih => exact ih (hP.putOut _ h (by omega)) (by simp only [putOut_work_outPos, putOut_work_cap]; omega)

theorem copyMatch_all (length distance : Nat) {s : State} (h : P s) : (copyMatch length distance s).All P := by
  unfold copyMatch
  split
  · exact .raised h
  split
  · exact .raised h
  · exact .ok (hP.congr (copyBack_stable hP distance length h (by omega)) {})

/-- An operation that ends a step keeps the property: `raise` changes the status registers only. -/
theorem finish_stable {r : Res Unit} {o : Out} {t : State} (e : o = finish r) (ht : o = .next t) (h : r.All P) :
    P t := by
  rcases finish_eq_next.1 (e ▸ ht) with rfl | ⟨c, s, rfl, rfl⟩
  · cases h with
    | ok h => exact h
  · cases h with
    | raised h => exact hP.congr h {}

end Stable

/-- The formats of the elements the bit-reader fetches (R92, R95, R96). -/
def inStream : Format → Bool
  | .blk | .clsym | .ll | .dist => true
  | _ => false

theorem lextra_le {y : Nat} (h1 : 257 ≤ y) (h2 : y ≤ 285) : lextra y ≤ 5 := by
  have key : ∀ k : Fin 29, lextra (257 + k.val) ≤ 5 := by decide +kernel
  obtain ⟨k, rfl⟩ := Nat.exists_eq_add_of_le h1
  exact key ⟨k, by omega⟩

theorem dextra_le {d : Nat} (h : d < 30) : dextra d ≤ 13 := by
  have key : ∀ k : Fin 30, dextra k.val ≤ 13 := by decide +kernel
  exact key ⟨d, h⟩

/-- Every element of the stream keeps the property. -/
theorem exec_stable {P : State → Prop} (hP : StreamStable P) {i : Instr} (hi : inStream i.format = true) {s t : State}
    (hs : P s) (h : exec i s = .next t) : P t := by
  cases exec_meaning i s with
  | stored f _ e => exact finish_stable hP e h (storedBlock_all hP (hP.congr hs {}))
  | fixed f _ e =>
    exact finish_stable hP e h (fixedBlock_all hP (hP.congr hs {}))
  | dynamic f _ e => exact finish_stable hP e h (dynHeader_all hP (hP.congr hs {}))
  | reserved f _ e => rw [e] at h; cases h; exact hP.congr hs {}
  | lens r x _ _ e => exact finish_stable hP e h (putLens_all hP r x hs)
  | run b n x _ hn e => exact finish_stable hP e h (runLens_all hP b hn x hs)
  | noPrevious _ e => rw [e] at h; cases h; exact hP.congr hs {}
  | literal b _ e =>
    rw [e, execLit] at h
    split at h <;> cases h
    · exact hP.congr hs {}
    · exact hP.putOut b hs (by omega)
  | blockEnd _ e => rw [e] at h; cases h; exact hP.congr hs {}
  | length y _ h1 h2 e =>
    have := lextra_le h1 h2
    exact finish_stable hP e h ((readBits_all hP (by omega) hs).bind fun _ _ _ ht => .ok (hP.congr ht {}))
  | distance d _ hd e =>
    have := dextra_le hd
    rw [e, distanceSymbol] at h
    split at h
    · cases h
    · exact finish_stable hP rfl h ((readBits_all hP (by omega) hs).bind fun _ _ _ ht => copyMatch_all hP _ _ ht)
  | badSymbol _ e => rw [e] at h; cases h; exact hP.congr hs {}
  | zlib hf | row _ hf | pixels _ hf => simp [hf, inStream] at hi
  | start hf | reset hf => simp [hf, Instr.format, inStream] at hi

/-! ### What each phase's step is (R394) -/

/-- A fetched element of a format ran to `t`, or the run ended there with a cause. -/
def RanTo (f : Format) (v t : State) : Prop :=
  (∃ c, t = raise c v) ∨ ∃ i, i.format = f ∧ exec i v = .next t

/-- A state after some reads of at most 16 bits each. -/
inductive Fetched (u : State) : State → Prop where
  | refl : Fetched u u
  | advance {v : State} (h : Fetched u v) (n : Nat) (hn : n ≤ 16) (he : v.work.bitPos + n ≤ v.work.endBit) :
      Fetched u (advance n v)

theorem Fetched.stable {P : State → Prop} (hP : StreamStable P) {u v : State} (h : Fetched u v) (hu : P u) : P v := by
  induction h with
  | refl => exact hu
  | advance _ n hn he ih => exact hP.advance ih hn he

/-- A fetch moves the cursor and nothing else. -/
theorem Fetched.eq {u v : State} (h : Fetched u v) :
    v = { u with work := u.work.withCursor v.work.bitPos v.work } := by
  induction h with
  | refl => rfl
  | @advance w _ n hn he ih => rw [advance_withCursor, ih]; rfl

theorem ofDecode_next {f : Format} {w : Nat} {v t : State}
    (h : (Act.ofDecode (decodeWord f w) v).outcome = .next t) : RanTo f v t := by
  cases hw : decodeWord f w with
  | error e => rw [hw] at h; cases h; exact .inl ⟨_, rfl⟩
  | ok i => rw [hw] at h; exact .inr ⟨i, format_of_decode hw, h⟩

theorem fetchSymbol_next {f : Format} {table : Huff} {u t : State}
    (h : (fetchSymbol f table u).outcome = .next t) : ∃ v, Fetched u v ∧ RanTo f v t := by
  unfold fetchSymbol huffDecode at h
  split at h
  · cases h; exact ⟨u, .refl, .inl ⟨_, rfl⟩⟩
  · next y l hl =>
    obtain ⟨-, -, hl15⟩ := Huff.lookup_bounds hl
    by_cases he : u.work.bitPos + l ≤ u.work.endBit
    · rw [consume_ok he] at h
      exact ⟨_, .advance .refl l (by omega) he, ofDecode_next h⟩
    · rw [consume_starved (by omega)] at h
      cases h; exact ⟨u, .refl, .inl ⟨_, rfl⟩⟩

theorem fetchBlock_next {u t : State} (h : (fetchBlock u).outcome = .next t) :
    ∃ v, Fetched u v ∧ RanTo .blk v t := by
  unfold fetchBlock at h
  rcases readBits_cases 1 u with ⟨-, e⟩ | ⟨h1, e⟩ <;> rw [e] at h
  · cases h; exact ⟨u, .refl, .inl ⟨_, rfl⟩⟩
  rw [Res.bind_ok] at h
  have hf : Fetched u (advance 1 u) := .advance .refl 1 (by omega) h1
  rcases readBits_cases 2 (advance 1 u) with ⟨-, e⟩ | ⟨h2, e⟩ <;> rw [e] at h
  · cases h; exact ⟨_, hf, .inl ⟨_, rfl⟩⟩
  · exact ⟨_, .advance hf 2 (by omega) h2, ofDecode_next h⟩

section Phases

variable {u : State} (hb : u.runState = .busy)
include hb

theorem engineAct_zhdr (hp : u.phase = .zhdr) : engineAct u = fetchZlib u := by
  rw [engineAct, if_neg (not_not.2 hb), hp]

theorem engineAct_blkhdr (hp : u.phase = .blkhdr) : engineAct u = fetchBlock u := by
  rw [engineAct, if_neg (not_not.2 hb), hp]

theorem engineAct_dynhdr (hp : u.phase = .dynhdr) : engineAct u = fetchSymbol .clsym u.work.clt u := by
  rw [engineAct, if_neg (not_not.2 hb), hp]

theorem engineAct_body (hp : u.phase = .body) : engineAct u = fetchBody u := by
  rw [engineAct, if_neg (not_not.2 hb), hp]

theorem engineAct_infend (hp : u.phase = .infend) : engineAct u = .out (infEnd u) := by
  rw [engineAct, if_neg (not_not.2 hb), hp]

theorem engineAct_defilter (hp : u.phase = .defilter) : engineAct u = fetchFilter u := by
  rw [engineAct, if_neg (not_not.2 hb), hp]

theorem engineAct_assemble (hp : u.phase = .assemble) : engineAct u = fetchPixel u := by
  rw [engineAct, if_neg (not_not.2 hb), hp]

variable {t : State} (h : (engineAct u).outcome = .next t)
include h

theorem zhdr_next (hp : u.phase = .zhdr) : RanTo .zlib u t := by
  rw [engineAct_zhdr hb hp, fetchZlib] at h
  split at h
  · cases h; exact .inl ⟨_, rfl⟩
  · exact ofDecode_next h

theorem blkhdr_next (hp : u.phase = .blkhdr) : ∃ v, Fetched u v ∧ RanTo .blk v t :=
  fetchBlock_next (engineAct_blkhdr hb hp ▸ h)

theorem dynhdr_next (hp : u.phase = .dynhdr) : ∃ v, Fetched u v ∧ RanTo .clsym v t :=
  fetchSymbol_next (engineAct_dynhdr hb hp ▸ h)

theorem body_next (hp : u.phase = .body) : ∃ v f, Fetched u v ∧ (f = .ll ∨ f = .dist) ∧ RanTo f v t := by
  rw [engineAct_body hb hp, fetchBody] at h
  split at h
  · obtain ⟨v, hf, hr⟩ := fetchSymbol_next h
    exact ⟨v, .ll, hf, .inl rfl, hr⟩
  · obtain ⟨v, hf, hr⟩ := fetchSymbol_next h
    exact ⟨v, .dist, hf, .inr rfl, hr⟩

theorem infend_next (hp : u.phase = .infend) :
    (∃ c, t = raise c u) ∨ (u.work.outPos = u.work.cap ∧ t = { u with work.row := 0, phase := .defilter }) := by
  rw [engineAct_infend hb hp, Act.outcome, infEnd] at h
  split at h <;> cases h
  · exact .inl ⟨_, rfl⟩
  · exact .inr ⟨by omega, rfl⟩

theorem defilter_next (hp : u.phase = .defilter) : RanTo .row u t :=
  ofDecode_next (engineAct_defilter hb hp ▸ h)

theorem assemble_next (hp : u.phase = .assemble) : RanTo .pix u t :=
  ofDecode_next (engineAct_assemble hb hp ▸ h)

end Phases

/-- In the phases that read the stream a step keeps whatever the elements of the stream keep. -/
theorem engine_stable {P : State → Prop} (hP : StreamStable P) {u t : State} (hb : u.runState = .busy)
    (hp : u.phase ∈ [.blkhdr, .dynhdr, .body]) (hu : P u) (h : (engineAct u).outcome = .next t) : P t := by
  have ran : ∀ {v : State} {f : Format}, inStream f = true → Fetched u v → RanTo f v t → P t := by
    rintro v f hf hv (⟨c, rfl⟩ | ⟨i, rfl, he⟩)
    · exact hP.congr (hv.stable hP hu) {}
    · exact exec_stable hP hf (hv.stable hP hu) he
  simp only [List.mem_cons, List.not_mem_nil, or_false] at hp
  rcases hp with hp | hp | hp
  · obtain ⟨v, hv, hr⟩ := blkhdr_next hb h hp
    exact ran rfl hv hr
  · obtain ⟨v, hv, hr⟩ := dynhdr_next hb h hp
    exact ran rfl hv hr
  · obtain ⟨v, f, hv, rfl | rfl, hr⟩ := body_next hb h hp
    · exact ran rfl hv hr
    · exact ran rfl hv hr

/-! ### What the elements outside the stream do to the state -/

/-- ZLIB_HDR raises, or starts the reader (R170). -/
theorem exec_zlib_next {i : Instr} (hi : i.format = .zlib) {s t : State} (h : exec i s = .next t) :
    (∃ c, t = raise c s) ∨
      (6 ≤ s.work.cfg.inLen.toNat ∧ t = { initReader s with work.outPos := 0, phase := .blkhdr }) := by
  cases exec_meaning i s with
  | zlib _ e =>
    rw [e, execZlibHdr] at h
    split at h <;> cases h
    · exact .inl ⟨_, rfl⟩
    · exact .inr ⟨by omega, rfl⟩
  | start hf | reset hf => simp [hf, Instr.format] at hi
  | badSymbol hf => simp [hi] at hf
  | stored _ hf | fixed _ hf | dynamic _ hf | reserved _ hf | lens _ _ hf | run _ _ _ hf | noPrevious hf
  | literal _ hf | blockEnd hf | length _ hf | distance _ hf | row _ hf | pixels _ hf => simp [hi] at hf

/-- A filter element reconstructs row ROW (R351). -/
theorem exec_row_next {i : Instr} (hi : i.format = .row) {s t : State} (h : exec i s = .next t) :
    ∃ pred, t = rowFiltered (filterFrom pred s.work.row s.work.rowBytes 0 s) := by
  cases exec_meaning i s with
  | row pred _ e => rw [e] at h; cases h; exact ⟨pred, rfl⟩
  | start hf | reset hf => simp [hf, Instr.format] at hi
  | badSymbol hf => simp [hi] at hf
  | zlib hf | stored _ hf | fixed _ hf | dynamic _ hf | reserved _ hf | lens _ _ hf | run _ _ _ hf | noPrevious hf
  | literal _ hf | blockEnd hf | length _ hf | distance _ hf | pixels _ hf => simp [hi] at hf

/-- A pixel format assembles row ROW; at a pixel that cannot be made the run ends (R362, R374). -/
theorem exec_pix_next {i : Instr} (hi : i.format = .pix) {s t : State} (h : exec i s = .next t) :
    ∃ pixel v, (pixelsFrom pixel s.work.row s.work.cfg.width.toNat 0 s = .ok () v ∧ t = rowAssembled v) ∨
      ∃ c, pixelsFrom pixel s.work.row s.work.cfg.width.toNat 0 s = .raised c v ∧ t = raise c v := by
  cases exec_meaning i s with
  | pixels pixel _ _ e =>
    rw [e, assembleRow, finish_eq_next] at h
    refine ⟨pixel, ?_⟩
    rcases h with h | ⟨c, v, h, rfl⟩
    · obtain ⟨_, v, hv, h⟩ := Res.bind_eq_ok.1 h
      cases h
      exact ⟨v, .inl ⟨hv, rfl⟩⟩
    · rcases Res.bind_eq_raised.1 h with hv | ⟨_, w, -, h⟩
      · exact ⟨v, .inr ⟨c, hv, rfl⟩⟩
      · cases h
  | start hf | reset hf => simp [hf, Instr.format] at hi
  | badSymbol hf => simp [hi] at hf
  | zlib hf | stored _ hf | fixed _ hf | dynamic _ hf | reserved _ hf | lens _ _ hf | run _ _ _ hf | noPrevious hf
  | literal _ hf | blockEnd hf | length _ hf | distance _ hf | row _ hf => simp [hi] at hf

/-! ### The bit window in every phase (R37) -/

theorem windowOk_stable : StreamStable WindowOk where
  advance h hn he := h.advance hn he
  align h := h.align
  putOut _ h _ := h.congr rfl rfl rfl rfl rfl rfl rfl
  congr h e := h.congr e.bitPos e.endBit e.acc e.nbits e.inPos (congrFun e.mem .inp) e.inEpoch

theorem WindowInv.of_not_streaming {s : State} (h : s.phase.streaming = false) : WindowInv s := fun hs => by
  rw [h] at hs; cases hs

theorem rowFiltered_phase (s : State) : (rowFiltered s).phase = .assemble ∨ (rowFiltered s).phase = s.phase := by
  unfold rowFiltered
  split
  · exact .inl rfl
  · exact .inr rfl

theorem rowAssembled_phase (s : State) : (rowAssembled s).phase = .idle ∨ (rowAssembled s).phase = s.phase := by
  unfold rowAssembled
  split
  · exact .inl rfl
  · exact .inr rfl

theorem pixelsFrom_phase {pixel : State → Nat → Nat → Except Cause Rgba} {y n x : Nat} {s t : State}
    (h : pixelsFrom pixel y n x s = .ok () t) : t.phase = s.phase := by
  rcases pixelsFrom_eq (pixel := pixel) y n x s with ⟨v, hv, e⟩ | ⟨c, v, hv, -⟩ <;> rw [hv] at h <;> cases h
  rw [e]

theorem engine_keeps_windowInv (u t : State) (hs : StatusInv u) (hw : WindowInv u)
    (h : (engineAct u).outcome = .next t) : WindowInv t := by
  have failed : ∀ c v, WindowInv (raise c v) := fun c v => .of_not_streaming rfl
  by_cases hb : u.runState = .busy
  case neg => rw [engine_idle hb] at h; cases h; exact hw
  obtain ⟨-, hstored, hfixed, -⟩ := hs
  have stream : u.phase.streaming = true → u.phase ∈ [.blkhdr, .dynhdr, .body] → WindowInv t := fun hst hp _ =>
    engine_stable windowOk_stable hb hp (hw hst) h
  cases hp : u.phase with
  | idle => rw [engine_fault hb hp] at h; cases h
  | stored => exact absurd hp hstored
  | fixed => exact absurd hp hfixed
  | check =>
    rw [engine_check hb hp] at h
    rcases checkPhase_cases u with ⟨c, v, -, e, -⟩ | e <;> rw [e] at h <;> cases h
    · exact failed c v
    · exact .of_not_streaming rfl
  | zhdr =>
    rcases zhdr_next hb h hp with ⟨c, rfl⟩ | ⟨i, hi, he⟩
    · exact failed c u
    rcases exec_zlib_next hi he with ⟨c, rfl⟩ | ⟨h6, rfl⟩
    · exact failed c u
    · exact fun _ => (WindowOk.init h6).congr rfl rfl rfl rfl rfl rfl rfl
  | blkhdr | dynhdr | body => exact stream (by rw [hp]; rfl) (by rw [hp]; decide)
  | infend =>
    rcases infend_next hb h hp with ⟨c, rfl⟩ | ⟨-, rfl⟩
    · exact failed c u
    · exact .of_not_streaming rfl
  | defilter =>
    rcases defilter_next hb h hp with ⟨c, rfl⟩ | ⟨i, hi, he⟩
    · exact failed c u
    obtain ⟨pred, rfl⟩ := exec_row_next hi he
    refine .of_not_streaming ?_
    rcases rowFiltered_phase (filterFrom pred u.work.row u.work.rowBytes 0 u) with e | e <;> rw [e]
    · rfl
    · rw [filterFrom_eq]; exact congrArg Phase.streaming hp
  | assemble =>
    rcases assemble_next hb h hp with ⟨c, rfl⟩ | ⟨i, hi, he⟩
    · exact failed c u
    obtain ⟨pixel, v, ⟨hv, rfl⟩ | ⟨c, -, rfl⟩⟩ := exec_pix_next hi he
    · refine .of_not_streaming ?_
      rcases rowAssembled_phase v with e | e <;> rw [e]
      · rfl
      · rw [pixelsFrom_phase hv, hp]; rfl
    · exact failed c v

/-- A host access leaves the engine outside its run, begins one, or changes nothing of the engine; so an invariant of
the phases of a run is kept by every access. -/
theorem host_phase {op : HostOp} {s t : State} (hw : op ≠ .wait) (hs : StatusInv s)
    (h : (hostAct op s).outcome = .next t) :
    t.phase = .idle ∨ t.phase = .check ∨ ∃ d, t = { s with hostData := d } := by
  rcases host_next hw h with ⟨-, rfl⟩ | ⟨v, -, -, -, -, rfl⟩ | rfl | ⟨off, v, hb, rfl⟩ | ⟨d, rfl⟩ |
    ⟨sp, a, b, hb, -, rfl⟩
  · exact .inl rfl
  · exact .inr (.inl rfl)
  · exact .inr (.inr ⟨_, rfl⟩)
  · exact .inl (hs.phase_idle hb)
  · exact .inr (.inr ⟨d, rfl⟩)
  · exact .inl (by rw [write_phase]; exact hs.phase_idle hb)

theorem host_keeps_windowInv (op : HostOp) (s t : State) (hop : op ≠ .wait) (hs : StatusInv s) (hw : WindowInv s)
    (h : (hostAct op s).outcome = .next t) : WindowInv t := by
  rcases host_phase hop hs h with hp | hp | ⟨d, rfl⟩
  · exact .of_not_streaming (by rw [hp]; rfl)
  · exact .of_not_streaming (by rw [hp]; rfl)
  · exact hw

/-- Settles O16: every element of the stream keeps the window, and ZLIB_HDR, which starts the stream, makes it one. -/
theorem windowKept : Obligations.WindowKept := fun _ _ hs hw h =>
  (step_keeps (P := fun s => StatusInv s ∧ WindowInv s) (fun _ _ h => h)
    (fun u t ⟨hs, hw⟩ h => ⟨engine_keeps_statusInv u t hs h, engine_keeps_windowInv u t hs hw h⟩)
    (fun op s t hop ⟨hs, hw⟩ h => ⟨host_keeps_statusInv op s t hop hs h, host_keeps_windowInv op s t hop hs hw h⟩)
    ⟨hs, hw⟩ h).2

end Sys2Proof.Machine

namespace Sys2Proof.Machine

/-! ### No memory holds a byte at an address it does not have (R50, R63 to R66) -/

theorem State.size_congr {s t : State} (h : t.params = s.params) (sp : Space) : t.size sp = s.size sp := by
  unfold State.size; rw [h]

theorem SizeInv.congr {s t : State} (h : SizeInv s) (hm : t.mem = s.mem) (hp : t.params = s.params) : SizeInv t := by
  intro sp c hc
  rw [State.size_congr hp]
  exact h sp c (hm ▸ hc)

theorem SizeInv.write {s : State} (h : SizeInv s) {sp : Space} {a : Nat} (ha : a < s.size sp) (b : Byte) :
    SizeInv (s.write sp a b) := by
  intro sp' c hc
  rw [State.size_congr (write_params s sp a b)]
  rw [State.mem_write] at hc
  split at hc
  · next e =>
    subst e
    rcases Memory.mem_set hc with rfl | hc
    · exact ha
    · exact h _ c hc
  · exact h sp' c hc

theorem filterFrom_sizeInv (pred : Nat → Nat → Nat → Nat) (y n x : Nat) {s : State} (h : SizeInv s)
    (hn : s.work.rowAddr y + x + n ≤ s.size .out) : SizeInv (filterFrom pred y n x s) := by
  induction n generalizing x s with
  | zero => exact h
  | succ n ih => exact ih (x + 1) (h.write (by omega) _) (by
      simp only [filterByte, write_work, State.size_congr (write_params s _ _ _)]; omega)

theorem putPixel_sizeInv (y x : Nat) (p : Rgba) {s : State} (h : SizeInv s)
    (hn : 4 * (y * s.work.cfg.width.toNat + x) + 4 ≤ s.size .pix) : SizeInv (putPixel y x p s) := by
  have size : ∀ (s : State) a b, (s.write .pix a b).size .pix = s.size .pix := fun s a b =>
    State.size_congr (write_params s .pix a b) .pix
  unfold putPixel
  refine (((h.write ?_ _).write ?_ _).write ?_ _).write ?_ _ <;> (try simp only [size]) <;> omega

theorem pixelsFrom_sizeInv {pixel : State → Nat → Nat → Except Cause Rgba} (y n x : Nat) {s : State} (h : SizeInv s)
    (hn : 4 * (y * s.work.cfg.width.toNat + x + n) ≤ s.size .pix) : (pixelsFrom pixel y n x s).All SizeInv := by
  induction n generalizing x s with
  | zero => exact .ok h
  | succ n ih =>
    rw [pixelsFrom]
    cases pixel s y x with
    | error c => exact .raised h
    | ok p =>
      have e := putPixel_eq y x p s
      have hw : (putPixel y x p s).work = s.work := by rw [e]
      have hs : (putPixel y x p s).size .pix = s.size .pix := State.size_congr (by rw [e]) _
      exact ih (x + 1) (putPixel_sizeInv y x p h (by omega)) (by rw [hw, hs]; omega)

/-! ### The reader and OUT inside their bounds (R36 to R39, R63, R64, R66) -/

/-- What holds in every phase that reads the stream: the window, the cursor behind the zlib header and inside the data,
OUT_POS inside CAP, CAP inside OUT, every byte of OUT below OUT_POS written. -/
structure RunAt (s : State) : Prop where
  window : WindowOk s
  inLen : 6 ≤ s.work.cfg.inLen.toNat
  endBit : s.work.endBit = 8 * (s.work.cfg.inLen.toNat - 4)
  bitPos : 16 ≤ s.work.bitPos
  outPos : s.work.outPos ≤ s.work.cap
  written : OutWritten s.work.outPos s
  cap : s.work.cap ≤ s.size .out
  size : SizeInv s

/-- The cursor may move on, and anything but the reader and OUT may change. -/
theorem RunAt.moved {s t : State} (h : RunAt s) (hw : WindowOk t) (hb : s.work.bitPos ≤ t.work.bitPos)
    (he : t.work.endBit = s.work.endBit) (ho : t.work.outPos = s.work.outPos) (hc : t.work.cap = s.work.cap)
    (hcfg : t.work.cfg = s.work.cfg) (hm : t.mem = s.mem) (hp : t.params = s.params) : RunAt t where
  window := hw
  inLen := by rw [hcfg]; exact h.inLen
  endBit := by rw [he, hcfg]; exact h.endBit
  bitPos := Nat.le_trans h.bitPos hb
  outPos := by rw [ho, hc]; exact h.outPos
  written a ha := by
    have hout : t.outMem = s.outMem := congrFun hm .out
    rw [hout]
    exact h.written a (ho ▸ ha)
  cap := by rw [hc, State.size_congr hp]; exact h.cap
  size := h.size.congr hm hp

theorem RunAt.bitPos_le {s : State} (h : RunAt s) : s.work.bitPos ≤ s.work.endBit := by
  obtain ⟨h1, -, -, h4, -⟩ := h.window
  omega

theorem mem_advance (n : Nat) (s : State) : (advance n s).mem = s.mem := by
  rw [advance_eq]; rfl

theorem mem_align (s : State) : (align s).mem = s.mem := by
  rw [align_eq]; rfl

theorem runAt_stable : StreamStable RunAt where
  advance h hn he := h.moved (h.window.advance hn he) (by simp) (by simp) (by simp) (by simp) (by simp)
    (mem_advance _ _) (by simp)
  align h := h.moved h.window.align (by simp only [align_work_bitPos]; omega) (by simp) (by simp) (by simp) (by simp)
    (mem_align _) (by simp)
  putOut {s} b h hc := {
    window := windowOk_stable.putOut b h.window hc
    inLen := h.inLen
    endBit := h.endBit
    bitPos := h.bitPos
    outPos := hc
    written := by
      intro a ha
      simp only [putOut_work_outPos] at ha
      rw [putOut_outMem, Memory.get?_set]
      split
      · rfl
      · exact h.written a (by omega)
    cap := h.cap
    size := (h.size.write (Nat.lt_of_lt_of_le hc h.cap) b).congr rfl rfl }
  congr h e := h.moved (windowOk_stable.congr h.window e) (by rw [e.bitPos]) e.endBit e.outPos e.cap e.cfg e.mem e.params

/-! ### Headers, tables and matches (R175 to R183, R46) -/

/-- Between two code lengths of a dynamic header. -/
def HeaderInv (s : State) : Prop :=
  (257 ≤ s.work.hlit ∧ s.work.hlit ≤ 288 ∧ 1 ≤ s.work.hdist ∧ s.work.hdist ≤ 32 ∧
    s.work.lenI < s.work.hlit + s.work.hdist) ∧ ∀ y ∈ s.work.clt.sym, y < 19

/-- Between two symbols of a body. -/
def BodyInv (s : State) : Prop :=
  (∀ l, s.work.matchLen = some l → 3 ≤ l ∧ l ≤ 258) ∧ (∀ y ∈ s.work.llt.sym, y < 288) ∧ ∀ y ∈ s.work.dt.sym, y < 32

/-- What the phases from BLKHDR to INFEND know of header, tables and match. -/
def StageInv (s : State) : Prop :=
  s.phase ∈ [.idle, .blkhdr, .dynhdr, .body, .infend] ∧ (s.phase = .dynhdr → HeaderInv s) ∧
    (s.phase = .body → BodyInv s)

theorem StageInv.of_header {s : State} (hp : s.phase = .dynhdr) (h : HeaderInv s) : StageInv s :=
  ⟨by simp [hp], fun _ => h, by simp [hp]⟩

theorem StageInv.of_body {s : State} (hp : s.phase = .body) (h : BodyInv s) : StageInv s :=
  ⟨by simp [hp], by simp [hp], fun _ => h⟩

theorem StageInv.of_other {s : State} (hp : s.phase = .idle ∨ s.phase = .blkhdr ∨ s.phase = .infend) : StageInv s := by
  rcases hp with hp | hp | hp <;> exact ⟨by simp [hp], by simp [hp], by simp [hp]⟩

theorem StageInv.raise (c : Cause) (v : State) : StageInv (raise c v) := .of_other (.inl rfl)

/-- A table of `n` lengths gives symbols below `n` (R151). -/
theorem Huff.sym_lt {lens : List Nat} {n : Nat} {t : Huff} (h : Huff.build lens n = some t) : ∀ y ∈ t.sym, y < n := by
  obtain ⟨-, rfl⟩ := Huff.build_eq_some.1 h
  intro y hy
  obtain ⟨l, -, -, hl⟩ := (mem_sortedSyms _ _).1 hy
  have hlt := (List.getElem?_eq_some_iff.1 hl).1
  rw [List.length_take] at hlt
  omega

theorem readBits_eq_ok {n a : Nat} {s t : State} (h : readBits n s = .ok a t) : a < 2 ^ n ∧ t = advance n s := by
  rcases readBits_cases n s with ⟨-, e⟩ | ⟨-, e⟩ <;> rw [e] at h <;> cases h
  exact ⟨State.bits_lt _ _ _, rfl⟩

theorem loadClt_eq_ok {s t : State} (h : loadClt s = .ok () t) :
    ∃ c, (∀ y ∈ c.sym, y < 19) ∧ t = { s with work.clt := c } := by
  unfold loadClt at h
  split at h
  · cases h
  · next c hc => cases h; exact ⟨c, Huff.sym_lt hc, rfl⟩

theorem loadLlt_eq_ok {lens : List Nat} {n : Nat} {s t : State} (h : loadLlt lens n s = .ok () t) :
    ∃ c, (∀ y ∈ c.sym, y < n) ∧ t = { s with work.llt := c } := by
  unfold loadLlt at h
  split at h
  · cases h
  · next c hc => cases h; exact ⟨c, Huff.sym_lt hc, rfl⟩

theorem loadDt_eq_ok {lens : List Nat} {n : Nat} {s t : State} (h : loadDt lens n s = .ok () t) :
    ∃ c, (∀ y ∈ c.sym, y < n) ∧ t = { s with work.dt := c } := by
  unfold loadDt at h
  split at h
  · cases h
  · next c hc => cases h; exact ⟨c, Huff.sym_lt hc, rfl⟩

/-- The code-length-code lengths leave the counts alone (R176). -/
theorem readClLens_counts {ks : List Nat} {s t : State} (h : readClLens ks s = .ok () t) :
    t.work.hlit = s.work.hlit ∧ t.work.hdist = s.work.hdist := by
  induction ks generalizing s with
  | nil => cases h; exact ⟨rfl, rfl⟩
  | cons k ks ih =>
    rw [readClLens] at h
    obtain ⟨x, u, h1, h2⟩ := Res.bind_eq_ok.1 h
    obtain ⟨-, rfl⟩ := readBits_eq_ok h1
    simpa using ih h2

/-- The counts a dynamic header gives, and its table (R175 to R177). -/
theorem dynHeader_header {s t : State} (h : dynHeader s = .ok () t) : HeaderInv t := by
  unfold dynHeader at h
  simp only [Res.bind_eq_ok] at h
  obtain ⟨hl, t1, h1, hd, t2, h2, hc, t3, h3, _, t4, h4, _, t5, h5, h⟩ := h
  cases h
  obtain ⟨hl5, rfl⟩ := readBits_eq_ok h1
  obtain ⟨hd5, rfl⟩ := readBits_eq_ok h2
  obtain ⟨-, rfl⟩ := readBits_eq_ok h3
  obtain ⟨hlit, hdist⟩ := readClLens_counts h4
  obtain ⟨c, hsym, rfl⟩ := loadClt_eq_ok h5
  simp only [advance_work_hlit, advance_work_hdist] at hlit hdist
  refine ⟨?_, hsym⟩
  dsimp only
  rw [hlit, hdist]
  omega

/-- The tables of a body, and no length pending (R183). -/
theorem buildTables_body {s t : State} (h : buildTables s = .ok () t) (hl : s.work.hlit ≤ 288)
    (hd : s.work.hdist ≤ 32) : t.phase = .body ∧ BodyInv t := by
  unfold buildTables at h
  simp only [Res.bind_eq_ok] at h
  obtain ⟨_, t1, h1, _, t2, h2, h⟩ := h
  cases h
  obtain ⟨a, ha, rfl⟩ := loadLlt_eq_ok h1
  obtain ⟨b, hb, rfl⟩ := loadDt_eq_ok h2
  exact ⟨rfl, fun l hm => (by cases hm), fun y hy => Nat.lt_of_lt_of_le (ha y hy) hl,
    fun y hy => Nat.lt_of_lt_of_le (hb y hy) hd⟩

theorem fixedBlock_body {s t : State} (h : fixedBlock s = .ok () t) : BodyInv t := by
  unfold fixedBlock at h
  simp only [Res.bind_eq_ok] at h
  obtain ⟨_, t1, h1, _, t2, h2, h⟩ := h
  cases h
  obtain ⟨a, ha, rfl⟩ := loadLlt_eq_ok h1
  obtain ⟨b, hb, rfl⟩ := loadDt_eq_ok h2
  exact ⟨fun l hm => (by cases hm), ha, hb⟩

/-- A code-length element goes on with the header, or enters the body (R178, R183). -/
theorem putLens_stage {r : Nat} {x : BitVec 4} {s t : State} (h : putLens r x s = .ok () t) (hp : s.phase = .dynhdr)
    (hs : HeaderInv s) : StageInv t := by
  obtain ⟨⟨hl1, hl2, hd1, hd2, -⟩, hsym⟩ := hs
  unfold putLens at h
  dsimp only at h
  split at h
  · next hlt => cases h; exact .of_header hp ⟨⟨hl1, hl2, hd1, hd2, hlt⟩, hsym⟩
  · obtain ⟨hph, hbody⟩ := buildTables_body h hl2 hd2
    exact .of_body hph hbody

theorem HeaderInv.advance {s : State} (h : HeaderInv s) (n : Nat) : HeaderInv (advance n s) := by
  simpa [HeaderInv] using h

theorem runLens_stage {b n : Nat} {x : BitVec 4} {s t : State} (h : runLens b n x s = .ok () t)
    (hp : s.phase = .dynhdr) (hs : HeaderInv s) : StageInv t := by
  unfold runLens at h
  obtain ⟨e, u, h1, h2⟩ := Res.bind_eq_ok.1 h
  obtain ⟨-, rfl⟩ := readBits_eq_ok h1
  split at h2
  · cases h2
  · exact putLens_stage h2 (by simpa using hp) (hs.advance n)

/-- The lengths of a match (R257 to R285). -/
theorem length_bounds {y e : Nat} (h1 : 257 ≤ y) (h2 : y ≤ 285) (he : e < 2 ^ lextra y) :
    3 ≤ lbase y + e ∧ lbase y + e ≤ 258 := by
  have key : ∀ k : Fin 29, 3 ≤ lbase (257 + k.val) ∧ lbase (257 + k.val) + 2 ^ lextra (257 + k.val) ≤ 259 := by
    decide +kernel
  obtain ⟨k, rfl⟩ := Nat.exists_eq_add_of_le h1
  obtain ⟨hlo, hhi⟩ := key ⟨k, by omega⟩
  dsimp only at hlo hhi
  omega

/-- The copy of a match leaves the tables alone and ends the match (R203, R204). -/
theorem copyMatch_body {length distance : Nat} {s t : State} (h : copyMatch length distance s = .ok () t)
    (hs : BodyInv s) : t.phase = s.phase ∧ BodyInv t := by
  obtain ⟨-, hl, hd⟩ := hs
  unfold copyMatch at h
  split at h
  · cases h
  split at h
  · cases h
  cases h
  rw [copyBack_eq]
  exact ⟨rfl, fun l hm => (by cases hm), hl, hd⟩

theorem BodyInv.advance {s : State} (h : BodyInv s) (n : Nat) : BodyInv (advance n s) := by
  simpa [BodyInv] using h

/-- The phase an element of the stream is fetched in (R90). -/
def streamPhase : Format → Phase
  | .blk => .blkhdr
  | .clsym => .dynhdr
  | _ => .body

theorem finish_stage {r : Res Unit} {o : Out} {t : State} (e : o = finish r) (ht : o = .next t)
    (h : ∀ v, r = .ok () v → StageInv v) : StageInv t := by
  rcases finish_eq_next.1 (e ▸ ht) with hr | ⟨c, v, -, rfl⟩
  · exact h t hr
  · exact .raise c v

/-- Every element of the stream keeps what its phase knows. -/
theorem exec_stage {i : Instr} (hi : inStream i.format = true) {s t : State} (hp : s.phase = streamPhase i.format)
    (hs : StageInv s) (h : exec i s = .next t) : StageInv t := by
  obtain ⟨-, hheader, hbody⟩ := hs
  cases exec_meaning i s with
  | stored f _ e => exact finish_stage e h fun v hv => .of_other (.inr (storedBlock_phase hv).symm)
  | fixed f _ e => exact finish_stage e h fun v hv => .of_body (fixedBlock_phase hv) (fixedBlock_body hv)
  | dynamic f _ e =>
    exact finish_stage e h fun v hv => .of_header (by rw [dynHeader_phase hv]; rfl) (dynHeader_header hv)
  | reserved f _ e => rw [e] at h; cases h; exact .raise _ _
  | lens r x hf _ e =>
    rw [hf] at hp
    exact finish_stage e h fun v hv => putLens_stage hv hp (hheader hp)
  | run b n x hf _ e =>
    rw [hf] at hp
    exact finish_stage e h fun v hv => runLens_stage hv hp (hheader hp)
  | noPrevious _ e => rw [e] at h; cases h; exact .raise _ _
  | literal b hf e =>
    rw [hf] at hp
    rw [e, execLit] at h
    split at h <;> cases h
    · exact .raise _ _
    · exact .of_body hp (hbody hp)
  | blockEnd _ e =>
    rw [e] at h; cases h
    refine .of_other ?_
    rw [blockEnd_phase]
    split <;> simp
  | length y hf h1 h2 e =>
    rw [hf] at hp
    refine finish_stage e h fun v hv => ?_
    obtain ⟨x, u, hx, hv⟩ := Res.bind_eq_ok.1 hv
    obtain ⟨hlt, rfl⟩ := readBits_eq_ok hx
    cases hv
    obtain ⟨-, hl, hd⟩ := (hbody hp).advance (lextra y)
    refine .of_body (by simpa [streamPhase] using hp) ⟨fun l hm => ?_, hl, hd⟩
    cases hm
    exact length_bounds h1 h2 hlt
  | distance d hf _ e =>
    rw [hf] at hp
    rw [e, distanceSymbol] at h
    split at h
    · cases h
    refine finish_stage rfl h fun v hv => ?_
    obtain ⟨x, u, hx, hv⟩ := Res.bind_eq_ok.1 hv
    obtain ⟨-, rfl⟩ := readBits_eq_ok hx
    obtain ⟨hph, hb⟩ := copyMatch_body hv ((hbody hp).advance _)
    exact .of_body (hph.trans (by simpa [streamPhase] using hp)) hb
  | badSymbol _ e => rw [e] at h; cases h; exact .raise _ _
  | zlib hf | row _ hf | pixels _ hf => simp [hf, inStream] at hi
  | start hf | reset hf => simp [hf, Instr.format, inStream] at hi

/-! ### The descriptor (R392, R340, R20) -/

/-- Phase CHECK lets a descriptor pass only when all its tests do (R392). -/
theorem checkPhase_next {u t : State} (h : checkPhase u = .next t) :
    (∃ c v, t = raise c v ∧ (v = u ∨ v = setGeometry u)) ∨
      (t = { setGeometry u with phase := .zhdr } ∧ GeometryOk t) := by
  unfold checkPhase at h
  split at h
  · cases h; exact .inl ⟨_, u, rfl, .inl rfl⟩
  next hin =>
  split at h
  · cases h; exact .inl ⟨_, u, rfl, .inl rfl⟩
  next hdim =>
  split at h
  · cases h; exact .inl ⟨_, u, rfl, .inl rfl⟩
  next i hpix =>
  split at h
  · cases h; exact .inl ⟨_, u, rfl, .inl rfl⟩
  split at h
  · cases h; exact .inl ⟨_, u, rfl, .inl rfl⟩
  dsimp only at h
  split at h
  · cases h; exact .inl ⟨_, setGeometry u, rfl, .inr rfl⟩
  next hout =>
  split at h
  · cases h; exact .inl ⟨_, setGeometry u, rfl, .inr rfl⟩
  next hpx =>
  cases h
  have pos : ∀ w : Word, w ≠ 0 → 0 < w.toNat := fun w hw =>
    Nat.pos_of_ne_zero fun e => hw (BitVec.eq_of_toNat_eq e)
  exact .inr ⟨rfl, rfl, Nat.not_lt.1 hin, pos _ fun e => hdim (.inl e), pos _ fun e => hdim (.inr e), ⟨i, hpix⟩, rfl,
    rfl, rfl, rfl, Nat.not_lt.1 hout, Nat.not_lt.1 hpx⟩

/-- What CHECK established stays: no element changes the descriptor, the registers or the sizes (R20). -/
theorem GeometryOk.touched {s t : State} (h : GeometryOk s) (ht : Touched s t) : GeometryOk t := by
  obtain ⟨⟨⟨hcfg, -, -, -, -, -, hparams, -, -⟩, -⟩, -, -, hd⟩ := ht
  simp only [Work.descriptor, Prod.mk.injEq] at hd
  obtain ⟨hwc, hbits, hrow, hbpp, hcap⟩ := hd
  unfold GeometryOk
  rw [hwc, hbits, hrow, hbpp, hcap, hcfg, hparams]
  exact h

theorem Touched.cap {s t : State} (h : Touched s t) : t.work.cap = s.work.cap := by
  obtain ⟨-, -, -, hd⟩ := h
  exact congrArg (fun d => d.2.2.2.2) hd

theorem Touched.writesOut {s t : State} (h : Touched s t) : Writes s.outMem t.outMem := by
  obtain ⟨-, hw, -⟩ := h
  exact hw

/-- After CHECK, a step that does not end the run is one that elements may make. -/
theorem engine_touched {u t : State} (hb : u.runState = .busy) (hc : u.phase ≠ .check)
    (h : (engineAct u).outcome = .next t) (ht : t.phase ≠ .idle) : Touched u t := by
  rcases engine_next h with ⟨hn, -⟩ | ⟨-, hp, -⟩ | ⟨-, -, -, ⟨h, -⟩ | ⟨c, v, -, rfl, -⟩ | ⟨-, -, v, -, rfl⟩⟩
  · exact absurd hb hn
  · exact absurd hp hc
  · exact h
  · exact absurd rfl ht
  · exact absurd rfl ht

/-! ### The invariant of the whole machine -/

/-- The parts of the invariant that speak of a run (Inv apart from MemInv, RegInv and StatusInv). -/
def Underway (s : State) : Prop := WindowInv s ∧ RunInv s ∧ SizeInv s ∧ TablesInv s

/-- Outside a run, and in CHECK, only the sizes of the memories matter. -/
theorem Underway.of_unchecked {s : State} (hp : s.phase.checked = false) (h : SizeInv s) : Underway s := by
  have hp : s.phase = .idle ∨ s.phase = .check := by
    revert hp; cases s.phase <;> decide
  refine ⟨?_, ⟨?_, ?_, ?_, ?_, ?_⟩, h, ?_, ?_⟩ <;> rcases hp with hp | hp <;>
    simp [hp, WindowInv, Phase.streaming, Phase.checked]

theorem Underway.raise {v : State} (h : SizeInv v) (c : Cause) : Underway (raise c v) := .of_unchecked rfl h

/-- In the phases from BLKHDR to INFEND. -/
theorem Underway.of_runAt {s : State} (hr : RunAt s) (hs : StageInv s) (hg : s.phase ≠ .idle → GeometryOk s) :
    Underway s := by
  obtain ⟨hp, hheader, hbody⟩ := hs
  have hlate : ¬ (s.phase = .defilter ∨ s.phase = .assemble) := by
    revert hp; generalize s.phase = p; revert p; decide
  refine ⟨fun _ => hr.window, ⟨fun hc => hg fun e => ?_, fun _ => ?_, fun h => (hheader h).1, fun h => (hbody h).1,
    fun h => absurd h hlate⟩, hr.size, fun h => (hheader h).2, fun h => (hbody h).2⟩
  · rw [e] at hc; cases hc
  · exact ⟨hr.inLen, hr.endBit, hr.bitPos, hr.bitPos_le, hr.outPos, hr.written⟩

/-- In the phases that work on whole rows. -/
theorem Underway.of_row {s : State} (hp : s.phase = .defilter ∨ s.phase = .assemble) (hg : GeometryOk s)
    (hrow : s.work.row < s.work.cfg.height.toNat) (hw : OutWritten s.work.cap s) (hz : SizeInv s) : Underway s := by
  refine ⟨?_, ⟨fun _ => hg, ?_, ?_, ?_, fun _ => ⟨hrow, hw⟩⟩, hz, ?_, ?_⟩ <;> rcases hp with hp | hp <;>
    simp [hp, WindowInv, Phase.streaming]

/-- What the invariant says in a phase that reads the stream. -/
theorem Underway.runAt {s : State} (h : Underway s) (hp : s.phase ∈ [.blkhdr, .dynhdr, .body]) :
    RunAt s ∧ StageInv s ∧ GeometryOk s := by
  obtain ⟨hw, ⟨hg, hst, hdyn, hbody, -⟩, hz, hclt, htables⟩ := h
  have hs : s.phase.streaming = true ∧ s.phase.checked = true ∧ s.phase ∈ [.idle, .blkhdr, .dynhdr, .body, .infend] := by
    revert hp; generalize s.phase = p; revert p; decide
  obtain ⟨hs, hc, hmem⟩ := hs
  obtain ⟨h6, hend, h16, -, hout, hwr⟩ := hst (.inl hs)
  have g := hg hc
  obtain ⟨-, -, -, -, -, -, -, -, -, hcap, -⟩ := g
  exact ⟨⟨hw hs, h6, hend, h16, hout, hwr, hcap, hz⟩,
    ⟨hmem, fun h => ⟨hdyn h, hclt h⟩, fun h => ⟨hbody h, htables h⟩⟩, hg hc⟩

/-- The end of a row's address range (R77, R65). -/
theorem rowAddr_add_le (w : Work) {height : Nat} (h : w.row < height) :
    w.rowAddr w.row + w.rowBytes ≤ height * (1 + w.rowBytes) := by
  have := Nat.mul_le_mul_right (1 + w.rowBytes) (Nat.succ_le_of_lt h)
  rw [Nat.succ_mul] at this
  unfold Work.rowAddr
  omega

theorem OutWritten.of_writes {n : Nat} {s t : State} (h : OutWritten n s) (hw : Writes s.outMem t.outMem) :
    OutWritten n t := fun a ha => hw.isSome (h a ha)

theorem pixelsFrom_work {pixel : State → Nat → Nat → Except Cause Rgba} {y n x : Nat} {s t : State}
    (h : pixelsFrom pixel y n x s = .ok () t) : t.work = s.work := by
  rcases pixelsFrom_eq (pixel := pixel) y n x s with ⟨v, hv, e⟩ | ⟨c, v, hv, -⟩ <;> rw [hv] at h <;> cases h
  rw [e]

theorem rowFiltered_sizeInv {s : State} (h : SizeInv s) : SizeInv (rowFiltered s) := by
  unfold rowFiltered; split <;> exact h

theorem rowAssembled_sizeInv {s : State} (h : SizeInv s) : SizeInv (rowAssembled s) := by
  unfold rowAssembled; split <;> exact h

/-- ROW stays a row of the image (R351). -/
theorem rowFiltered_row {s : State} (h : s.work.row < s.work.cfg.height.toNat) :
    (rowFiltered s).work.row < (rowFiltered s).work.cfg.height.toNat := by
  unfold rowFiltered
  split <;> dsimp only <;> omega

theorem rowAssembled_row {s : State} (h : s.work.row < s.work.cfg.height.toNat) (hp : (rowAssembled s).phase ≠ .idle) :
    (rowAssembled s).work.row < (rowAssembled s).work.cfg.height.toNat := by
  revert hp
  unfold rowAssembled
  split
  · exact fun hp => absurd rfl hp
  · intro _; dsimp only; omega

section Engine

variable {u t : State} (hb : u.runState = .busy) (hu : Underway u) (h : (engineAct u).outcome = .next t)
include hb hu h

theorem check_underway (hp : u.phase = .check) : Underway t := by
  obtain ⟨-, -, hz, -⟩ := hu
  rw [engine_check hb hp] at h
  rcases checkPhase_next h with ⟨c, v, rfl, rfl | rfl⟩ | ⟨rfl, hg⟩
  · exact .raise hz c
  · exact .raise (v := setGeometry u) hz c
  · refine ⟨fun hs => ?_, ⟨fun _ => hg, fun hs => ?_, fun hs => ?_, fun hs => ?_, fun hs => ?_⟩, hz, fun hs => ?_,
      fun hs => ?_⟩ <;> simp [Phase.streaming] at hs

theorem zhdr_underway (hp : u.phase = .zhdr) : Underway t := by
  obtain ⟨-, ⟨hg, -⟩, hz, -⟩ := hu
  have hg := hg (by rw [hp]; rfl)
  have htouch := engine_touched hb (by simp [hp]) h
  rcases zhdr_next hb h hp with ⟨c, rfl⟩ | ⟨i, hi, he⟩
  · exact .raise hz c
  rcases exec_zlib_next hi he with ⟨c, rfl⟩ | ⟨h6, rfl⟩
  · exact .raise hz c
  have hm : (initReader u).mem = u.mem := by
    funext sp; cases sp <;> simp [State.mem]
  refine .of_runAt ?_ (.of_other (.inr (.inl rfl))) fun hne => hg.touched (htouch hne)
  exact {
    window := (WindowOk.init h6).congr rfl rfl rfl rfl rfl rfl rfl
    inLen := by simpa using h6
    endBit := by simp
    bitPos := by simp
    outPos := Nat.zero_le _
    written := fun a ha => absurd ha (Nat.not_lt_zero a)
    cap := by
      obtain ⟨-, -, -, -, -, -, -, -, -, hcap, -⟩ := hg
      simpa [State.size] using hcap
    size := (hz.congr hm (by simp) : SizeInv (initReader u)) }

theorem stream_underway (hp : u.phase ∈ [.blkhdr, .dynhdr, .body]) : Underway t := by
  obtain ⟨hr, hs, hg⟩ := hu.runAt hp
  have stage : ∀ {v : State} {f : Format}, inStream f = true → u.phase = streamPhase f → Fetched u v → RanTo f v t →
      StageInv t := by
    rintro v f hf hph hv (⟨c, rfl⟩ | ⟨i, rfl, he⟩)
    · exact .raise c v
    · have hsv : StageInv v := by rw [hv.eq]; exact hs
      exact exec_stage hf (by rw [hv.eq]; exact hph) hsv he
  have hst : StageInv t := by
    simp only [List.mem_cons, List.not_mem_nil, or_false] at hp
    rcases hp with hp | hp | hp
    · obtain ⟨v, hv, hran⟩ := blkhdr_next hb h hp
      exact stage (f := .blk) rfl hp hv hran
    · obtain ⟨v, hv, hran⟩ := dynhdr_next hb h hp
      exact stage (f := .clsym) rfl hp hv hran
    · obtain ⟨v, f, hv, rfl | rfl, hran⟩ := body_next hb h hp
      · exact stage (f := .ll) rfl hp hv hran
      · exact stage (f := .dist) rfl hp hv hran
  have hc : u.phase ≠ .check := by
    rintro e; rw [e] at hp; exact absurd hp (by decide)
  exact .of_runAt (engine_stable runAt_stable hb hp hr h) hst fun hne => hg.touched (engine_touched hb hc h hne)

theorem infend_underway (hp : u.phase = .infend) : Underway t := by
  obtain ⟨-, ⟨hg, hst, -⟩, hz, -⟩ := hu
  rcases infend_next hb h hp with ⟨c, rfl⟩ | ⟨hcap, rfl⟩
  · exact .raise hz c
  have g := hg (by rw [hp]; rfl)
  obtain ⟨-, -, -, -, -, hwr⟩ := hst (.inr hp)
  obtain ⟨-, -, -, hh, -⟩ := id g
  exact .of_row (.inl rfl) g hh (hcap ▸ hwr) hz

theorem defilter_underway (hp : u.phase = .defilter) : Underway t := by
  obtain ⟨-, ⟨hg, -, -, -, hrow⟩, hz, -⟩ := hu
  have htouch := engine_touched hb (by simp [hp]) h
  have g := hg (by rw [hp]; rfl)
  obtain ⟨hrow, hwr⟩ := hrow (.inl hp)
  obtain ⟨-, -, -, -, -, -, -, -, hcap, hout, -⟩ := id g
  rcases defilter_next hb h hp with ⟨c, rfl⟩ | ⟨i, hi, he⟩
  · exact .raise hz c
  obtain ⟨pred, rfl⟩ := exec_row_next hi he
  have hrange : u.work.rowAddr u.work.row + 0 + u.work.rowBytes ≤ u.size .out :=
    Nat.le_trans (rowAddr_add_le u.work hrow) (hcap ▸ hout)
  have hphase : (rowFiltered (filterFrom pred u.work.row u.work.rowBytes 0 u)).phase = .defilter ∨
      (rowFiltered (filterFrom pred u.work.row u.work.rowBytes 0 u)).phase = .assemble := by
    rcases rowFiltered_phase (filterFrom pred u.work.row u.work.rowBytes 0 u) with e | e
    · exact .inr e
    · left; rw [e, filterFrom_eq]; exact hp
  have ht := htouch (by rcases hphase with e | e <;> simp [e])
  have hcap' : (rowFiltered (filterFrom pred u.work.row u.work.rowBytes 0 u)).work.cap = u.work.cap := ht.cap
  refine .of_row hphase (g.touched ht) (rowFiltered_row (by simpa using hrow)) ?_
    (rowFiltered_sizeInv (filterFrom_sizeInv pred _ _ _ hz hrange))
  rw [hcap']
  exact hwr.of_writes ht.writesOut

theorem assemble_underway (hp : u.phase = .assemble) : Underway t := by
  obtain ⟨-, ⟨hg, -, -, -, hrow⟩, hz, -⟩ := hu
  have htouch := engine_touched hb (by simp [hp]) h
  have g := hg (by rw [hp]; rfl)
  obtain ⟨hrow, hwr⟩ := hrow (.inr hp)
  obtain ⟨-, -, -, -, -, -, -, -, -, -, hpix⟩ := id g
  have hrange : 4 * (u.work.row * u.work.cfg.width.toNat + 0 + u.work.cfg.width.toNat) ≤ u.size .pix := by
    have := Nat.mul_le_mul_right u.work.cfg.width.toNat (Nat.succ_le_of_lt hrow)
    rw [Nat.succ_mul, Nat.mul_comm u.work.cfg.height.toNat] at this
    rw [Nat.mul_assoc] at hpix
    exact Nat.le_trans (Nat.mul_le_mul_left 4 this) hpix
  rcases assemble_next hb h hp with ⟨c, rfl⟩ | ⟨i, hi, he⟩
  · exact .raise hz c
  obtain ⟨pixel, v, hv⟩ := exec_pix_next hi he
  have hall := pixelsFrom_sizeInv (pixel := pixel) u.work.row u.work.cfg.width.toNat 0 hz hrange
  rcases hv with ⟨hv, rfl⟩ | ⟨c, hv, rfl⟩
  · rw [hv] at hall
    obtain ⟨hvz⟩ := hall
    have hvz := rowAssembled_sizeInv hvz
    rcases rowAssembled_phase v with e | e
    · exact .of_unchecked (by rw [e]; rfl) hvz
    · have hph : (rowAssembled v).phase = .assemble := by rw [e, pixelsFrom_phase hv, hp]
      have ht := htouch (by simp [hph])
      have hcap' : (rowAssembled v).work.cap = u.work.cap := ht.cap
      have hvw : v.work = u.work := pixelsFrom_work hv
      refine .of_row (.inr hph) (g.touched ht) (rowAssembled_row (by rw [hvw]; exact hrow) (by simp [hph])) ?_ hvz
      rw [hcap']
      exact hwr.of_writes ht.writesOut
  · rw [hv] at hall
    cases hall with
    | raised hvz => exact .raise hvz c

end Engine

theorem engine_keeps_underway (u t : State) (hs : StatusInv u) (hu : Underway u)
    (h : (engineAct u).outcome = .next t) : Underway t := by
  by_cases hb : u.runState = .busy
  case neg => rw [engine_idle hb] at h; cases h; exact hu
  obtain ⟨-, hstored, hfixed, -⟩ := hs
  cases hp : u.phase with
  | idle => rw [engine_fault hb hp] at h; cases h
  | stored => exact absurd hp hstored
  | fixed => exact absurd hp hfixed
  | check => exact check_underway hb hu h hp
  | zhdr => exact zhdr_underway hb hu h hp
  | blkhdr | dynhdr | body => exact stream_underway hb hu h (by rw [hp]; decide)
  | infend => exact infend_underway hb hu h hp
  | defilter => exact defilter_underway hb hu h hp
  | assemble => exact assemble_underway hb hu h hp

/-- The host writes inside the memories only (R50, R69). -/
theorem host_keeps_sizeInv {op : HostOp} {s t : State} (hw : op ≠ .wait) (hs : SizeInv s)
    (h : (hostAct op s).outcome = .next t) : SizeInv t := by
  rcases host_next hw h with ⟨-, rfl⟩ | ⟨v, -, -, -, -, rfl⟩ | rfl | ⟨off, v, -, rfl⟩ | ⟨d, rfl⟩ |
    ⟨sp, a, b, -, ha, rfl⟩
  case inl => intro sp c hc; cases sp <;> cases hc
  case inr.inl =>
    intro sp c hc
    cases sp with
    | out | pix => cases hc
    | inp => exact hs .inp c hc
    | plte => exact hs .plte c hc
    | trns => exact hs .trns c hc
  case inr.inr.inr.inr.inr => exact hs.write ha b
  all_goals exact hs

theorem host_keeps_underway (op : HostOp) (s t : State) (hop : op ≠ .wait) (hs : StatusInv s) (hu : Underway s)
    (h : (hostAct op s).outcome = .next t) : Underway t := by
  obtain ⟨-, -, hz, -⟩ := id hu
  have hz := host_keeps_sizeInv hop hz h
  rcases host_phase hop hs h with hp | hp | ⟨d, rfl⟩
  · exact .of_unchecked (by rw [hp]; rfl) hz
  · exact .of_unchecked (by rw [hp]; rfl) hz
  · exact hu

/-- Settles O53: the memories, the registers and the status by their own statements, the rest phase by phase. -/
theorem invKept : Obligations.InvKept := by
  intro s t ⟨hm, hr, hs, hu⟩ h
  have hboth : StatusInv t ∧ Underway t :=
    step_keeps (P := fun s => StatusInv s ∧ Underway s) (fun _ _ h => h)
      (fun u t ⟨hs, hu⟩ h => ⟨engine_keeps_statusInv u t hs h, engine_keeps_underway u t hs hu h⟩)
      (fun op s t hop ⟨hs, hu⟩ h => ⟨host_keeps_statusInv op s t hop hs h, host_keeps_underway op s t hop hs hu h⟩)
      ⟨hs, hu⟩ h
  exact ⟨memoriesKept s t hm h, registersKept s t hr h, hboth⟩

/-- Settles O54: no run is under way and no memory holds a byte. -/
theorem resetInv : Obligations.ResetInv := by
  refine ⟨fun sp => ?_, ?_, ?_, Underway.of_unchecked rfl fun sp c hc => ?_⟩
  · cases sp <;> rfl
  · exact ⟨BitVec.zero_and, BitVec.zero_and, BitVec.zero_and, BitVec.zero_and⟩
  · exact .of_reset rfl rfl rfl rfl
  · cases sp <;> cases hc

end Sys2Proof.Machine

namespace Sys2Proof.Machine

/-! ### The bytes of IN outside the data (spec/20_memory.md R38, R63, R107)

Every operation of the stream commutes with a change of IN that agrees with it at the bytes below END_BIT. -/

/-- Another content of IN that reads the same at every byte below END_BIT. -/
def InAgrees (m : List Host.Cell) (s : State) : Prop :=
  ∀ a, 8 * a < s.work.endBit → (s.withIn m).read .inp a = s.read .inp a

/-- The change of IN in what an operation answers. -/
def Res.withIn {α : Type} (m : List Host.Cell) : Res α → Res α
  | .ok a s => .ok a (s.withIn m)
  | .raised k s => .raised k (s.withIn m)

/-- The change of IN in a step's outcome. -/
def outWithIn (m : List Host.Cell) : Out → Out
  | .next s => .next (s.withIn m)
  | .fault f => .fault f
  | .refused r => .refused r

/-- An operation that reads IN below END_BIT only, writes nothing of it and leaves END_BIT alone. -/
def InBlind {α : Type} (m : List Host.Cell) (f : State → Res α) : Prop :=
  ∀ s, InAgrees m s → f (s.withIn m) = (f s).withIn m ∧ (f s).All (InAgrees m)

/-- The same, of an operation that always answers a state. -/
def InPassive (m : List Host.Cell) (f : State → State) : Prop :=
  ∀ s, InAgrees m s → f (s.withIn m) = (f s).withIn m ∧ InAgrees m (f s)

section Blind

variable {m : List Host.Cell}

theorem InAgrees.congr {s t : State} (h : InAgrees m s) (he : t.work.endBit = s.work.endBit) (hm : t.inMem = s.inMem)
    (hi : t.inEpoch = s.inEpoch) : InAgrees m t := by
  intro a ha
  rw [State.read_congr (s := s.withIn m) (t := t.withIn m) (sp := .inp) rfl hi,
    State.read_congr (s := s) (t := t) (sp := .inp) hm hi]
  exact h a (he ▸ ha)

theorem InBlind.ok {α : Type} (a : α) {f : State → State} (h : InPassive m f) : InBlind m fun s => .ok a (f s) :=
  fun s hs => ⟨congrArg (Res.ok a) (h s hs).1, .ok (h s hs).2⟩

theorem InBlind.raised {α : Type} (k : Cause) : InBlind (α := α) m (.raised k) := fun _ hs => ⟨rfl, .raised hs⟩

theorem InBlind.bind {α β : Type} {f : State → Res α} {g : α → State → Res β} (hf : InBlind m f)
    (hg : ∀ a, InBlind m (g a)) : InBlind m fun s => (f s).bind g := by
  intro s hs
  obtain ⟨e, hall⟩ := hf s hs
  dsimp only
  rw [e]
  cases hfs : f s with
  | ok a t =>
    rw [hfs] at hall
    obtain ⟨ht⟩ := hall
    exact hg a t ht
  | raised k t =>
    rw [hfs] at hall
    exact ⟨rfl, by cases hall with | raised ht => exact .raised ht⟩

theorem InBlind.after {α : Type} {f : State → Res α} {g : State → State} (hf : InBlind m f) (hg : InPassive m g) :
    InBlind m fun s => f (g s) := by
  intro s hs
  obtain ⟨e, hgs⟩ := hg s hs
  dsimp only
  rw [e]
  exact hf _ hgs

theorem InBlind.ite {α : Type} {p : State → Prop} [DecidablePred p] {f g : State → Res α}
    (hp : ∀ s, p (s.withIn m) ↔ p s) (hf : InBlind m f) (hg : InBlind m g) :
    InBlind m fun s => if p s then f s else g s := by
  intro s hs
  by_cases h : p s
  · simp only [if_pos h, if_pos ((hp s).2 h)]
    exact hf s hs
  · simp only [if_neg h, if_neg (mt (hp s).1 h)]
    exact hg s hs

/-! The bit-reader. -/

theorem sbit_withIn {s : State} (h : InAgrees m s) (i : Nat) : (s.withIn m).sbit i = s.sbit i := by
  by_cases hi : i < s.work.endBit
  · unfold State.sbit
    rw [h (i / 8) (by omega)]
    rfl
  · rw [State.sbit_of_endBit_le (Nat.not_lt.1 hi), State.sbit_of_endBit_le (s := s.withIn m) (Nat.not_lt.1 hi)]

theorem bits_withIn {s : State} (h : InAgrees m s) (n i : Nat) : (s.withIn m).bits i n = s.bits i n := by
  induction n generalizing i with
  | zero => rfl
  | succ n ih => simp only [State.bits, ih, sbit_withIn h]

theorem peekbit_withIn {s : State} (h : InAgrees m s) : (s.withIn m).peekbit = s.peekbit :=
  funext fun k => sbit_withIn h (s.work.bitPos + k)

theorem refill1_inPassive : InPassive m refill1 := by
  refine fun s hs => ⟨?_, hs.congr (by simp) (by simp) (by simp)⟩
  have ew : (s.withIn m).work = s.work := rfl
  unfold refill1
  rw [ew]
  by_cases hc : s.work.nbits < 16 ∧ s.work.inPos < s.work.endBit / 8
  · rw [if_pos hc, if_pos hc, hs _ (by omega)]; rfl
  · rw [if_neg hc, if_neg hc]

theorem refill_inPassive : InPassive m refill := by
  intro s hs
  obtain ⟨e, h1⟩ := refill1_inPassive s hs
  unfold refill
  rw [e]
  exact refill1_inPassive _ h1

theorem advance_inPassive (n : Nat) : InPassive m (advance n) := fun s hs =>
  refill_inPassive (windowDrop n { s with work.bitPos := s.work.bitPos + n }) hs

theorem align_inPassive : InPassive m align := fun s hs =>
  refill_inPassive (windowDrop (s.work.nbits % 8) { s with work.bitPos := 8 * ((s.work.bitPos + 7) / 8) }) hs

theorem readBits_inBlind (n : Nat) : InBlind m (readBits n) := by
  intro s hs
  obtain ⟨e, ha⟩ := advance_inPassive n s hs
  by_cases h : s.work.bitPos + n ≤ s.work.endBit
  · rw [readBits_ok h, readBits_ok (s := s.withIn m) h, e]
    exact ⟨congrArg (Res.ok · _) (bits_withIn hs n _), .ok ha⟩
  · rw [readBits_starved (Nat.not_le.1 h), readBits_starved (s := s.withIn m) (Nat.not_le.1 h)]
    exact ⟨rfl, .raised hs⟩

theorem consume_inBlind (n : Nat) : InBlind m (consume n) := by
  intro s hs
  obtain ⟨e, ha⟩ := advance_inPassive n s hs
  by_cases h : s.work.bitPos + n ≤ s.work.endBit
  · rw [consume_ok h, consume_ok (s := s.withIn m) h, e]
    exact ⟨rfl, .ok ha⟩
  · rw [consume_starved (Nat.not_le.1 h), consume_starved (s := s.withIn m) (Nat.not_le.1 h)]
    exact ⟨rfl, .raised hs⟩

theorem huffDecode_inBlind (t : Huff) : InBlind m (huffDecode t) := by
  intro s hs
  unfold huffDecode
  rw [peekbit_withIn hs]
  cases t.lookup s.peekbit with
  | none => exact ⟨rfl, .raised hs⟩
  | some p => exact (consume_inBlind p.2).bind (fun _ => .ok _ fun _ h => ⟨rfl, h⟩) s hs

/-! Blocks. -/

theorem storedBytes_inBlind (n : Nat) : InBlind m (storedBytes n) := by
  induction n with
  | zero => exact fun _ hs => ⟨rfl, .ok hs⟩
  | succ n ih => exact (readBits_inBlind 8).bind fun b => ih.after fun _ hs => ⟨rfl, hs⟩

theorem storedBlock_inBlind : InBlind m storedBlock :=
  ((readBits_inBlind 16).after align_inPassive).bind fun len => (readBits_inBlind 16).bind fun _ =>
    .ite (fun _ => Iff.rfl) (.raised _) (.ite (fun _ => Iff.rfl) (.raised _)
      ((storedBytes_inBlind len).bind fun _ => .ok _ fun _ hs => ⟨rfl, hs⟩))

theorem loadLlt_inBlind (lens : List Nat) (n : Nat) : InBlind m (loadLlt lens n) := by
  intro s hs; unfold loadLlt; split
  · exact ⟨rfl, .raised hs⟩
  · exact ⟨rfl, .ok hs⟩

theorem loadDt_inBlind (lens : List Nat) (n : Nat) : InBlind m (loadDt lens n) := by
  intro s hs; unfold loadDt; split
  · exact ⟨rfl, .raised hs⟩
  · exact ⟨rfl, .ok hs⟩

theorem loadClt_inBlind : InBlind m loadClt := by
  intro s hs
  have e : (s.withIn m).work = s.work := rfl
  unfold loadClt
  rw [e]
  split
  · exact ⟨rfl, .raised hs⟩
  · exact ⟨rfl, .ok hs⟩

theorem fixedBlock_inBlind : InBlind m fixedBlock :=
  (loadLlt_inBlind _ _).bind fun _ => (loadDt_inBlind _ _).bind fun _ => .ok _ fun _ hs => ⟨rfl, hs⟩

theorem readClLens_inBlind (ks : List Nat) : InBlind m (readClLens ks) := by
  induction ks with
  | nil => exact fun _ hs => ⟨rfl, .ok hs⟩
  | cons k ks ih =>
    exact (readBits_inBlind 3).bind fun x => ih.after
      (g := fun s => { s with work.clLens := s.work.clLens.setIfInBounds k (BitVec.ofNat 3 x) }) fun _ hs => ⟨rfl, hs⟩

theorem dynHeader_inBlind : InBlind m dynHeader :=
  (readBits_inBlind 5).bind fun hl =>
    ((readBits_inBlind 5).after (g := fun s => { s with work.hlit := hl + 257 }) fun _ hs => ⟨rfl, hs⟩).bind fun hd =>
      ((readBits_inBlind 4).after (g := fun s => { s with work.hdist := hd + 1 }) fun _ hs => ⟨rfl, hs⟩).bind fun hc =>
        ((readClLens_inBlind _).after
          (g := fun s => { s with work.hclen := hc + 4, work.clLens := Vector.replicate 19 0 })
          fun _ hs => ⟨rfl, hs⟩).bind fun _ => loadClt_inBlind.bind fun _ =>
            .ok () (f := fun s => { s with work.lenI := 0 }) fun _ hs => ⟨rfl, hs⟩

theorem buildTables_inBlind : InBlind m buildTables := by
  have hd : InBlind m fun t => (loadDt t.work.distLens t.work.hdist t).bind fun _ t => .ok () (enterBody t) :=
    fun t ht => (loadDt_inBlind t.work.distLens t.work.hdist).bind
      (fun _ => .ok () (f := enterBody) fun _ hs => ⟨rfl, hs⟩) t ht
  exact fun s hs => (loadLlt_inBlind s.work.litLens s.work.hlit).bind (fun _ => hd) s hs

theorem putLens_inBlind (r : Nat) (x : BitVec 4) : InBlind m (putLens r x) := fun s hs =>
  (InBlind.ite (p := fun s => s.work.lenI < s.work.lensTotal) (fun _ => Iff.rfl)
    (.ok () (f := fun s => s) fun _ hs => ⟨rfl, hs⟩) buildTables_inBlind).after
    (g := fun s => { s with work.lens := fillLens s.work.lens s.work.lenI x r, work.lenI := s.work.lenI + r })
    (fun _ hs => ⟨rfl, hs⟩) s hs

theorem runLens_inBlind (b n : Nat) (x : BitVec 4) : InBlind m (runLens b n x) :=
  (readBits_inBlind n).bind fun _ => .ite (fun _ => Iff.rfl) (.raised _) (putLens_inBlind _ _)

/-! Matches, rows and pixels. -/

theorem copyBack_withIn (d n : Nat) (s : State) : copyBack d n (s.withIn m) = (copyBack d n s).withIn m := by
  induction n generalizing s with
  | zero => rfl
  | succ n ih => exact ih (putOut (s.read .out (s.work.outPos - d)) s)

theorem copyMatch_inBlind (length distance : Nat) : InBlind m (copyMatch length distance) := by
  refine .ite (fun _ => Iff.rfl) (.raised _) (.ite (fun _ => Iff.rfl) (.raised _)
    (.ok () (f := fun s => { copyBack distance length s with work.matchLen := none }) fun s hs => ⟨?_, ?_⟩))
  · dsimp only; rw [copyBack_withIn]; rfl
  · dsimp only; rw [copyBack_eq]; exact hs

theorem filterFrom_withIn (pred : Nat → Nat → Nat → Nat) (y n x : Nat) (s : State) :
    filterFrom pred y n x (s.withIn m) = (filterFrom pred y n x s).withIn m := by
  induction n generalizing x s with
  | zero => rfl
  | succ n ih => exact ih (x + 1) (filterByte pred y x s)

/-- A pixel function that does not read IN. -/
def IgnoresIn (pixel : State → Nat → Nat → Except Cause Rgba) : Prop :=
  ∀ s m y x, pixel (s.withIn m) y x = pixel s y x

theorem pixelsFrom_withIn {pixel : State → Nat → Nat → Except Cause Rgba} (h : IgnoresIn pixel) (y n x : Nat)
    (s : State) : pixelsFrom pixel y n x (s.withIn m) = (pixelsFrom pixel y n x s).withIn m := by
  induction n generalizing x s with
  | zero => rfl
  | succ n ih =>
    rw [pixelsFrom, pixelsFrom, h]
    cases pixel s y x with
    | error k => rfl
    | ok p => exact ih (x + 1) (putPixel y x p s)

/-! Elements. -/

theorem finish_withIn (r : Res Unit) : finish (r.withIn m) = outWithIn m (finish r) := by
  cases r <;> rfl

theorem InBlind.finish {f : State → Res Unit} (h : InBlind m f) {s : State} (hs : InAgrees m s) :
    Machine.finish (f (s.withIn m)) = outWithIn m (Machine.finish (f s)) := by rw [(h s hs).1, finish_withIn]

theorem lengthSymbol_withIn (y : Nat) {s : State} (hs : InAgrees m s) :
    lengthSymbol y (s.withIn m) = outWithIn m (lengthSymbol y s) :=
  ((readBits_inBlind (lextra y)).bind fun e =>
    .ok () (f := fun s => { s with work.matchLen := some (lbase y + e) }) fun _ hs => ⟨rfl, hs⟩).finish hs

theorem distanceSymbol_withIn (d : Nat) {s : State} (hs : InAgrees m s) :
    distanceSymbol d (s.withIn m) = outWithIn m (distanceSymbol d s) := by
  unfold distanceSymbol
  have e : (s.withIn m).work = s.work := rfl
  rw [e]
  split
  · rfl
  · exact ((readBits_inBlind (dextra d)).bind fun e => copyMatch_inBlind _ _).finish hs

theorem execClRep16_withIn {s : State} (hs : InAgrees m s) :
    execClRep16 (s.withIn m) = outWithIn m (execClRep16 s) := by
  unfold execClRep16
  exact ite_map (outWithIn m) rfl ((runLens_inBlind 3 2 _).finish hs)

theorem execLit_withIn (b : Byte) (s : State) : execLit b (s.withIn m) = outWithIn m (execLit b s) := by
  unfold execLit
  exact ite_map (outWithIn m) rfl rfl

theorem reconstructRow_withIn (pred : Nat → Nat → Nat → Nat) (s : State) :
    reconstructRow pred (s.withIn m) = outWithIn m (reconstructRow pred s) := by
  have e : (s.withIn m).work = s.work := rfl
  unfold reconstructRow
  rw [e, filterFrom_withIn]
  unfold rowFiltered
  exact congrArg Host.Outcome.next (ite_map (State.withIn · m) rfl rfl)

theorem assembleRow_withIn {pixel : State → Nat → Nat → Except Cause Rgba} (h : IgnoresIn pixel) (s : State) :
    assembleRow pixel (s.withIn m) = outWithIn m (assembleRow pixel s) := by
  have e : (s.withIn m).work = s.work := rfl
  unfold assembleRow
  rw [e, pixelsFrom_withIn h]
  cases pixelsFrom pixel s.work.row s.work.cfg.width.toNat 0 s with
  | raised k t => rfl
  | ok a t =>
    unfold rowAssembled
    exact congrArg Host.Outcome.next (ite_map (State.withIn · m) rfl rfl)

/-- ZLIB_HDR starts the reader at END_BIT = 8 x (IN_LEN - 4), behind which it reads nothing (R107). -/
theorem execZlibHdr_withIn (a b c : Nat) {s : State}
    (h : ∀ a, a + 4 < s.work.cfg.inLen.toNat → (s.withIn m).read .inp a = s.read .inp a) :
    execZlibHdr a b c (s.withIn m) = outWithIn m (execZlibHdr a b c s) := by
  have hs : InAgrees m { s with
      work.endBit := 8 * (s.work.cfg.inLen.toNat - 4), work.bitPos := 16, work.acc := 0, work.nbits := 0
      work.inPos := 2 } := fun a ha => h a (by dsimp only at ha; omega)
  have e : initReader (s.withIn m) = (initReader s).withIn m := (refill_inPassive _ hs).1
  unfold execZlibHdr
  rw [e]
  exact ite_map (outWithIn m) rfl rfl

/-- Format ZLIB has one element (R91). -/
theorem eq_zlibHdr {i : Instr} (hi : i.format = .zlib) : ∃ a b c, i = .zlibHdr a b c := by
  cases i
  case zlibHdr a b c => exact ⟨a, b, c, rfl⟩
  all_goals cases hi

/-- No element of the stream reads IN at or behind END_BIT (R38). -/
theorem exec_withIn_stream {i : Instr} (hi : inStream i.format = true) {s : State} (hs : InAgrees m s) :
    exec i (s.withIn m) = outWithIn m (exec i s) := by
  cases i
  case blkStored f => exact storedBlock_inBlind.finish (s := blockHeader f 0 .stored s) hs
  case blkFixed f => exact (fixedBlock_inBlind.finish (s := blockHeader f 1 .fixed s) hs :)
  case blkDynamic f => exact dynHeader_inBlind.finish (s := blockHeader f 2 .dynhdr s) hs
  case clLen len => exact (putLens_inBlind 1 _).finish hs
  case clRep16 => exact execClRep16_withIn hs
  case clZero17 => exact (runLens_inBlind 3 3 0).finish hs
  case clZero18 => exact (runLens_inBlind 11 7 0).finish hs
  case lit b => exact execLit_withIn b s
  case blkReserved | eob | ll286 | ll287 | dist30 | dist31 => rfl
  case len257 | len258 | len259 | len260 | len261 | len262 | len263 | len264 | len265 | len266 | len267 | len268
    | len269 | len270 | len271 | len272 | len273 | len274 | len275 | len276 | len277 | len278 | len279 | len280
    | len281 | len282 | len283 | len284 | len285 =>
    exact lengthSymbol_withIn _ hs
  case dist0 | dist1 | dist2 | dist3 | dist4 | dist5 | dist6 | dist7 | dist8 | dist9 | dist10 | dist11 | dist12
    | dist13 | dist14 | dist15 | dist16 | dist17 | dist18 | dist19 | dist20 | dist21 | dist22 | dist23 | dist24
    | dist25 | dist26 | dist27 | dist28 | dist29 =>
    exact distanceSymbol_withIn _ hs
  all_goals cases hi

/-- No filter and no pixel format reads IN. -/
theorem exec_withIn_rows {i : Instr} (hi : i.format = .row ∨ i.format = .pix) (s : State) :
    exec i (s.withIn m) = outWithIn m (exec i s) := by
  cases i
  case filtNone | filtSub | filtUp | filtAvg | filtPaeth => exact reconstructRow_withIn _ s
  case pixGray8 | pixRgb8 | pixIdx1 | pixIdx2 | pixIdx4 | pixIdx8 | pixGa8 | pixRgba8 =>
    exact assembleRow_withIn (fun _ _ _ _ => rfl) s
  all_goals exact absurd hi (by simp [Instr.format])

/-! The engine's step. -/

theorem ofDecode_withIn {r : Except DecodeError Instr} {s : State}
    (hr : ∀ i, r = .ok i → exec i (s.withIn m) = outWithIn m (exec i s)) :
    (Act.ofDecode r (s.withIn m)).outcome = outWithIn m (Act.ofDecode r s).outcome := by
  cases r with
  | error e => rfl
  | ok i => exact hr i rfl

theorem ofFetch_withIn {f : State → Res (Except DecodeError Instr)} (hf : InBlind m f)
    (hr : ∀ s i t, f s = .ok (.ok i) t → inStream i.format = true) {s : State} (hs : InAgrees m s) :
    (Act.ofFetch (f (s.withIn m))).outcome = outWithIn m (Act.ofFetch (f s)).outcome := by
  obtain ⟨e, hall⟩ := hf s hs
  rw [e]
  cases h : f s with
  | raised k t => rfl
  | ok d t =>
    rw [h] at hall
    obtain ⟨ht⟩ := hall
    exact ofDecode_withIn fun i hi => exec_withIn_stream (hr s i t (by rw [h, hi])) ht

theorem fetchSymbol_withIn {f : Format} (hc : inStream f = true) (t : Huff) {s : State} (hs : InAgrees m s) :
    (fetchSymbol f t (s.withIn m)).outcome = outWithIn m (fetchSymbol f t s).outcome := by
  refine ofFetch_withIn (f := fun s => (huffDecode t s).bind fun y s => .ok (decodeWord f y) s)
    ((huffDecode_inBlind t).bind fun y => .ok _ fun _ hs => ⟨rfl, hs⟩) ?_ hs
  intro s i t h
  obtain ⟨y, u, -, h⟩ := Res.bind_eq_ok.1 h
  injection h with h1
  rw [format_of_decode h1]; exact hc

theorem fetchBlock_withIn {s : State} (hs : InAgrees m s) :
    (fetchBlock (s.withIn m)).outcome = outWithIn m (fetchBlock s).outcome := by
  refine ofFetch_withIn (f := fun s => (readBits 1 s).bind fun f s => (readBits 2 s).bind fun t s =>
    .ok (decodeWord .blk (f + 2 * t)) s) ?_ ?_ hs
  · exact (readBits_inBlind 1).bind fun _ => (readBits_inBlind 2).bind fun _ => .ok _ fun _ hs => ⟨rfl, hs⟩
  · intro s i t h
    obtain ⟨y, u, -, h⟩ := Res.bind_eq_ok.1 h
    obtain ⟨y, u, -, h⟩ := Res.bind_eq_ok.1 h
    injection h with h1
    rw [format_of_decode h1]; rfl

theorem fetchBody_withIn {s : State} (hs : InAgrees m s) :
    (fetchBody (s.withIn m)).outcome = outWithIn m (fetchBody s).outcome := by
  have e : (s.withIn m).work = s.work := rfl
  unfold fetchBody
  rw [e]
  split
  · exact fetchSymbol_withIn rfl _ hs
  · exact fetchSymbol_withIn rfl _ hs

theorem fetchZlib_withIn {s : State}
    (h : ∀ a, a < 2 ∨ a + 4 < s.work.cfg.inLen.toNat → (s.withIn m).read .inp a = s.read .inp a) :
    (fetchZlib (s.withIn m)).outcome = outWithIn m (fetchZlib s).outcome := by
  unfold fetchZlib
  rw [h 0 (.inl (by omega)), h 1 (.inl (by omega))]
  by_cases h6 : s.work.cfg.inLen.toNat < 6
  · rw [if_pos h6, if_pos (show (s.withIn m).work.cfg.inLen.toNat < 6 from h6)]; rfl
  · rw [if_neg h6, if_neg (show ¬ (s.withIn m).work.cfg.inLen.toNat < 6 from h6)]
    refine ofDecode_withIn fun i hi => ?_
    obtain ⟨x, y, z, rfl⟩ := eq_zlibHdr (format_of_decode hi)
    exact execZlibHdr_withIn x y z fun a ha => h a (.inr ha)

/-- CHECK reads no memory (R392). -/
theorem checkPhase_withIn (s : State) : checkPhase (s.withIn m) = outWithIn m (checkPhase s) := by
  unfold checkPhase
  refine ite_map (outWithIn m) rfl (ite_map (outWithIn m) rfl ?_)
  have e : (s.withIn m).cfg = s.cfg := rfl
  rw [e]
  cases decodeWord .pix s.cfg.pixWord with
  | error e => rfl
  | ok i =>
    exact ite_map (outWithIn m) rfl (ite_map (outWithIn m) rfl
      (ite_map (outWithIn m) rfl (ite_map (outWithIn m) rfl rfl)))

end Blind

/-- The engine's step depends on nothing of IN but the zlib header and the data (R38, R107). -/
theorem engine_withIn {m : List Host.Cell} {u : State} (hinv : Inv u) (hb : u.runState = .busy)
    (h : ∀ a, a < 2 ∨ a + 4 < u.cfg.inLen.toNat → (u.withIn m).read .inp a = u.read .inp a) :
    (engineAct (u.withIn m)).outcome = outWithIn m (engineAct u).outcome := by
  obtain ⟨-, -, ⟨hidle, hstored, hfixed, -⟩, -, ⟨hgeo, hstream, -⟩, -⟩ := hinv
  have hlen : u.phase.checked = true → u.work.cfg = u.cfg := fun hc => (hgeo hc).1
  have hin : u.phase.streaming = true → InAgrees m u := by
    intro hs a ha
    obtain ⟨-, hend, -⟩ := hstream (.inl hs)
    have hc : u.phase.checked = true := by revert hs; cases u.phase <;> decide
    rw [hlen hc] at hend
    exact h a (.inr (by omega))
  unfold engineAct
  have er : (u.withIn m).runState = u.runState := rfl
  rw [er, if_neg (not_not.2 hb), if_neg (not_not.2 hb)]
  have ep : (u.withIn m).phase = u.phase := rfl
  rw [ep]
  cases hp : u.phase with
  | idle => rfl
  | stored => exact absurd hp hstored
  | fixed => exact absurd hp hfixed
  | check => exact checkPhase_withIn u
  | zhdr => exact fetchZlib_withIn fun a ha => h a (by rwa [← hlen (by rw [hp]; rfl)])
  | blkhdr => exact fetchBlock_withIn (hin (by rw [hp]; rfl))
  | dynhdr => exact fetchSymbol_withIn rfl u.work.clt (hin (by rw [hp]; rfl))
  | body => exact fetchBody_withIn (hin (by rw [hp]; rfl))
  | infend =>
    change infEnd (u.withIn m) = outWithIn m (infEnd u)
    unfold infEnd
    exact ite_map (outWithIn m) rfl rfl
  | defilter => exact ofDecode_withIn fun i hi => exec_withIn_rows (.inl (format_of_decode hi)) u
  | assemble => exact ofDecode_withIn fun i hi => exec_withIn_rows (.inr (format_of_decode hi)) u

/-- Settles O60: every phase's step commutes with the change of IN. -/
theorem trailerUnread : Obligations.TrailerUnread := by
  intro s t m hinv hhost hb h hstep
  have hs : EngineTurn s s := .inl ⟨hhost, rfl⟩
  have hm : EngineTurn (s.withIn m) (s.withIn m) := .inl ⟨hhost, rfl⟩
  rw [hs.step] at hstep
  rw [hm.step, engine_withIn hinv hb h, hstep]
  rfl

end Sys2Proof.Machine

namespace Sys2Proof.Machine

/-! ### Rows of pixels (spec/45_pixel.md R362 to R374) -/

/-- A run ended by `raise`, the inputs as they were (R412, R414). -/
theorem Failed.of_raise {u v : State} (h : SameInputs u v) (c : Cause) : Failed c u (raise c v) :=
  ⟨rfl, rfl, rfl, rfl, h⟩

/-- ROW moves on; the last row ends the run, and nothing else changes (R362, R395). -/
theorem rowAssembled_moves (v : State) :
    SameInputs v (rowAssembled v) ∧ SameMem .out v (rowAssembled v) ∧ (rowAssembled v).errKind = v.errKind ∧
      (rowAssembled v).errCause = v.errCause ∧ (rowAssembled v).work = { v.work with row := v.work.row + 1 } ∧
      (v.work.row + 1 = v.work.cfg.height.toNat → (rowAssembled v).runState = .done ∧ (rowAssembled v).phase = .idle) ∧
      (v.work.row + 1 ≠ v.work.cfg.height.toNat →
        (rowAssembled v).runState = v.runState ∧ (rowAssembled v).phase = v.phase) := by
  unfold rowAssembled
  split
  · next h => exact ⟨.refl v, fun _ => rfl, rfl, rfl, rfl, fun _ => ⟨rfl, rfl⟩, fun hn => absurd h hn⟩
  · next h => exact ⟨.refl v, fun _ => rfl, rfl, rfl, rfl, fun he => absurd he h, fun _ => ⟨rfl, rfl⟩⟩

section Row

variable {pixel : State → Nat → Nat → Except Cause Rgba} (hi : IgnoresPix pixel) (s : State) (f : Nat → Rgba)
include hi

/-- A row whose pixels can all be made is assembled (R362). -/
theorem assembleRow_assembled (h : ∀ k, k < s.work.cfg.width.toNat → pixel s s.work.row k = .ok (f k)) :
    ∃ t, assembleRow pixel s = .next t ∧
      RowAssembled (fun x => ((f x).r, (f x).g, (f x).b, (f x).a)) s t := by
  obtain ⟨v, hv, he, hpixels, hout⟩ :=
    pixelsFrom_ok hi s.work.row s.work.cfg.width.toNat 0 s f fun k _ hk => h k (by omega)
  have hin : SameInputs s v := by rw [he]; exact .refl _
  have hmem : SameMem .out s v := by rw [he]; exact fun _ => rfl
  have hwork : v.work = s.work := by rw [he]
  have hkind : v.errKind = s.errKind := by rw [he]
  have hcause : v.errCause = s.errCause := by rw [he]
  have hrun : v.runState = s.runState := by rw [he]
  have hphase : v.phase = s.phase := by rw [he]
  obtain ⟨min, mmem, mkind, mcause, mwork, mlast, mnext⟩ := rowAssembled_moves v
  rw [hwork, hrun, hphase] at *
  refine ⟨rowAssembled v, by rw [assembleRow, hv]; rfl, hin.trans min, fun x => (mmem x).trans (hmem x),
    mkind.trans hkind, mcause.trans hcause, mwork, mlast, mnext, ?_, ?_⟩
  · intro a ha
    rw [rowAssembled_read]
    exact hout a ha
  · intro x hx
    obtain ⟨hr, hg, hb, ha⟩ := hpixels x (Nat.zero_le x) (by omega)
    simp only [rowAssembled_read, hr, hg, hb, ha]

/-- The first pixel that cannot be made ends the run (R374, R413). -/
theorem assembleRow_raised {c : Cause} {j : Nat} (hj : j < s.work.cfg.width.toNat)
    (h : ∀ k, k < j → pixel s s.work.row k = .ok (f k)) (hc : pixel s s.work.row j = .error c) :
    ∃ t, assembleRow pixel s = .next t ∧ Failed c s t ∧ SameMem .out s t ∧
      SameOutside .pix (4 * (s.work.row * s.work.cfg.width.toNat)) (4 * j) s t := by
  obtain ⟨v, hv, he, hout⟩ :=
    pixelsFrom_raised hi s.work.row s.work.cfg.width.toNat 0 s f c j (Nat.zero_le j) (by omega) (fun k _ hk => h k hk) hc
  refine ⟨raise c v, by rw [assembleRow, hv]; rfl, .of_raise (by rw [he]; exact .refl _) c, ?_, fun a ha => hout a ha⟩
  rw [he]
  exact fun _ => rfl

end Row

/-- Settles O36: each pixel is `State.grayPixel`. -/
theorem grayPixels : Obligations.GrayPixels := fun s =>
  assembleRow_assembled (plainPixel_ok _ fun _ _ _ _ => rfl).1 s (s.grayPixel s.work.row) fun _ _ => rfl

/-- Settles O37: each pixel is `State.rgbPixel`. -/
theorem rgbPixels : Obligations.RgbPixels := fun s =>
  assembleRow_assembled (plainPixel_ok _ fun _ _ _ _ => rfl).1 s (s.rgbPixel s.work.row) fun _ _ => rfl

/-- Settles O38: each pixel is `State.grayAlphaPixel` or `State.rgbaPixel`. -/
theorem alphaPixels : Obligations.AlphaPixels := fun s =>
  ⟨assembleRow_assembled (plainPixel_ok _ fun _ _ _ _ => rfl).1 s (s.grayAlphaPixel s.work.row) fun _ _ => rfl,
    assembleRow_assembled (plainPixel_ok _ fun _ _ _ _ => rfl).1 s (s.rgbaPixel s.work.row) fun _ _ => rfl⟩

/-- The four indexed formats are one operation at four depths (R366 to R369). -/
theorem exec_indexed (s : State) : ∀ row ∈ [(Instr.pixIdx1, 1), (.pixIdx2, 2), (.pixIdx4, 4), (.pixIdx8, 8)],
    exec row.1 s = assembleRow (fun s y x => s.indexedPixel row.2 y x) s := by
  simp only [List.forall_mem_cons]
  exact ⟨rfl, rfl, rfl, rfl, fun _ h => absurd h List.not_mem_nil⟩

/-- The pixel of an index in the palette, as the model makes it (R374, R373). -/
def State.paletteRgba (s : State) (idx : Nat) : Rgba :=
  ⟨s.read .plte (3 * idx), s.read .plte (3 * idx + 1), s.read .plte (3 * idx + 2), s.indexAlpha idx⟩

theorem indexedPixel_of_lt {s : State} {d y x : Nat} (h : s.indexAt d y x < s.work.cfg.palLen) :
    s.indexedPixel d y x = .ok (s.paletteRgba (s.indexAt d y x)) := by
  unfold State.indexedPixel State.palettePixel
  rw [packedIndex_eq, if_neg (by omega)]
  rfl

theorem indexedPixel_of_ge {s : State} {d y x : Nat} (h : s.work.cfg.palLen ≤ s.indexAt d y x) :
    s.indexedPixel d y x = .error .paletteIndex := by
  unfold State.indexedPixel State.palettePixel
  rw [packedIndex_eq, if_pos h]

/-- Settles O39: every index has its palette entry. -/
theorem indexedPixels : Obligations.IndexedPixels := by
  intro s row hrow h
  rw [exec_indexed s row hrow]
  exact assembleRow_assembled (indexedPixel_ok row.2).1 s (fun x => s.paletteRgba (s.indexAt row.2 s.work.row x))
    fun k hk => indexedPixel_of_lt (h k hk)

/-- Settles O40: the indices before the first bad one have their entries. -/
theorem paletteFailure : Obligations.PaletteFailure := by
  intro s row hrow j hj hbad h
  rw [exec_indexed s row hrow]
  exact assembleRow_raised (indexedPixel_ok row.2).1 s (fun x => s.paletteRgba (s.indexAt row.2 s.work.row x)) hj
    (fun k hk => indexedPixel_of_lt (h k hk)) (indexedPixel_of_ge hbad)

/-! ### The register block (spec/10_state.md R20 to R32) -/

/-- A write reaches the register at its own offset only (R20). -/
theorem Cfg.put_other (c : Cfg) (off : Nat) (v : Word) :
    (off ≠ 0x10 → (c.put off v).inLen = c.inLen) ∧ (off ≠ 0x14 → (c.put off v).width = c.width) ∧
      (off ≠ 0x18 → (c.put off v).height = c.height) ∧ (off ≠ 0x1C → (c.put off v).imgFmt = c.imgFmt) ∧
      (off ≠ 0x20 → (c.put off v).plteLen = c.plteLen) ∧ (off ≠ 0x24 → (c.put off v).trnsCtrl = c.trnsCtrl) ∧
      (off ≠ 0x28 → (c.put off v).trnsKey = c.trnsKey) := by
  unfold Cfg.put
  split <;> simp

theorem Cfg.put_unwritable (c : Cfg) {off : Nat} (v : Word)
    (h : off ∉ [0x00, 0x10, 0x14, 0x18, 0x1C, 0x20, 0x24, 0x28]) : c.put off v = c := by
  unfold Cfg.put
  split <;> simp at h ⊢

theorem regRead_unreadable (s : State) {off : Nat}
    (h : off ∉ [0x04, 0x08, 0x0C, 0x10, 0x14, 0x18, 0x1C, 0x20, 0x24, 0x28]) : s.regRead off = 0 := by
  unfold State.regRead
  split <;> simp at h ⊢

theorem regWrite_of_not_busy {s : State} (hb : s.runState ≠ .busy) (off : Nat) (v : Word) :
    s.regWrite off v = { s with cfg := s.cfg.put off v } := if_neg hb

theorem and_twice (v a : Word) : v &&& a &&& a = v &&& a := by rw [BitVec.and_assoc, BitVec.and_self]

/-- Settles O46: register by register, the mask a write applies is the mask a read applies. -/
theorem registerFields : Obligations.RegisterFields := by
  intro s off v hb
  rw [regWrite_of_not_busy hb]
  refine ⟨?own, fun _ off' hne => ?other, fun h => ?unwritable, regRead_unreadable s⟩
  case own =>
    simp only [List.forall_mem_cons]
    refine ⟨?_, ?_, ?_, ?_, ?_, ?_, ?_, fun _ h => absurd h List.not_mem_nil⟩ <;> rintro rfl <;>
      exact and_twice v _
  case other =>
    obtain ⟨hlen, hwidth, hheight, hfmt, hplte, htrns, hkey⟩ := s.cfg.put_other off v
    unfold State.regRead
    split
    case h_4 => dsimp only; rw [hlen hne.symm]
    case h_5 => dsimp only; rw [hwidth hne.symm]
    case h_6 => dsimp only; rw [hheight hne.symm]
    case h_7 => dsimp only; rw [hfmt hne.symm]
    case h_8 => dsimp only; rw [hplte hne.symm]
    case h_9 => dsimp only; rw [htrns hne.symm]
    case h_10 => dsimp only; rw [hkey hne.symm]
    all_goals rfl
  case unwritable => rw [s.cfg.put_unwritable v h]

/-- Settles O43: every register of the reset state holds 0. -/
theorem resetValues : Obligations.ResetValues := by
  refine ⟨rfl, rfl, fun off => ?_⟩
  unfold State.regRead
  split <;> rfl

/-- Settles O44: the numbers of R22, R410 and R411. -/
theorem statusReadback : Obligations.StatusReadback := by
  intro s
  refine ⟨rfl, ?state, ?kind, ?nibble, ?cause⟩
  case state =>
    change BitVec.ofNat 32 s.runState.code = _
    cases s.runState <;> rfl
  case kind =>
    change BitVec.ofNat 32 s.errKind.code = _
    cases s.errKind <;> rfl
  case nibble =>
    intro h
    change BitVec.ofNat 32 s.errCause.code >>> 4 = BitVec.ofNat 32 s.errKind.code
    rw [h]
    cases s.errCause <;> rfl
  case cause =>
    have key : ∀ row ∈ [(Cause.none, 0x00), (.dimension, 0x10), (.colorType, 0x11), (.depth, 0x12), (.noPalette, 0x13),
        (.descriptor, 0x14), (.filterType, 0x15), (.paletteIndex, 0x16), (.zlibMethod, 0x20), (.zlibFdict, 0x21),
        (.blockType, 0x22), (.storedLen, 0x23), (.table, 0x24), (.badCode, 0x25), (.clRepeat, 0x26),
        (.badSymbol, 0x27), (.distRange, 0x28), (.outCapacity, 0x29), (.shortOutput, 0x2A), (.zlibShort, 0x30),
        (.starved, 0x31), (.inSize, 0x40), (.outSize, 0x41), (.pixSize, 0x42)],
      BitVec.ofNat 32 row.1.code = (row.2 : Word) := by decide
    rintro row hrow h
    change BitVec.ofNat 32 s.errCause.code = row.2
    rw [h]
    exact key row hrow

/-- Settles O45: the register block and START test BUSY; a CTRL write of neither command does nothing. -/
theorem busyIgnores : Obligations.BusyIgnores := by
  intro s off v rest hb hs hv
  rw [step_of_host hs]
  by_cases ho : off = 0
  · subst ho
    change (ctrlAct v { s with host := rest }).outcome = _
    rcases ctrl_cases v { s with host := rest } with ⟨h1, -⟩ | ⟨-, -, h⟩ | ⟨-, -, h⟩
    · rcases hv with hv | hv
      · exact absurd rfl hv
      · exact absurd (hv.symm.trans h1) (by decide)
    · rw [h]; exact if_pos hb
    · exact h
  · rw [hostAct_regWrite ho]
    exact congrArg Host.Outcome.next (if_pos hb)

end Sys2Proof.Machine

namespace Sys2Proof.Machine

/-! ### What each phase fetches (spec/46_commands.md R394, spec/30_encoding.md R90) -/

/-- The three bits of a block header, read in two fields (R172). -/
theorem bits_three (s : State) (i : Nat) : s.bits i 3 = s.bits i 1 + 2 * s.bits (i + 1) 2 := by
  simp only [State.bits]
  omega

theorem fetchBlock_ok {u : State} (h : u.work.bitPos + 3 ≤ u.work.endBit) :
    fetchBlock u = .ofDecode (decodeWord .blk (u.bits u.work.bitPos 3)) (advance 2 (advance 1 u)) := by
  unfold fetchBlock
  rw [readBits_ok (n := 1) (by omega), Res.bind_ok, readBits_ok (n := 2) (by simp; omega), bits_three]
  simp [Act.ofFetch]

theorem fetchBlock_starved {u : State} (h : u.work.endBit < u.work.bitPos + 3) :
    ∃ v, SameInputs u v ∧ fetchBlock u = .out (.next (raise .starved v)) := by
  unfold fetchBlock
  by_cases h1 : u.work.bitPos + 1 ≤ u.work.endBit
  · rw [readBits_ok h1, Res.bind_ok, readBits_starved (by simp; omega)]
    obtain ⟨⟨hin, -⟩, -⟩ := Touched.advance 1 u
    exact ⟨_, hin, rfl⟩
  · rw [readBits_starved (by omega)]
    exact ⟨u, .refl u, rfl⟩

section Symbol

variable {u : State} {f : Format} {table : Huff} {y l : Nat}

theorem fetchSymbol_ok (hl : table.lookup u.peekbit = some (y, l)) (h : u.work.bitPos + l ≤ u.work.endBit) :
    fetchSymbol f table u = .ofDecode (decodeWord f y) (advance l u) := by
  simp only [fetchSymbol, huffDecode, hl, consume_ok h, Res.bind_ok, Act.ofFetch]

theorem fetchSymbol_starved (hl : table.lookup u.peekbit = some (y, l)) (h : u.work.endBit < u.work.bitPos + l) :
    fetchSymbol f table u = .out (.next (raise .starved u)) := by
  simp only [fetchSymbol, huffDecode, hl, consume_starved h, Res.bind_raised, Act.ofFetch]

theorem fetchSymbol_badCode (hl : table.lookup u.peekbit = none) :
    fetchSymbol f table u = .out (.next (raise .badCode u)) := by
  simp only [fetchSymbol, huffDecode, hl, Res.bind_raised, Act.ofFetch]

end Symbol

theorem fetchBody_ll {u : State} (hm : u.work.matchLen = none) : fetchBody u = fetchSymbol .ll u.work.llt u := by
  simp only [fetchBody, hm]

theorem fetchBody_dist {u : State} (hm : u.work.matchLen ≠ none) : fetchBody u = fetchSymbol .dist u.work.dt u := by
  obtain ⟨l, hl⟩ := Option.ne_none_iff_exists'.1 hm
  simp only [fetchBody, hl]

/-- The phases that fetch a Huffman-coded symbol, and the table each uses (R178, R200). -/
theorem engineAct_symbol {u : State} (hb : u.runState = .busy) {table : Huff}
    (h : (u.phase = .dynhdr ∧ table = u.work.clt) ∨
      (u.phase = .body ∧ u.work.matchLen = none ∧ table = u.work.llt) ∨
      (u.phase = .body ∧ u.work.matchLen ≠ none ∧ table = u.work.dt)) :
    ∃ f, engineAct u = fetchSymbol f table u := by
  rcases h with ⟨hp, rfl⟩ | ⟨hp, hm, rfl⟩ | ⟨hp, hm, rfl⟩
  · exact ⟨_, engineAct_dynhdr hb hp⟩
  · exact ⟨_, (engineAct_body hb hp).trans (fetchBody_ll hm)⟩
  · exact ⟨_, (engineAct_body hb hp).trans (fetchBody_dist hm)⟩

/-- A word that decodes is run. -/
theorem ofDecode_run {r : Except DecodeError Instr} {i : Instr} (h : r = .ok i) (v : State) :
    (Act.ofDecode r v).outcome = exec i v := by rw [h]; rfl

/-- A word that is refused raises its cause. -/
theorem ofDecode_refused {r : Except DecodeError Instr} {e : DecodeError} (h : r = .error e) (v : State) :
    (Act.ofDecode r v).outcome = .next (raise (causeOf e) v) := by rw [h]; rfl

/-- Settles O10: phase by phase, the fetch's word is run. -/
theorem stepRunsElement : Obligations.StepRunsElement := by
  refine ⟨fun s u i hturn hb => ⟨fun hp h6 hd => ?zhdr, fun hp h3 hd => ?blkhdr, fun y l hp hl he hd => ?dynhdr,
    fun y l hp hm hl he hd => ?ll, fun y l hp hm hl he hd => ?dist, fun hp hd => ?row, fun hp hd => ?pix⟩,
    fun s v rest i hs hd => ?ctrl⟩
  case zhdr => rw [hturn.step, engineAct_zhdr hb hp, fetchZlib, if_neg (by omega)]; exact ofDecode_run hd u
  case blkhdr => rw [hturn.step, engineAct_blkhdr hb hp, fetchBlock_ok h3]; exact ofDecode_run hd _
  case dynhdr => rw [hturn.step, engineAct_dynhdr hb hp, fetchSymbol_ok hl he]; exact ofDecode_run hd _
  case ll => rw [hturn.step, engineAct_body hb hp, fetchBody_ll hm, fetchSymbol_ok hl he]; exact ofDecode_run hd _
  case dist => rw [hturn.step, engineAct_body hb hp, fetchBody_dist hm, fetchSymbol_ok hl he]; exact ofDecode_run hd _
  case row => rw [hturn.step, engineAct_defilter hb hp]; exact ofDecode_run hd u
  case pix => rw [hturn.step, engineAct_assemble hb hp]; exact ofDecode_run hd u
  case ctrl =>
    rw [step_of_host hs]
    change (ctrlAct v _).outcome = _
    unfold ctrlAct
    rw [hd]
    rfl

/-! ### Words that are refused (R91, R97, R98, R106) -/

/-- A format with one row refuses a word that the row does not take. -/
theorem decodeWord_refused {f : Format} {w : Nat} (hw : w < 2 ^ f.width) (h : ∀ r ∈ f.rows, w &&& r.mask ≠ r.patt) :
    decodeWord f w = .error (f.reject w) := by
  unfold decodeWord
  rw [if_pos hw, List.find?_eq_none.2 fun r hr => by simpa using h r hr]

/-- The zlib header's word: CM in the low four bits, FDICT bit 13 (R91). -/
theorem zlib_refused {w : Nat} (hw : w < 2 ^ 16) (h : w % 16 ≠ 8 ∨ w.testBit 13 = true) :
    decodeWord .zlib w = .error (if w % 16 ≠ 8 then .zlibMethod else .zlibFdict) := by
  rw [decodeWord_refused hw]
  · rfl
  · intro r hr he
    simp only [Format.rows, zlibRows, List.mem_singleton] at hr
    subst hr
    dsimp only at he
    rcases h with h | h
    · apply h
      have hlow : (w &&& 0x200f) % 2 ^ 4 = w % 2 ^ 4 := by
        rw [Nat.and_mod_two_pow]; exact Nat.and_two_pow_sub_one_of_lt_two_pow (Nat.mod_lt _ (by omega))
      rw [he] at hlow
      omega
    · have hbit : (w &&& 0x200f).testBit 13 = true := by rw [Nat.testBit_and, h]; rfl
      rw [he] at hbit
      exact absurd hbit (by decide)

/-- A byte is one of the first word's eight low bits, the next byte the eight above. -/
theorem wordOfBytes_pair (a b : Byte) : wordOfBytes [a, b] = a.toNat + 2 ^ 8 * b.toNat := by
  simp [wordOfBytes]

/-- A filter byte of 5 to 255 (R97, R349). -/
theorem row_refused {b : Byte} (h : 5 ≤ b.toNat) : decodeBytes .row [b] = .error .filterType := by
  have hw : wordOfBytes [b] = b.toNat := by simp [wordOfBytes]
  have hmask : b.toNat &&& 0xff = b.toNat := Nat.and_two_pow_sub_one_of_lt_two_pow (n := 8) b.isLt
  unfold decodeBytes
  rw [hw, decodeWord_refused (f := .row) b.isLt]
  · rfl
  · simp only [Format.rows, rowRows, List.forall_mem_cons, hmask]
    refine ⟨?_, ?_, ?_, ?_, ?_, fun _ h => absurd h List.not_mem_nil⟩ <;> omega

/-- Settles O11: fetch by fetch, the failure its phase raises. -/
theorem fetchFailures : Obligations.FetchFailures := by
  intro s u hturn hb
  rw [hturn.step]
  have raised : ∀ c, ∃ t, (.next (raise c u) : Out) = .next t ∧ Failed c u t := fun c => ⟨_, rfl, .of_raise (.refl u) c⟩
  have hlt : wordOfBytes [u.read .inp 0, u.read .inp 1] < 2 ^ 16 := by rw [wordOfBytes_pair]; omega
  have hmod : wordOfBytes [u.read .inp 0, u.read .inp 1] % 16 = (u.read .inp 0).toNat % 16 := by
    rw [wordOfBytes_pair]; omega
  refine ⟨fun hp => ⟨fun h => ?short, fun h6 hm => ?method, fun h6 hm hd => ?fdict⟩, fun hp h => ?starved,
    fun table ht => ⟨fun hl => ?badCode, fun y l hl he => ?symbol⟩, fun hp h => ?filter⟩
  case short => rw [engineAct_zhdr hb hp, fetchZlib, if_pos h]; exact raised _
  case method =>
    rw [← hmod] at hm
    have hd : decodeBytes .zlib [u.read .inp 0, u.read .inp 1] = .error .zlibMethod :=
      (zlib_refused hlt (.inl hm)).trans (by rw [if_pos hm])
    rw [engineAct_zhdr hb hp, fetchZlib, if_neg (by omega), ofDecode_refused hd]
    exact raised .zlibMethod
  case fdict =>
    rw [← hmod] at hm
    have hbit : (wordOfBytes [u.read .inp 0, u.read .inp 1]).testBit 13 = true := by
      rw [wordOfBytes_pair, Nat.add_comm, Nat.testBit_two_pow_mul_add _ (u.read .inp 0).isLt]
      simpa [BitVec.getLsbD] using hd
    have hd : decodeBytes .zlib [u.read .inp 0, u.read .inp 1] = .error .zlibFdict :=
      (zlib_refused hlt (.inr hbit)).trans (by rw [if_neg (not_not.2 hm)])
    rw [engineAct_zhdr hb hp, fetchZlib, if_neg (by omega), ofDecode_refused hd]
    exact raised .zlibFdict
  case starved =>
    obtain ⟨v, hv, e⟩ := fetchBlock_starved h
    rw [engineAct_blkhdr hb hp, e]
    exact ⟨_, rfl, .of_raise hv _⟩
  case badCode =>
    obtain ⟨f, hf⟩ := engineAct_symbol hb ht
    rw [hf, fetchSymbol_badCode hl]
    exact raised _
  case symbol =>
    obtain ⟨f, hf⟩ := engineAct_symbol hb ht
    rw [hf, fetchSymbol_starved hl he]
    exact raised _
  case filter =>
    rw [engineAct_defilter hb hp]
    exact ⟨_, ofDecode_refused (row_refused h) u, .of_raise (.refl u) _, fun _ => rfl⟩

/-- Settles O17: `initReader` changes the reader only. -/
theorem zlibHeader : Obligations.ZlibHeader := by
  intro cinfo fcheck flevel s
  refine ⟨fun h => ⟨_, if_pos h, .of_raise (.refl s) _⟩, fun h => ⟨_, if_neg (by omega), ⟨?_, ?_⟩, ?_, ?_, rfl, ?_, ?_⟩,
    fun a b c => rfl⟩
  · simp [SameInputs]
  · simp [SameStatus]
  · exact fun x => State.read_congr (by simp [State.mem]) (by simp [State.epoch]) x
  · exact fun x => State.read_congr (by simp [State.mem]) (by simp [State.epoch]) x
  · apply Work.ext <;> simp [Work.withCursor]
  · exact (WindowOk.init h).congr rfl rfl rfl rfl rfl rfl rfl

/-! ### Phase CHECK (R392) -/

/-- The eight legal words of format PIX (R98, R361). -/
theorem pix_ok : ∀ p ∈ [(0, 8), (2, 8), (3, 1), (3, 2), (3, 4), (3, 8), (4, 8), (6, 8)],
    ∃ i, decodeWord .pix (2 ^ 8 * p.1 + p.2) = .ok i := by
  simp only [List.forall_mem_cons]
  exact ⟨⟨_, rfl⟩, ⟨_, rfl⟩, ⟨_, rfl⟩, ⟨_, rfl⟩, ⟨_, rfl⟩, ⟨_, rfl⟩, ⟨_, rfl⟩, ⟨_, rfl⟩,
    fun _ h => absurd h List.not_mem_nil⟩

/-- Every other word of format PIX is refused, by its colour type first (R98). -/
theorem pix_refused {ct d : Nat} (hc : ct < 2 ^ 8) (hd : d < 2 ^ 8)
    (h : (ct, d) ∉ [(0, 8), (2, 8), (3, 1), (3, 2), (3, 4), (3, 8), (4, 8), (6, 8)]) :
    decodeWord .pix (2 ^ 8 * ct + d) = .error (if ct ∈ [0, 2, 3, 4, 6] then .depth else .colorType) := by
  have hw : 2 ^ 8 * ct + d < 2 ^ 16 := by omega
  have hmask : (2 ^ 8 * ct + d) &&& 0xffff = 2 ^ 8 * ct + d := Nat.and_two_pow_sub_one_of_lt_two_pow hw
  have hct : bitsOf (2 ^ 8 * ct + d) 8 8 = ct := by
    rw [bitsOf, Nat.shiftRight_eq_div_pow]; omega
  rw [decodeWord_refused (f := .pix) hw]
  · rw [Format.reject, hct]
  · simp only [List.mem_cons, List.not_mem_nil, Prod.mk.injEq, or_false, not_or] at h
    simp only [Format.rows, pixRows, List.forall_mem_cons, hmask]
    refine ⟨?_, ?_, ?_, ?_, ?_, ?_, ?_, ?_, fun _ h => absurd h List.not_mem_nil⟩ <;> omega

theorem Cfg.pixWord_eq (c : Cfg) : c.pixWord = 2 ^ 8 * c.ctype + c.depth := by
  simp only [Cfg.pixWord, Cfg.ctype, Cfg.depth, BitVec.extractLsb'_toNat, Nat.shiftRight_eq_div_pow]
  omega

/-- The bits of a pixel by colour type (R360), as the statement writes them. -/
theorem bitsPerPixel_eq (ct d : Nat) :
    bitsPerPixel ct d = if ct = 2 then 3 * d else if ct = 4 then 2 * d else if ct = 6 then 4 * d else d := by
  unfold bitsPerPixel
  split
  · rfl
  · rfl
  · rfl
  · next h2 h4 h6 => rw [if_neg h2, if_neg h4, if_neg h6]

/-- What CHECK computes is the geometry of R340 and R360. -/
theorem setGeometry_work (u : State) : (setGeometry u).work = { u.work with
    cfg := u.cfg
    bitsPP := bitsPerPixel u.cfg.ctype u.cfg.depth
    rowBytes := (u.cfg.width.toNat * bitsPerPixel u.cfg.ctype u.cfg.depth + 7) / 8
    bpp := max 1 ((bitsPerPixel u.cfg.ctype u.cfg.depth + 7) / 8)
    cap := u.cfg.height.toNat * (1 + (u.cfg.width.toNat * bitsPerPixel u.cfg.ctype u.cfg.depth + 7) / 8) } := rfl

/-- One test of the model and one of the statement, of the same condition. -/
theorem tests_agree {p q : Prop} [Decidable p] [Decidable q] {o o' : Out} {P P' : State → Prop} (hpq : p ↔ q)
    (hpos : q → ∃ t, o = .next t ∧ P t) (hneg : ¬q → ∃ t, o' = .next t ∧ P' t) :
    ∃ t, (if p then o else o') = .next t ∧ if q then P t else P' t := by
  by_cases hq : q
  · simpa only [if_pos hq, if_pos (hpq.2 hq)] using hpos hq
  · simpa only [if_neg hq, if_neg (mt hpq.1 hq)] using hneg hq

/-- Settles O48: the statement's tests are the model's, one after another; the third and the fourth are the decoding of
IMG_FMT's word. -/
theorem checkOrder : Obligations.CheckOrder := by
  intro s u hturn hb hp
  dsimp only
  rw [hturn.step, engine_check hb hp, ← bitsPerPixel_eq]
  unfold checkPhase
  have zero : ∀ w : Word, w = 0 ↔ w.toNat = 0 := fun w => BitVec.toNat_eq
  have failed : ∀ (c : Cause) (v : State), SameInputs u v → ∃ t, (.next (raise c v) : Out) = .next t ∧ Failed c u t :=
    fun c v hv => ⟨_, rfl, .of_raise hv c⟩
  refine tests_agree Iff.rfl (fun _ => failed _ u (.refl u)) fun _ => ?_
  refine tests_agree (or_congr (zero _) (zero _)) (fun _ => failed _ u (.refl u)) fun _ => ?_
  have hct : u.cfg.ctype < 2 ^ 8 := (u.cfg.imgFmt.extractLsb' 8 8).isLt
  have hd : u.cfg.depth < 2 ^ 8 := (u.cfg.imgFmt.extractLsb' 0 8).isLt
  rw [u.cfg.pixWord_eq]
  by_cases hlegal : (u.cfg.ctype, u.cfg.depth) ∈ [(0, 8), (2, 8), (3, 1), (3, 2), (3, 4), (3, 8), (4, 8), (6, 8)]
  case neg =>
    rw [pix_refused hct hd hlegal]
    by_cases hcol : u.cfg.ctype ∈ [0, 2, 3, 4, 6]
    · simp only [if_pos hcol, if_neg (not_not.2 hcol), if_pos hlegal]
      exact failed .depth u (.refl u)
    · simp only [if_neg hcol, if_pos hcol]
      exact failed .colorType u (.refl u)
  have hcol : u.cfg.ctype ∈ [0, 2, 3, 4, 6] := by
    have key : ∀ p ∈ [(0, 8), (2, 8), (3, 1), (3, 2), (3, 4), (3, 8), (4, 8), (6, 8)], p.1 ∈ [0, 2, 3, 4, 6] := by
      decide
    exact key _ hlegal
  obtain ⟨i, hdec⟩ := pix_ok _ hlegal
  rw [hdec]
  simp only [if_neg (not_not.2 hcol), if_neg (not_not.2 hlegal)]
  refine tests_agree Iff.rfl (fun _ => failed _ u (.refl u)) fun _ => ?_
  refine tests_agree Iff.rfl (fun _ => failed _ u (.refl u)) fun _ => ?_
  refine tests_agree Iff.rfl (fun _ => failed _ (setGeometry u) (.refl u)) fun _ => ?_
  refine tests_agree Iff.rfl (fun _ => failed _ (setGeometry u) (.refl u)) fun _ => ?_
  exact ⟨_, rfl, ⟨.refl u, rfl, rfl, rfl⟩, fun _ => rfl, fun _ => rfl, rfl, setGeometry_work u⟩

end Sys2Proof.Machine

namespace Sys2Proof

open Machine

/-! ### Rows of the opcode table (spec/30_encoding.md R91 to R99, R105, R106) -/

/-- What decodes fits its format and comes from a row that takes the word. -/
theorem exists_row_of_decode {f : Format} {w : Nat} {i : Instr} (h : decodeWord f w = .ok i) :
    w < 2 ^ f.width ∧ ∃ r ∈ f.rows, w &&& r.mask = r.patt ∧ i = r.make w := by
  unfold decodeWord at h
  split at h
  case isFalse => cases h
  case isTrue hw =>
    split at h
    case h_2 => cases h
    case h_1 r hr =>
      cases h
      exact ⟨hw, r, List.mem_of_find?_eq_some hr, by simpa using List.find?_some hr, rfl⟩

/-- A word that some row of its format takes is an element. -/
theorem exists_decode_of_row {f : Format} {w : Nat} (hw : w < 2 ^ f.width) (h : ∃ r ∈ f.rows, w &&& r.mask = r.patt) :
    ∃ i, decodeWord f w = .ok i := by
  cases hd : decodeWord f w with
  | ok i => exact ⟨i, rfl⟩
  | error e =>
    obtain ⟨r, hr, hm⟩ := h
    unfold decodeWord at hd
    rw [if_pos hw] at hd
    split at hd
    case h_1 => cases hd
    case h_2 hnone => exact absurd hm (by simpa using List.find?_eq_none.1 hnone r hr)

/-- A word that the first row of its format takes is that row's element. -/
theorem decodeWord_first {f : Format} {w : Nat} {r : OpRow} {rs : List OpRow} (hrows : f.rows = r :: rs)
    (hw : w < 2 ^ f.width) (h : w &&& r.mask = r.patt) : decodeWord f w = .ok (r.make w) := by
  rw [decodeWord, if_pos hw, hrows, List.find?_cons_of_pos (by exact beq_iff_eq.2 h)]

/-- Every word of the format that the row takes is the encoding of the row's element, which is well-formed; the bits a
CTRL write ignores (R99, R106) are not in its encoding. -/
def OpRow.Sound (f : Format) (r : OpRow) : Prop :=
  ∀ w, w < 2 ^ f.width → w &&& r.mask = r.patt →
    (r.make w).wellFormed = true ∧ (f ≠ .ctrl → encode (r.make w) = w)

/-- A row whose mask has every bit of the word takes one word only. -/
def OpRow.TakesOneWord (f : Format) (r : OpRow) : Prop :=
  r.mask = 2 ^ f.width - 1 ∧ (r.make r.patt).wellFormed = true ∧ encode (r.make r.patt) = r.patt

theorem OpRow.TakesOneWord.sound {f : Format} {r : OpRow} (h : r.TakesOneWord f) : r.Sound f := by
  obtain ⟨hmask, hwf, henc⟩ := h
  intro w hw hm
  have hword : w = r.patt := by rw [← hm, hmask, Nat.and_two_pow_sub_one_of_lt_two_pow hw]
  rw [hword]
  exact ⟨hwf, fun _ => henc⟩

/-- A mask of the top bit alone takes the words below it. -/
theorem and_two_pow_eq_zero_iff {n w : Nat} (hw : w < 2 ^ (n + 1)) : w &&& 2 ^ n = 0 ↔ w < 2 ^ n := by
  have htop : w / 2 ^ n < 2 := Nat.div_lt_of_lt_mul (by rwa [← Nat.pow_succ])
  rw [Nat.and_two_pow, Nat.toNat_testBit, Nat.mod_eq_of_lt htop, Nat.mul_eq_zero, Nat.div_eq_zero_iff]
  simp

/-- The one row of format ZLIB: CM is the low four bits, FDICT bit 13 (R91). -/
theorem and_zlibMask_eq_iff (w : Nat) : w &&& 0x200f = 8 ↔ w % 16 = 8 ∧ w.testBit 13 = false := by
  have hsum : w &&& 0x200f = 2 ^ 13 * (w.testBit 13).toNat + w % 2 ^ 4 := by
    rw [show 0x200f = 2 ^ 13 ||| (2 ^ 4 - 1) from rfl, Nat.and_or_distrib_left, Nat.and_two_pow,
      Nat.and_two_pow_sub_one_eq_mod, Nat.mul_comm, ← Nat.two_pow_add_eq_or_of_lt (by omega)]
  rw [hsum]
  cases w.testBit 13 with
  | false => simp
  | true => simp; omega

/-- A header of method 8 with no dictionary is ZLIB_HDR with its three fields (R91). -/
theorem decode_zlib {w : Nat} (hw : w < 2 ^ 16) (hcm : w % 16 = 8) (hfdict : w.testBit 13 = false) :
    decodeWord .zlib w = .ok (.zlibHdr (w / 2 ^ 4 % 2 ^ 4) (w / 2 ^ 8 % 2 ^ 5) (w / 2 ^ 14)) := by
  have htop : w / 2 ^ 14 % 2 ^ 2 = w / 2 ^ 14 := Nat.mod_eq_of_lt (by omega)
  rw [decodeWord_first (f := .zlib) rfl hw ((and_zlibMask_eq_iff w).2 ⟨hcm, hfdict⟩)]
  simp only [bitsOf, Nat.shiftRight_eq_div_pow, htop]

theorem bitsOf_zero_of_lt {w n : Nat} (h : w < 2 ^ n) : bitsOf w 0 n = w := Nat.mod_eq_of_lt h

/-- A code-length symbol below 16 is a length (R95). -/
theorem decode_clLen {w : Nat} (hw : w < 2 ^ 4) : decodeWord .clsym w = .ok (.clLen w) := by
  have hmask : w &&& 2 ^ 4 = 0 := (and_two_pow_eq_zero_iff (by omega)).2 hw
  rw [decodeWord_first (f := .clsym) rfl (by simp only [Format.width]; omega) hmask]
  exact congrArg (Except.ok ∘ Instr.clLen) (bitsOf_zero_of_lt hw)

/-- A CTRL write is RESET if bit 1 is set, else START if bit 0 is set, else no command (R99, R390). -/
theorem decode_ctrl {w : Nat} (hw : w < 2 ^ 32) :
    decodeWord .ctrl w =
      if w.testBit 1 = true then .ok .reset else if w.testBit 0 = true then .ok .start else .error .noCommand := by
  have hlow : w &&& 3 = w % 4 := Nat.and_two_pow_sub_one_eq_mod w 2
  have hbit : w &&& 2 = (w.testBit 1).toNat * 2 := Nat.and_two_pow w 1
  have hmod : w % 4 = 2 * (w.testBit 1).toNat + (w.testBit 0).toNat := by
    rw [Nat.toNat_testBit, Nat.toNat_testBit]; omega
  rw [decodeWord, if_pos (show w < 2 ^ Format.ctrl.width from hw)]
  simp only [Format.rows, ctrlRows, List.find?_cons, List.find?_nil, hlow, hbit, hmod]
  cases w.testBit 1 <;> cases w.testBit 0 <;> rfl

theorem zlibRows_sound : ∀ r ∈ zlibRows, r.Sound .zlib := by
  simp only [zlibRows, List.forall_mem_singleton]
  intro w hw hm
  have hw : w < 2 ^ 16 := hw
  obtain ⟨hcm, hfdict⟩ := (and_zlibMask_eq_iff w).1 hm
  have hbit : w / 2 ^ 13 % 2 = 0 := by rw [← Nat.toNat_testBit, hfdict]; rfl
  simp only [Instr.wellFormed, encode, bitsOf, Nat.shiftRight_eq_div_pow, Bool.and_eq_true, decide_eq_true_eq]
  omega

theorem blkRows_sound : ∀ r ∈ blkRows, r.Sound .blk := by
  have key : ∀ r ∈ blkRows, ∀ w : Fin 8, w.val &&& r.mask = r.patt →
      (r.make w).wellFormed = true ∧ encode (r.make w) = w := by decide
  intro r hr w hw hm
  obtain ⟨hwf, henc⟩ := key r hr ⟨w, hw⟩ hm
  exact ⟨hwf, fun _ => henc⟩

theorem clsymRows_sound : ∀ r ∈ clsymRows, r.Sound .clsym := by
  have fixed : ∀ r ∈ clsymRows.tail, r.TakesOneWord .clsym := by unfold OpRow.TakesOneWord; decide
  refine List.forall_mem_cons.2 ⟨fun w hw hm => ?length, fun r hr => (fixed r hr).sound⟩
  have hlt : w < 16 := (and_two_pow_eq_zero_iff hw).1 hm
  have hbits : bitsOf w 0 4 = w := bitsOf_zero_of_lt hlt
  exact ⟨decide_eq_true (hbits.symm ▸ hlt), fun _ => hbits⟩

theorem llRows_sound : ∀ r ∈ llRows, r.Sound .ll := by
  have fixed : ∀ r ∈ llRows.tail, r.TakesOneWord .ll := by unfold OpRow.TakesOneWord; decide
  refine List.forall_mem_cons.2 ⟨fun w hw hm => ?literal, fun r hr => (fixed r hr).sound⟩
  have hlt : w < 256 := (and_two_pow_eq_zero_iff hw).1 hm
  exact ⟨rfl, fun _ => Nat.mod_eq_of_lt hlt⟩

theorem ctrlRows_sound : ∀ r ∈ ctrlRows, r.Sound .ctrl := by
  simp only [ctrlRows, List.forall_mem_cons]
  exact ⟨fun _ _ _ => ⟨rfl, fun h => absurd rfl h⟩, fun _ _ _ => ⟨rfl, fun h => absurd rfl h⟩,
    fun _ h => absurd h List.not_mem_nil⟩

/-- Every row of the table reads its operands off the word as `encode` writes them. -/
theorem rows_sound (f : Format) : ∀ r ∈ f.rows, r.Sound f := by
  cases f with
  | zlib => exact zlibRows_sound
  | blk => exact blkRows_sound
  | clsym => exact clsymRows_sound
  | ll => exact llRows_sound
  | dist =>
    have fixed : ∀ r ∈ distRows, r.TakesOneWord .dist := by unfold OpRow.TakesOneWord; decide
    exact fun r hr => (fixed r hr).sound
  | row =>
    have fixed : ∀ r ∈ rowRows, r.TakesOneWord .row := by unfold OpRow.TakesOneWord; decide
    exact fun r hr => (fixed r hr).sound
  | pix =>
    have fixed : ∀ r ∈ pixRows, r.TakesOneWord .pix := by unfold OpRow.TakesOneWord; decide
    exact fun r hr => (fixed r hr).sound
  | ctrl => exact ctrlRows_sound

/-- Settles O3: what decodes comes from a row, and every row is sound. -/
theorem encodeDecode : Obligations.EncodeDecode := by
  intro f w i h
  obtain ⟨hw, r, hr, hm, rfl⟩ := exists_row_of_decode h
  obtain ⟨hwf, henc⟩ := rows_sound f r hr w hw hm
  exact ⟨hwf, format_of_decode h, henc⟩

/-! ### From an element to its word and back (R105) -/

theorem decode_encode_zlibHdr {cinfo fcheck flevel : Nat} (h : (Instr.zlibHdr cinfo fcheck flevel).wellFormed = true) :
    decodeWord .zlib (encode (.zlibHdr cinfo fcheck flevel)) = .ok (.zlibHdr cinfo fcheck flevel) := by
  simp only [Instr.wellFormed, Bool.and_eq_true, decide_eq_true_eq] at h
  obtain ⟨⟨hcinfo, hfcheck⟩, hflevel⟩ := h
  have hfdict : (encode (.zlibHdr cinfo fcheck flevel)).testBit 13 = false := by
    rw [Nat.testBit_eq_decide_div_mod_eq, decide_eq_false_iff_not]
    simp only [encode]
    omega
  rw [decode_zlib (by simp only [encode]; omega) (by simp only [encode]; omega) hfdict]
  congr 2 <;> simp only [encode] <;> omega

/-- The word of a well-formed element decodes to it; an element without operands has one word, which the table gives. -/
theorem decodeWord_encode (i : Instr) (h : i.wellFormed = true) : decodeWord i.format (encode i) = .ok i := by
  cases i with
  | zlibHdr cinfo fcheck flevel => exact decode_encode_zlibHdr h
  | clLen len => exact decode_clLen (of_decide_eq_true h)
  | lit byte => rw [Instr.format, encode, decode_lit byte.isLt, BitVec.ofNat_toNat, BitVec.setWidth_eq]
  | blkStored final | blkFixed final | blkDynamic final | blkReserved final => cases final <;> rfl
  | _ => rfl

/-- Bytes of a word, put together again, are the word. -/
theorem wordOfBytes_bytesOfWord {n w : Nat} (h : w < 2 ^ (8 * n)) : wordOfBytes (bytesOfWord n w) = w := by
  induction n generalizing w with
  | zero =>
    have hzero : w = 0 := by simpa using h
    exact hzero.symm
  | succ n ih =>
    have hhigh : w / 2 ^ 8 < 2 ^ (8 * n) := by
      rw [Nat.div_lt_iff_lt_mul (by omega), ← Nat.pow_add]; exact h
    rw [bytesOfWord, wordOfBytes, ih hhigh, BitVec.toNat_ofNat]
    omega

/-- The bytes of a well-formed element's word decode to it. -/
theorem decodeBytes_encode (i : Instr) (h : i.wellFormed = true) :
    decodeBytes i.format (bytesOfWord ((i.format.width + 7) / 8) (encode i)) = .ok i := by
  obtain ⟨hw, -⟩ := exists_row_of_decode (decodeWord_encode i h)
  have hbytes : encode i < 2 ^ (8 * ((i.format.width + 7) / 8)) :=
    Nat.lt_of_lt_of_le hw (Nat.pow_le_pow_right (by omega) (by omega))
  rw [decodeBytes, wordOfBytes_bytesOfWord hbytes]
  exact decodeWord_encode i h

/-- Settles O2: the word and its bytes, element by element. -/
theorem decodeEncode : Obligations.DecodeEncode :=
  fun i h => ⟨decodeWord_encode i h, decodeBytes_encode i h⟩

/-- Settles O1: each of the words is its element's encoding, but for the CTRL write, whose bit 0 RESET ignores. -/
theorem tableWordsDecode : Obligations.TableWordsDecode :=
  ⟨decodeBytes_encode (.zlibHdr 7 1 0) rfl, decodeWord_encode (.blkFixed true) rfl, decodeWord_encode .clZero18 rfl,
    decodeWord_encode (.lit 0x61) rfl, decodeWord_encode .len285 rfl, decodeWord_encode .dist29 rfl,
    decodeBytes_encode .filtPaeth rfl, decodeBytes_encode .pixRgb8 rfl, decode_ctrl (by decide)⟩

/-! ### The words of each format (R106) -/

theorem decode_blk {w : Nat} (hw : w < 2 ^ 3) : ∃ i, decodeWord .blk w = .ok i := by
  have key : ∀ w : Fin 8, ∃ r ∈ blkRows, w.val &&& r.mask = r.patt := by decide
  exact exists_decode_of_row hw (key ⟨w, hw⟩)

theorem decode_row {w : Nat} (hw : w < 5) : ∃ i, decodeWord .row w = .ok i := by
  have key : ∀ w : Fin 5, ∃ r ∈ rowRows, w.val &&& r.mask = r.patt := by decide
  exact exists_decode_of_row (by simp only [Format.width]; omega) (key ⟨w, hw⟩)

/-- `row_refused`, of a word. -/
theorem rowWord_refused {w : Nat} (hw : w < 2 ^ 8) (h : 5 ≤ w) : decodeWord .row w = .error .filterType := by
  have hbyte : (BitVec.ofNat 8 w).toNat = w := Nat.mod_eq_of_lt hw
  have hword : wordOfBytes [BitVec.ofNat 8 w] = w := by simp only [wordOfBytes, hbyte]; omega
  have href : decodeBytes .row [BitVec.ofNat 8 w] = .error .filterType := row_refused (by rw [hbyte]; exact h)
  rwa [decodeBytes, hword] at href

/-- Settles O4: format by format, what the decoder answers to each word. -/
theorem wordsRefused : Obligations.WordsRefused := by
  refine ⟨fun w hw => ⟨fun hcm => ?method, fun hcm hd => ?fdict, decode_zlib hw⟩, fun w => decode_blk,
    fun w hw => ⟨decode_row, rowWord_refused hw⟩,
    fun ct d hct hd => ⟨fun hcol => ?colorType, fun hcol hpair => ?depth, pix_ok (ct, d)⟩,
    fun w hw => ⟨fun h1 => ?reset, fun h1 h0 => ?start, fun h1 h0 => ?none⟩⟩
  case method => rw [zlib_refused hw (.inl hcm), if_pos hcm]
  case fdict => rw [zlib_refused hw (.inr hd), if_neg (not_not.2 hcm)]
  case colorType =>
    have legal : ∀ p ∈ [(0, 8), (2, 8), (3, 1), (3, 2), (3, 4), (3, 8), (4, 8), (6, 8)], p.1 ∈ [0, 2, 3, 4, 6] := by
      decide
    rw [pix_refused hct hd fun hp => hcol (legal _ hp), if_neg hcol]
  case depth => rw [pix_refused hct hd hpair, if_pos hcol]
  case reset => rw [decode_ctrl hw, if_pos h1]
  case start => rw [decode_ctrl hw, if_neg (by simp [h1]), if_pos h0]
  case none => rw [decode_ctrl hw, if_neg (by simp [h1]), if_neg (by simp [h0])]

end Sys2Proof

namespace Sys2Proof.Machine

/-! ### Codes of an accepted set (spec/41_huffman.md R151, R153, R154) -/

section Accepted

variable {lens : List Nat} {t : Huff}

theorem Huff.count_getD (h : Huff.build lens lens.length = some t) {l : Nat} (h1 : 1 ≤ l) (h15 : l ≤ 15) :
    t.count.getD l 0 = lens.count l := by
  obtain ⟨-, rfl⟩ := Huff.build_eq_some.1 h
  rw [List.take_length]
  exact countLens_getD lens h1 h15

theorem Huff.first_getD (h : Huff.build lens lens.length = some t) {l : Nat} (h15 : l ≤ 15) :
    t.first.getD l 0 = firstCode (countLens lens) l := by
  obtain ⟨-, rfl⟩ := Huff.build_eq_some.1 h
  rw [List.take_length]
  exact getD_map_range _ (by omega) 0

theorem Huff.base_getD (h : Huff.build lens lens.length = some t) {l : Nat} (h15 : l ≤ 15) :
    t.base.getD l 0 = baseIndex (countLens lens) l := by
  obtain ⟨-, rfl⟩ := Huff.build_eq_some.1 h
  rw [List.take_length]
  exact getD_map_range _ (by omega) 0

theorem Huff.sym_eq (h : Huff.build lens lens.length = some t) : t.sym = sortedSyms lens := by
  obtain ⟨-, rfl⟩ := Huff.build_eq_some.1 h
  rw [List.take_length]

theorem kraft_le (h : Huff.build lens lens.length = some t) : kraft lens ≤ 2 ^ 15 := by
  obtain ⟨hk, -⟩ := Huff.build_eq_some.1 h
  rwa [List.take_length] at hk

/-- The range test of R153 in the recurrences of R151. -/
theorem Huff.hit_iff (h : Huff.build lens lens.length = some t) {l : Nat} (h1 : 1 ≤ l) (h15 : l ≤ 15) (c : Nat) :
    t.hit l c = true ↔
      firstCode (countLens lens) l ≤ c ∧ c < firstCode (countLens lens) l + (countLens lens).getD l 0 := by
  rw [countLens_getD lens h1 h15]
  simp only [Huff.hit, Huff.count_getD h h1 h15, Huff.first_getD h h15, Bool.and_eq_true, decide_eq_true_eq]
  omega

/-- No code is the beginning of a longer one: the codes of a length, continued to any greater length, end before the
first code there (R154). -/
theorem Huff.not_hit_of_hit (h : Huff.build lens lens.length = some t) {peek : Nat → Bool} {l m : Nat} (h1 : 1 ≤ l)
    (hlm : l < m) (h15 : m ≤ 15) (hl : t.hit l (candidate peek l) = true) : t.hit m (candidate peek m) ≠ true := by
  intro hm
  obtain ⟨k, rfl⟩ : ∃ k, m = l + (k + 1) := ⟨m - l - 1, by omega⟩
  obtain ⟨-, hend⟩ := (Huff.hit_iff h h1 (by omega) _).1 hl
  obtain ⟨hfirst, -⟩ := (Huff.hit_iff h (by omega) h15 _).1 hm
  rw [← candidate_div peek l (k + 1), Nat.div_lt_iff_lt_mul (Nat.two_pow_pos _)] at hend
  have hnext := codeEnd_le_first (countLens lens) l k
  omega

/-- At most one length satisfies the range test (R154). -/
theorem Huff.hit_unique (h : Huff.build lens lens.length = some t) {peek : Nat → Bool} {l m : Nat} (hl1 : 1 ≤ l)
    (hl15 : l ≤ 15) (hm1 : 1 ≤ m) (hm15 : m ≤ 15) (hl : t.hit l (candidate peek l) = true)
    (hm : t.hit m (candidate peek m) = true) : l = m := by
  rcases Nat.lt_trichotomy l m with hlt | heq | hgt
  · exact absurd hm (Huff.not_hit_of_hit h hl1 hlt hm15 hl)
  · exact heq
  · exact absurd hl (Huff.not_hit_of_hit h hm1 hgt hl15 hm)

/-- A length whose range takes the candidate is the one the search finds (R153). -/
theorem Huff.lookup_of_hit (h : Huff.build lens lens.length = some t) {peek : Nat → Bool} {l : Nat} (h1 : 1 ≤ l)
    (h15 : l ≤ 15) (hl : t.hit l (candidate peek l) = true) :
    t.lookup peek = some (t.sym.getD (t.base.getD l 0 + candidate peek l - t.first.getD l 0) 0, l) := by
  have hsearch : t.lookup peek = t.search peek 15 0 (candidate peek 0) := rfl
  rw [hsearch]
  rcases t.search_cases peek 15 0 with ⟨m, hm1, hm15, hm, -, hfound⟩ | ⟨hnone, -⟩
  · obtain rfl := Huff.hit_unique h h1 h15 hm1 (by omega) hl hm
    exact hfound
  · exact absurd hl (by simp [hnone l (by omega) (by omega)])

variable {y l : Nat}

/-- The rank of a used symbol is below the number of symbols of its length. -/
theorem rank_lt_count (hy : lens[y]? = some l) : (lens.take y).count l < lens.count l := by
  rw [← symsOfLen_length lens]
  exact (List.getElem?_eq_some_iff.1 (symsOfLen_getElem? lens l y hy)).1

theorem Huff.codeVal_eq (h : Huff.build lens lens.length = some t) (hy : lens[y]? = some l) (h15 : l ≤ 15) :
    t.codeVal lens y = firstCode (countLens lens) l + (lens.take y).count l := by
  have hlen : lens.getD y 0 = l := by rw [List.getD_eq_getElem?_getD, hy, Option.getD_some]
  rw [Huff.codeVal, hlen, Huff.first_getD h h15]

/-- A used symbol's code fits its length. -/
theorem Huff.codeVal_lt (h : Huff.build lens lens.length = some t) (hy : lens[y]? = some l) (h1 : 1 ≤ l)
    (h15 : l ≤ 15) : t.codeVal lens y < 2 ^ l := by
  have hend := codeEnd_le (countLens lens) (by rw [codeEnd_eq_kraft]; exact kraft_le h) h15
  have hrank := rank_lt_count hy
  rw [countLens_getD lens h1 h15] at hend
  rw [Huff.codeVal_eq h hy h15]
  omega

/-- A look-ahead that begins with a used symbol's code decodes to the symbol, with its length (R153). -/
theorem Huff.lookup_of_startsWith (h : Huff.build lens lens.length = some t) (hy : lens[y]? = some l) (h1 : 1 ≤ l)
    (h15 : l ≤ 15) {peek : Nat → Bool} (hs : StartsWith peek (t.codeVal lens y) l) : t.lookup peek = some (y, l) := by
  have hrank := rank_lt_count hy
  have hcand : candidate peek l = firstCode (countLens lens) l + (lens.take y).count l := by
    rw [(startsWith_iff peek (Huff.codeVal_lt h hy h1 h15)).1 hs, Huff.codeVal_eq h hy h15]
  have hhit : t.hit l (candidate peek l) = true := by
    rw [Huff.hit_iff h h1 h15, hcand, countLens_getD lens h1 h15]
    omega
  have hplace : t.base.getD l 0 + candidate peek l - t.first.getD l 0 =
      baseIndex (countLens lens) l + (lens.take y).count l := by
    rw [Huff.base_getD h h15, Huff.first_getD h h15, hcand]
    omega
  rw [Huff.lookup_of_hit h h1 h15 hhit, hplace, Huff.sym_eq h, List.getD_eq_getElem?_getD,
    sortedSyms_getElem? lens h1 h15 hrank, symsOfLen_getElem? lens l y hy, Option.getD_some]

/-- A run of equal code lengths gives its symbols consecutive codes, so that each is found by its place in the run. -/
theorem Huff.lookup_of_run (h : Huff.build lens lens.length = some t) {before after : List Nat} {n start code : Nat}
    (hlens : lens = before ++ (List.replicate n l ++ after)) (hstart : before.length = start)
    (hcode : firstCode (countLens lens) l + before.count l = code) (h1 : 1 ≤ l) (h15 : l ≤ 15) (hy : start ≤ y)
    (hyn : y < start + n) {peek : Nat → Bool} (hs : StartsWith peek (code + (y - start)) l) :
    t.lookup peek = some (y, l) := by
  obtain ⟨k, rfl⟩ := Nat.exists_eq_add_of_le hy
  subst hstart
  have hk : k < n := by omega
  have hlen : lens[before.length + k]? = some l := by
    rw [hlens, List.getElem?_append_right (by omega), List.getElem?_append_left (by simpa using hk),
      List.getElem?_replicate, if_pos (by omega)]
  have hrank : (lens.take (before.length + k)).count l = before.count l + k := by
    rw [hlens, List.take_length_add_append, List.count_append, List.take_append_of_le_length (by simpa using hk.le),
      List.take_replicate, List.count_replicate_self, Nat.min_eq_left hk.le]
  refine Huff.lookup_of_startsWith h hlen h1 h15 ?_
  rw [Nat.add_sub_cancel_left] at hs
  rwa [Huff.codeVal_eq h hlen h15, hrank, ← Nat.add_assoc, hcode]

end Accepted

/-! ### The codes of a fixed block (R104, R156, R157) -/

theorem build_fixLL : Huff.build fixLL fixLL.length = some fixedLlt := by
  have hlength : fixLL.length = 288 := by simp only [fixLL, List.length_append, List.length_replicate]
  rw [hlength]
  exact fixed_tables.1

theorem build_fixD : Huff.build fixD fixD.length = some fixedDt := by
  have hlength : fixD.length = 32 := List.length_replicate
  rw [hlength]
  exact fixed_tables.2

/-- Settles O9: FIXLL is four runs of equal lengths and FIXD is one, and the codes of a run are consecutive. -/
theorem fixedCodes : Obligations.FixedCodes := by
  obtain ⟨hll, hd⟩ := fixed_tables
  refine ⟨hll, hd, fun peek => ⟨fun y hy hs => ?short8, fun y hy1 hy2 hs => ?nine, fun y hy1 hy2 hs => ?seven,
    fun y hy1 hy2 hs => ?long8, fun d hd31 hs => ?five⟩⟩
  case short8 =>
    have hrun : fixLL = [] ++ (List.replicate 144 8 ++
        (List.replicate 112 9 ++ (List.replicate 24 7 ++ List.replicate 8 8))) := by
      simp only [fixLL, List.append_assoc, List.nil_append]
    exact Huff.lookup_of_run build_fixLL hrun rfl (code := 48) (by decide +kernel) (by omega) (by omega)
      (Nat.zero_le y) (by omega) hs
  case nine =>
    have hrun : fixLL = List.replicate 144 8 ++ (List.replicate 112 9 ++
        (List.replicate 24 7 ++ List.replicate 8 8)) := by simp only [fixLL, List.append_assoc]
    exact Huff.lookup_of_run build_fixLL hrun List.length_replicate (code := 400) (by decide +kernel) (by omega)
      (by omega) hy1 (by omega) hs
  case seven =>
    have hrun : fixLL = (List.replicate 144 8 ++ List.replicate 112 9) ++
        (List.replicate 24 7 ++ List.replicate 8 8) := by simp only [fixLL, List.append_assoc]
    rw [← Nat.zero_add (y - 256)] at hs
    exact Huff.lookup_of_run build_fixLL hrun (by rw [List.length_append, List.length_replicate, List.length_replicate])
      (by decide +kernel) (by omega) (by omega) hy1 (by omega) hs
  case long8 =>
    have hrun : fixLL = (List.replicate 144 8 ++ List.replicate 112 9 ++ List.replicate 24 7) ++
        (List.replicate 8 8 ++ []) := by simp only [fixLL, List.append_assoc, List.append_nil]
    exact Huff.lookup_of_run build_fixLL hrun (by simp only [List.length_append, List.length_replicate]) (code := 192)
      (by decide +kernel) (by omega) (by omega) hy1 (by omega) hs
  case five =>
    have hrun : fixD = [] ++ (List.replicate 32 5 ++ []) := by rw [List.append_nil, List.nil_append, fixD]
    rw [← Nat.zero_add d] at hs
    exact Huff.lookup_of_run build_fixD hrun rfl (by decide +kernel) (by omega) (by omega) (Nat.zero_le d) (by omega) hs

end Sys2Proof.Machine

namespace Sys2Proof.Machine

/-! ### The bit window against the cursor (spec/40_bitreader.md R131 to R136, spec/10_state.md R37) -/

/-- The byte boundary at or after the cursor is inside the stream: the window ends on one (R134). -/
theorem WindowOk.align_le {s : State} (h : WindowOk s) : 8 * ((s.work.bitPos + 7) / 8) ≤ s.work.endBit := by
  obtain ⟨hend, -, -, hin, -, -⟩ := h
  omega

/-- A bit the window holds is the look-ahead there (R133). -/
theorem WindowOk.getLsbD_acc {s : State} (h : WindowOk s) {k : Nat} (hk : k < s.work.nbits) :
    s.work.acc.getLsbD k = s.peekbit k := by
  obtain ⟨-, hacc, -, -, -, -⟩ := h
  rw [hacc, decide_eq_true hk, Bool.true_and, State.peekbit]

/-- Past its fill the window is 0, as the look-ahead past END_BIT is (R133, R136). -/
theorem WindowOk.peekbit_eq {s : State} (h : WindowOk s) {k : Nat} (hk : k < 16) :
    s.peekbit k = s.work.acc.getLsbD k := by
  rcases Nat.lt_or_ge k s.work.nbits with hheld | hpast
  · exact (h.getLsbD_acc hheld).symm
  · have hend : s.work.endBit ≤ s.work.bitPos + k :=
      Nat.le_of_lt_succ ((h.nbits_lt_iff (n := k + 1) hk).1 (Nat.lt_succ_of_le hpast))
    obtain ⟨-, hacc, -, -, -, -⟩ := h
    rw [State.peekbit, hacc, State.sbit_of_endBit_le hend, Bool.and_false]

/-- The low bits of the window are the next field (R131, R136). -/
theorem WindowOk.bits_eq {s : State} (h : WindowOk s) {n : Nat} (hn : n ≤ s.work.nbits) :
    s.bits s.work.bitPos n = (s.work.acc.extractLsb' 0 n).toNat := by
  refine Nat.eq_of_testBit_eq fun k => ?_
  rw [State.testBit_bits, BitVec.testBit_toNat, BitVec.getLsbD_extractLsb', Nat.zero_add]
  by_cases hk : k < n
  · rw [h.getLsbD_acc (by omega), State.peekbit]
  · rw [decide_eq_false hk, Bool.false_and, Bool.false_and]

/-- Settles O13: the failure test is `read`'s own, and bit by bit the value is the stream's. -/
theorem readField : Obligations.ReadField := by
  unfold Obligations.ReadField
  refine fun s n h16 => ⟨readBits_starved, fun hn => ?field, fun hw => ?zero⟩
  case field =>
    refine ⟨s.bits s.work.bitPos n, advance n s, readBits_ok hn, s.bits_lt s.work.bitPos n, fun k hk => ?_,
      advance_withCursor n s, fun hw => hw.advance h16 hn⟩
    rw [State.testBit_bits, decide_eq_true hk, Bool.true_and]
  case zero =>
    have hn : s.work.bitPos + 0 ≤ s.work.endBit := Nat.le_trans (by omega) hw.align_le
    rw [readBits_ok hn, hw.advance_zero, State.bits]

/-- Settles O15: the window holds every bit `read` may take, and shows 0 where the look-ahead does. -/
theorem windowAnswers : Obligations.WindowAnswers := by
  unfold Obligations.WindowAnswers
  refine fun s hw => ⟨fun n h16 => hw.nbits_lt_iff h16, fun n h16 hn => ?_, fun k hk => hw.peekbit_eq (by omega)⟩
  rw [readBits_ok hn, hw.bits_eq (hw.le_nbits h16 hn)]

/-- Settles O14: aligning drops the bits the window holds of the cursor's byte. -/
theorem alignCursor : Obligations.AlignCursor := by
  unfold Obligations.AlignCursor
  exact fun s hw => ⟨align_withCursor s, hw.align_le, hw.align⟩

end Sys2Proof.Machine

namespace Sys2Proof.Machine

/-! ### What `decode` finds (spec/41_huffman.md R153, R154) -/

section Decode

variable {lens : List Nat} {t : Huff} {peek : Nat → Bool} {y l : Nat}

/-- A used symbol has a code length from 1 to 15 (R150). -/
theorem used_length (hmax : ∀ l ∈ lens, l ≤ 15) (hy : y < lens.length) (hused : lens.getD y 0 ≠ 0) :
    lens[y]? = some (lens.getD y 0) ∧ 1 ≤ lens.getD y 0 ∧ lens.getD y 0 ≤ 15 := by
  have hget : lens[y]? = some (lens.getD y 0) := by rw [List.getD_eq_getElem _ _ hy, List.getElem?_eq_getElem hy]
  exact ⟨hget, Nat.pos_of_ne_zero hused, hmax _ (List.mem_of_getElem? hget)⟩

theorem lt_length_of_getElem? (hget : lens[y]? = some l) : y < lens.length ∧ lens.getD y 0 = l := by
  obtain ⟨hlt, -⟩ := List.getElem?_eq_some_iff.1 hget
  exact ⟨hlt, by rw [List.getD_eq_getElem?_getD, hget, Option.getD_some]⟩

/-- Entry `j` of the symbols of one length has `j` symbols of its length before it. -/
theorem rank_symsOfLen {j : Nat} (hj : (symsOfLen lens l)[j]? = some y) : (lens.take y).count l = j := by
  obtain ⟨hlt, -⟩ := List.getElem?_eq_some_iff.1 hj
  obtain ⟨-, hy⟩ := (mem_symsOfLen lens l y).1 (List.mem_of_getElem? hj)
  have hnodup : (symsOfLen lens l).Nodup := (symsOfLen_sorted lens l).imp fun h => Nat.ne_of_lt h
  exact ((List.getElem?_inj hlt hnodup).1 (hj.trans (symsOfLen_getElem? lens l y hy).symm)).symm

/-- Every candidate in the range of a length is the code of a used symbol of that length (R151, R153). -/
theorem Huff.startsWith_of_hit (h : Huff.build lens lens.length = some t) (h1 : 1 ≤ l) (h15 : l ≤ 15)
    (hhit : t.hit l (candidate peek l) = true) : ∃ y, lens[y]? = some l ∧ StartsWith peek (t.codeVal lens y) l := by
  obtain ⟨hfirst, hend⟩ := (Huff.hit_iff h h1 h15 _).1 hhit
  rw [countLens_getD lens h1 h15] at hend
  obtain ⟨j, hj⟩ := Nat.exists_eq_add_of_le hfirst
  have hlt : j < (symsOfLen lens l).length := by rw [symsOfLen_length]; omega
  have hget := List.getElem?_eq_getElem hlt
  obtain ⟨-, hy⟩ := (mem_symsOfLen lens l _).1 (List.getElem_mem hlt)
  refine ⟨_, hy, (startsWith_iff peek (Huff.codeVal_lt h hy h1 h15)).2 ?_⟩
  rw [hj, Huff.codeVal_eq h hy h15, rank_symsOfLen hget]

/-- Either some length takes the candidate, or `decode` finds nothing (R153). -/
theorem Huff.lookup_cases (t : Huff) (peek : Nat → Bool) :
    (∃ l, 1 ≤ l ∧ l ≤ 15 ∧ t.hit l (candidate peek l) = true) ∨ t.lookup peek = none := by
  rcases t.search_cases peek 15 0 with ⟨l, h1, h15, hhit, -⟩ | ⟨-, hnone⟩
  · exact .inl ⟨l, h1, by omega, hhit⟩
  · exact .inr hnone

/-- `decode` finds nothing, or a used symbol with whose code the look-ahead begins (R153). -/
theorem Huff.lookup_found_or_none (h : Huff.build lens lens.length = some t) (peek : Nat → Bool) :
    (∃ y l, lens[y]? = some l ∧ 1 ≤ l ∧ l ≤ 15 ∧ StartsWith peek (t.codeVal lens y) l ∧ t.lookup peek = some (y, l)) ∨
      t.lookup peek = none := by
  rcases t.lookup_cases peek with ⟨l, h1, h15, hhit⟩ | hnone
  · obtain ⟨y, hy, hs⟩ := Huff.startsWith_of_hit h h1 h15 hhit
    exact .inl ⟨y, l, hy, h1, h15, hs, Huff.lookup_of_startsWith h hy h1 h15 hs⟩
  · exact .inr hnone

/-- What `decode` finds is a used symbol, its length, and a code with which the look-ahead begins (R153). -/
theorem Huff.startsWith_of_lookup (h : Huff.build lens lens.length = some t) (hl : t.lookup peek = some (y, l)) :
    lens[y]? = some l ∧ 1 ≤ l ∧ l ≤ 15 ∧ StartsWith peek (t.codeVal lens y) l := by
  rcases Huff.lookup_found_or_none h peek with ⟨y', l', hy, h1, h15, hs, hfound⟩ | hnone
  · obtain ⟨rfl, rfl⟩ := Prod.mk.inj (Option.some.inj (hfound.symm.trans hl))
    exact ⟨hy, h1, h15, hs⟩
  · rw [hnone] at hl
    cases hl

end Decode

/-- Settles O7: the codes of a length are its range, so the length whose range takes the candidate names the symbol. -/
theorem codesDecode : Obligations.CodesDecode := by
  intro lens t hmax h peek
  refine ⟨fun y hy hused hs => ?found, fun y l hl => ?sound, fun hnone y hy hused hs => ?no_code, fun hno => ?none⟩
  case found =>
    obtain ⟨hget, h1, h15⟩ := used_length hmax hy hused
    exact Huff.lookup_of_startsWith h hget h1 h15 hs
  case sound =>
    obtain ⟨hget, h1, h15, hs⟩ := Huff.startsWith_of_lookup h hl
    obtain ⟨hlt, hlen⟩ := lt_length_of_getElem? hget
    exact ⟨hlt, hlen, h1, h15, hs⟩
  case no_code =>
    obtain ⟨hget, h1, h15⟩ := used_length hmax hy hused
    rw [Huff.lookup_of_startsWith h hget h1 h15 hs] at hnone
    cases hnone
  case none =>
    rcases Huff.lookup_found_or_none h peek with ⟨y, l, hget, h1, -, hs, -⟩ | hnone
    · obtain ⟨hlt, -⟩ := List.getElem?_eq_some_iff.1 hget
      have hlen : lens.getD y 0 = l := by rw [List.getD_eq_getElem?_getD, hget, Option.getD_some]
      exact absurd (hlen.symm ▸ hs) (hno y hlt (by omega))
    · exact hnone

/-! ### Complete sets (spec/41_huffman.md R154) -/

section Complete

variable {lens : List Nat} {t : Huff}

/-- The search looks at the bits of the lengths it tries, and at no others (R153). -/
theorem Huff.search_congr (t : Huff) {p q : Nat → Bool} {fuel l : Nat} (h : ∀ k, k < l + fuel → p k = q k) (c : Nat) :
    t.search p fuel l c = t.search q fuel l c := by
  induction fuel generalizing l c with
  | zero => rfl
  | succ fuel ih =>
    have htail := ih (l := l + 1) fun k hk => h k (by omega)
    simp only [Huff.search, h l (by omega), htail]

/-- A candidate below the end of the codes of its length begins with a code: it is in the range of its length, or one
bit less of it is below the end of the codes one bit shorter. -/
theorem Huff.exists_hit_of_lt (h : Huff.build lens lens.length = some t) {peek : Nat → Bool} {l : Nat} (h15 : l ≤ 15)
    (hlt : candidate peek l < firstCode (countLens lens) l + (countLens lens).getD l 0) :
    ∃ m, 1 ≤ m ∧ m ≤ 15 ∧ t.hit m (candidate peek m) = true := by
  induction l with
  | zero => rw [countLens_getD_zero, firstCode] at hlt; omega
  | succ l ih =>
    rcases Nat.lt_or_ge (candidate peek (l + 1)) (firstCode (countLens lens) (l + 1)) with hbelow | hfirst
    · refine ih (by omega) ?_
      rw [candidate, firstCode] at hbelow
      omega
    · exact ⟨l + 1, by omega, h15, (Huff.hit_iff h (by omega) h15 _).2 ⟨hfirst, hlt⟩⟩

/-- With a complete set every look-ahead begins with a code. -/
theorem Huff.lookup_ne_none_of_complete (h : Huff.build lens lens.length = some t) (hk : kraft lens = 2 ^ 15)
    (peek : Nat → Bool) : t.lookup peek ≠ none := by
  have hlt : candidate peek 15 < firstCode (countLens lens) 15 + (countLens lens).getD 15 0 := by
    rw [codeEnd_eq_kraft, hk]
    exact candidate_lt peek 15
  obtain ⟨m, h1, h15, hhit⟩ := Huff.exists_hit_of_lt h (Nat.le_refl 15) hlt
  rw [Huff.lookup_of_hit h h1 h15 hhit]
  exact Option.some_ne_none _

/-- BAD_CODE means that the look-ahead begins with no code (R153). -/
theorem lookup_of_badCode {s u : State} (h : huffDecode t s = .raised .badCode u) : t.lookup s.peekbit = none := by
  rw [huffDecode] at h
  split at h
  · assumption
  · next y l _ =>
    rcases Nat.lt_or_ge s.work.endBit (s.work.bitPos + l) with hshort | hheld
    · rw [consume_starved hshort] at h; cases h
    · rw [consume_ok hheld] at h; cases h

end Complete

/-- Settles O8: the symbol is what `decode` finds, which is one symbol; a complete set leaves no candidate over. -/
theorem codesPrefixFree : Obligations.CodesPrefixFree := by
  intro lens t hmax h
  refine ⟨fun y z hy hz huy huz peek hsy hsz => ?prefix_free, fun peek l m hl1 hl15 hm1 hm15 => ?one_length,
    fun p q hpq => ?bits, fun hk => ⟨Huff.lookup_ne_none_of_complete h hk, fun s c u hr hc => ?complete⟩⟩
  case prefix_free =>
    obtain ⟨hgety, hy1, hy15⟩ := used_length hmax hy huy
    obtain ⟨hgetz, hz1, hz15⟩ := used_length hmax hz huz
    have hfoundy := Huff.lookup_of_startsWith h hgety hy1 hy15 hsy
    have hfoundz := Huff.lookup_of_startsWith h hgetz hz1 hz15 hsz
    exact congrArg Prod.fst (Option.some.inj (hfoundy.symm.trans hfoundz))
  case one_length => exact Huff.hit_unique h hl1 hl15 hm1 hm15
  case bits => exact t.search_congr (fun k hk => hpq k (by omega)) 0
  case complete =>
    subst hc
    exact Huff.lookup_ne_none_of_complete h hk _ (lookup_of_badCode hr)

/-! ### What `build` writes and refuses (spec/41_huffman.md R151, R152) -/

section Build

variable {lens : List Nat} {t : Huff}

theorem Huff.build_eq_none (h : 2 ^ 15 < kraft lens) : Huff.build lens lens.length = none := by
  cases hb : Huff.build lens lens.length with
  | none => rfl
  | some t => exact absurd (kraft_le hb) (Nat.not_le_of_lt h)

/-- Used symbols stand by (length, symbol): the lengths rise, and the symbols of one length rise (R151). -/
theorem sortedSyms_sorted (lens : List Nat) :
    (sortedSyms lens).Pairwise fun y z =>
      lens.getD y 0 < lens.getD z 0 ∨ (lens.getD y 0 = lens.getD z 0 ∧ y < z) := by
  have hlen : ∀ {l y}, y ∈ symsOfLen lens l → lens.getD y 0 = l := fun hy =>
    (lt_length_of_getElem? ((mem_symsOfLen lens _ _).1 hy).2).2
  refine List.pairwise_flatMap.2 ⟨fun l _ => ?one_length, ?lengths⟩
  case one_length =>
    refine (symsOfLen_sorted lens l).imp_of_mem fun hy hz hyz => .inr ⟨?_, hyz⟩
    rw [hlen hy, hlen hz]
  case lengths =>
    refine (List.pairwise_lt_range' 1).imp fun hlm y hy z hz => .inl ?_
    rwa [hlen hy, hlen hz]

theorem mem_sortedSyms_iff_used (hmax : ∀ l ∈ lens, l ≤ 15) (y : Nat) :
    y ∈ sortedSyms lens ↔ y < lens.length ∧ lens.getD y 0 ≠ 0 := by
  rw [mem_sortedSyms]
  constructor
  · rintro ⟨l, h1, -, hget⟩
    obtain ⟨hlt, rfl⟩ := lt_length_of_getElem? hget
    exact ⟨hlt, by omega⟩
  · rintro ⟨hy, hused⟩
    obtain ⟨hget, h1, h15⟩ := used_length hmax hy hused
    exact ⟨_, h1, h15, hget⟩

/-- The place a used symbol's code names in T.sym (R151). -/
theorem Huff.sym_codeVal (h : Huff.build lens lens.length = some t) {y l : Nat} (hy : lens[y]? = some l)
    (h1 : 1 ≤ l) (h15 : l ≤ 15) :
    t.sym[t.base.getD l 0 + t.codeVal lens y - t.first.getD l 0]? = some y := by
  have hplace : t.base.getD l 0 + t.codeVal lens y - t.first.getD l 0 =
      baseIndex (countLens lens) l + (lens.take y).count l := by
    rw [Huff.base_getD h h15, Huff.first_getD h h15, Huff.codeVal_eq h hy h15]
    omega
  rw [hplace, Huff.sym_eq h, sortedSyms_getElem? lens h1 h15 (rank_lt_count hy), symsOfLen_getElem? lens l y hy]

/-- The positions of T.sym are those that `base` and `count` name (R151). -/
theorem sortedSyms_length (lens : List Nat) :
    (sortedSyms lens).length = baseIndex (countLens lens) 15 + (countLens lens).getD 15 0 :=
  (baseIndex_eq lens (Nat.le_refl 15)).symm

theorem Huff.used_eq (h : Huff.build lens lens.length = some t) :
    t.used = baseIndex (countLens lens) 15 + (countLens lens).getD 15 0 := by
  obtain ⟨-, rfl⟩ := Huff.build_eq_some.1 h
  rw [List.take_length]

end Build

/-- Settles O5: the sum R152 tests is `first[15] + count[15]`. -/
theorem buildAccepts : Obligations.BuildAccepts := by
  intro lens
  refine ⟨⟨fun ⟨t, h⟩ => kraft_le h, fun hk => ?accept⟩, fun t h => ?sum, fun s hk => ⟨?llt, ?dt, fun hcl => ?clt⟩⟩
  case accept => exact ⟨_, Huff.build_eq_some.2 ⟨by rwa [List.take_length], rfl⟩⟩
  case sum =>
    rw [Huff.first_getD h (Nat.le_refl 15), Huff.count_getD h (by omega) (Nat.le_refl 15),
      ← countLens_getD lens (by omega) (Nat.le_refl 15), codeEnd_eq_kraft]
  case llt => rw [loadLlt, Huff.build_eq_none hk]
  case dt => rw [loadDt, Huff.build_eq_none hk]
  case clt =>
    have hlength : lens.length = 19 := by rw [← hcl, List.length_map, Vector.length_toList]
    have hnone := Huff.build_eq_none hk
    rw [hlength] at hnone
    rw [loadClt, hcl, hnone]

/-- Settles O6: each field is the recurrence or the symbol list that R151 gives. -/
theorem buildTable : Obligations.BuildTable := by
  intro lens t hmax h
  have hcount : ∀ l, 1 ≤ l → l ≤ 15 → t.count.getD l 0 = (countLens lens).getD l 0 := fun l h1 h15 => by
    rw [Huff.count_getD h h1 h15, countLens_getD lens h1 h15]
  refine ⟨?n, fun l => Huff.count_getD h, ?first1, ?base1, fun l h1 h15 => ?first, fun l h1 h15 => ?base, ?used,
    ?length, fun y => ?members, ?order, fun y hy hused => ?place⟩
  case n =>
    obtain ⟨-, rfl⟩ := Huff.build_eq_some.1 h
    rfl
  case first1 => rw [Huff.first_getD h (by omega), firstCode, firstCode, countLens_getD_zero]
  case base1 => rw [Huff.base_getD h (by omega), baseIndex, baseIndex, countLens_getD_zero]
  case first => rw [Huff.first_getD h h15, Huff.first_getD h (by omega), hcount l h1 (by omega), firstCode]
  case base => rw [Huff.base_getD h h15, Huff.base_getD h (by omega), hcount l h1 (by omega), baseIndex]
  case used => rw [Huff.used_eq h, Huff.base_getD h (by omega), hcount 15 (by omega) (by omega)]
  case length => rw [Huff.sym_eq h, sortedSyms_length, Huff.used_eq h]
  case members => rw [Huff.sym_eq h, mem_sortedSyms_iff_used hmax]
  case order => rw [Huff.sym_eq h]; exact sortedSyms_sorted lens
  case place =>
    obtain ⟨hget, h1, h15⟩ := used_length hmax hy hused
    exact Huff.sym_codeVal h hget h1 h15

end Sys2Proof.Machine

namespace Sys2Proof.Machine

/-! ### How a block element ends (spec/42_inflate_blocks.md R172 to R186) -/

/-- An operation that raises ends its element's step in a failed run; its inputs are those it began with (R412, R414). -/
theorem Res.Touches.failed {r : Res Unit} {c : Cause} {s v : State} (h : r.Touches s) (hr : r = .raised c v) :
    finish r = .next (raise c v) ∧ Failed c s (raise c v) := by
  subst hr
  cases h with
  | raised _ hv => exact ⟨rfl, .of_raise hv.1.1 c⟩

/-- A change of working registers and PHASE only keeps inputs, status, OUT and PIX. -/
theorem kept_of_eq {s t : State} (h : t = { s with work := t.work, phase := t.phase }) :
    Kept s t ∧ SameMem .out s t ∧ SameMem .pix s t := by
  rw [h]
  exact ⟨⟨.refl s, rfl, rfl, rfl⟩, fun _ => rfl, fun _ => rfl⟩

theorem exec_blkStored (final : Bool) (s : State) :
    exec (.blkStored final) s = finish (storedBlock (blockHeader final 0 .stored s)) := rfl

theorem exec_blkFixed (final : Bool) (s : State) :
    exec (.blkFixed final) s = finish (fixedBlock (blockHeader final 1 .fixed s)) := rfl

theorem exec_blkDynamic (final : Bool) (s : State) :
    exec (.blkDynamic final) s = finish (dynHeader (blockHeader final 2 .dynhdr s)) := rfl

theorem bits_blockHeader (final : Bool) (btype : BitVec 2) (p : Phase) (s : State) (i n : Nat) :
    (blockHeader final btype p s).bits i n = s.bits i n :=
  State.bits_congr (s := s) (t := blockHeader final btype p s) rfl rfl rfl n i

theorem Touched.blockHeader (final : Bool) (btype : BitVec 2) (p : Phase) (s : State) :
    Touched s (blockHeader final btype p s) := .of_eq rfl

/-- Settles O23: `raise` after what the element records. -/
theorem reservedElements : Obligations.ReservedElements := by
  refine fun s => ⟨fun final => ⟨_, rfl, .of_raise (.refl s) _, fun _ => rfl, fun _ => rfl, rfl⟩, ?_⟩
  have bad : ∃ t, (.next (raise .badSymbol s) : Out) = .next t ∧ Failed .badSymbol s t ∧ SameMem .out s t ∧
      SameMem .pix s t ∧ t.work = s.work := ⟨_, rfl, .of_raise (.refl s) _, fun _ => rfl, fun _ => rfl, rfl⟩
  simp only [List.forall_mem_cons]
  exact ⟨bad, bad, bad, bad, fun _ h => absurd h List.not_mem_nil⟩

/-- Settles O49: `infEnd` is the step of phase INFEND. -/
theorem inflateEnd : Obligations.InflateEnd := by
  intro s u hturn hb hp
  rw [hturn.step, engineAct_infend hb hp]
  exact tests_agree Iff.rfl (fun _ => ⟨_, rfl, .of_raise (.refl u) _⟩)
    fun _ => ⟨_, rfl, ⟨.refl u, rfl, rfl, rfl⟩, fun _ => rfl, fun _ => rfl, rfl, rfl⟩

/-- A fixed block has both its tables and enters the body with them (R174). -/
theorem fixedBlock_loads : ∃ a b, Huff.build fixLL 288 = some a ∧ Huff.build fixD 32 = some b ∧
    ∀ s, fixedBlock s = .ok () (enterBody { s with work.llt := a, work.dt := b }) := by
  have htables := fixed_tables
  have heq := fixedBlock_eq
  generalize fixedLlt = a at htables heq
  generalize fixedDt = b at htables heq
  exact ⟨a, b, htables.1, htables.2, heq⟩

/-- Settles O20: the fixed tables are constants, so loading them cannot fail. -/
theorem Blocks.fixedBlock : Obligations.FixedBlock := fun final s => by
  obtain ⟨a, b, ha, hb, heq⟩ := fixedBlock_loads
  obtain ⟨hkept, hout, hpix⟩ := kept_of_eq (s := s)
    (t := enterBody { blockHeader final 1 .fixed s with work.llt := a, work.dt := b }) rfl
  rw [exec_blkFixed, heq]
  exact ⟨_, finish_ok _ _, hkept, hout, hpix, rfl, ha, hb, rfl⟩

/-! ### The stored block (R173) -/

/-- Reading LEN and NLEN moves the cursor only. -/
theorem afterLengths_eq (s : State) : afterLengths s = { s with
    work := s.work.withCursor (8 * ((s.work.bitPos + 7) / 8) + 32) (afterLengths s).work } := by
  rw [afterLengths, advance_withCursor 16 (advance 16 (align s)), advance_withCursor 16 (align s), align_withCursor s]
  rfl

section Stored

variable {s : State} {p len : Nat} (hp : 8 * ((s.work.bitPos + 7) / 8) = p) (hlen : s.bits p 16 = len)
  (h : p + 32 ≤ s.work.endBit)
include hp hlen h

/-- NLEN is not the complement of LEN. -/
theorem storedBlock_storedLen (hn : s.bits (p + 16) 16 ≠ 0xFFFF - len) :
    storedBlock s = .raised .storedLen (afterLengths s) := by
  subst hp hlen
  rw [storedBlock_eq s h, if_pos]
  exact mt (xor_eq_ffff (State.bits_lt _ _ _) (State.bits_lt _ _ _)).1 hn

variable (hn : s.bits (p + 16) 16 = 0xFFFF - len)
include hn

/-- NLEN is the complement of LEN: the room in OUT decides. -/
theorem storedBlock_lengths_agree :
    storedBlock s = if s.work.outPos + len > s.work.cap then .raised .outCapacity (afterLengths s)
      else (storedBytes len (afterLengths s)).bind fun _ t => .ok () (blockEnd t) := by
  subst hp hlen
  rw [storedBlock_eq s h, if_neg]
  exact not_not.2 ((xor_eq_ffff (State.bits_lt _ _ _) (State.bits_lt _ _ _)).2 hn)

/-- OUT has no room for the data. -/
theorem storedBlock_outCapacity (hcap : s.work.cap < s.work.outPos + len) :
    storedBlock s = .raised .outCapacity (afterLengths s) := by
  rw [storedBlock_lengths_agree hp hlen h hn, if_pos hcap]

variable (hcap : s.work.outPos + len ≤ s.work.cap)
include hcap

/-- OUT has room: the data are next. -/
theorem storedBlock_data :
    storedBlock s = (storedBytes len (afterLengths s)).bind fun _ t => .ok () (blockEnd t) := by
  rw [storedBlock_lengths_agree hp hlen h hn, if_neg (Nat.not_lt.2 hcap)]

/-- The data are not all there. -/
theorem storedBlock_short (hdata : s.work.endBit < p + 32 + 8 * len) :
    ∃ v, storedBlock s = .raised .starved v := by
  obtain ⟨v, hv, -⟩ := storedBytes_starved len (afterLengths s) (by rw [afterLengths_eq, hp]; exact h)
    (by rw [afterLengths_eq, hp]; exact hdata)
  exact ⟨v, by rw [storedBlock_data hp hlen h hn hcap, hv]; rfl⟩

/-- The data are all there: they are copied. -/
theorem storedBlock_copies (hdata : p + 32 + 8 * len ≤ s.work.endBit) :
    ∃ t, storedBlock s = .ok () t ∧
      t = { s with
        phase := if s.work.bfinal = true then .infend else .blkhdr
        outMem := t.outMem
        work := { s.work.withCursor (p + 32 + 8 * len) t.work with outPos := s.work.outPos + len } } ∧
      (∀ k, k < len → t.read .out (s.work.outPos + k) = s.read .inp (p / 8 + 4 + k)) ∧
      SameOutside .out s.work.outPos len s t := by
  obtain ⟨v, hv, heq, hbytes, hother, -, -⟩ :=
    storedBytes_ok len (afterLengths s) (by rw [afterLengths_eq, hp]; exact hdata)
  have hmoved := afterLengths_eq s
  rw [hp] at hmoved
  generalize (afterLengths s).work = w at hmoved
  refine ⟨blockEnd v, by rw [storedBlock_data hp hlen h hn hcap, hv]; rfl, ?frame, fun k hk => ?byte, ?other⟩
  case frame => rw [heq, hmoved]; rfl
  case byte =>
    have hbyte := hbytes k hk
    have hpos : (afterLengths s).work.bitPos + 8 * k = 8 * (p / 8 + 4 + k) := by
      rw [hmoved]
      simp only [Work.withCursor]
      omega
    have hout : (afterLengths s).work.outPos = s.work.outPos := by rw [hmoved]; rfl
    have hbits : (afterLengths s).bits (8 * (p / 8 + 4 + k)) 8 = s.bits (8 * (p / 8 + 4 + k)) 8 :=
      State.bits_congr (by simp [afterLengths]) (by simp [afterLengths]) (by simp [afterLengths]) _ _
    rw [hout, hpos, hbits, byte_bits _ _ (by omega)] at hbyte
    exact hbyte
  case other => rw [hmoved] at hother; exact hother

end Stored

/-- Settles O19: the four refusals of `storedBlock`, in its order. -/
theorem storedFailures : Obligations.StoredFailures := by
  intro final s
  dsimp only
  have htouches : (storedBlock (blockHeader final 0 .stored s)).Touches s :=
    (storedBlock_touches _).after (.blockHeader final 0 .stored s)
  have hout : SameMem .out s (afterLengths (blockHeader final 0 .stored s)) := by
    rw [afterLengths_eq]
    exact fun _ => rfl
  have hbits := bits_blockHeader final 0 .stored s
  rw [exec_blkStored, ← hbits, ← hbits]
  refine ⟨fun h => ?header, fun h hn => ?lengths, fun h hn hcap => ?room, fun h hn hcap hdata => ?data⟩
  case header =>
    obtain ⟨v, hv, -⟩ := storedBlock_starved (blockHeader final 0 .stored s) h
    exact ⟨_, htouches.failed hv⟩
  case lengths =>
    obtain ⟨hnext, hfailed⟩ := htouches.failed (storedBlock_storedLen rfl rfl h hn)
    exact ⟨_, hnext, hfailed, hout⟩
  case room =>
    obtain ⟨hnext, hfailed⟩ := htouches.failed (storedBlock_outCapacity rfl rfl h hn hcap)
    exact ⟨_, hnext, hfailed, hout⟩
  case data =>
    obtain ⟨v, hv⟩ := storedBlock_short (s := blockHeader final 0 .stored s) rfl rfl h hn hcap hdata
    exact ⟨_, htouches.failed hv⟩

/-- Settles O18: `storedBlock_copies`, after the header's two fields. -/
theorem Blocks.storedBlock : Obligations.StoredBlock := by
  intro final s
  dsimp only
  have hbits := bits_blockHeader final 0 .stored s
  rw [← hbits, ← hbits]
  generalize hp : 8 * ((s.work.bitPos + 7) / 8) = p
  generalize hlen : (blockHeader final 0 .stored s).bits p 16 = len
  intro hn hcap hdata
  obtain ⟨t, ht, heq, hbytes, hother⟩ := storedBlock_copies (s := blockHeader final 0 .stored s) hp hlen
    (Nat.le_of_add_right_le hdata) hn hcap hdata
  have hexec : exec (.blkStored final) s = .next t := by rw [exec_blkStored, ht, finish_ok]
  refine ⟨t, hexec, ?kept, ?pix, ?phase, ?work, hbytes, hother, fun hw => exec_stable windowOk_stable rfl hw hexec⟩
  case kept => rw [heq]; exact ⟨.refl s, rfl, rfl, rfl⟩
  case pix => rw [heq]; exact fun _ => rfl
  case phase => exact congrArg State.phase heq
  case work => exact congrArg State.work heq

end Sys2Proof.Machine

namespace Sys2Proof.Machine

/-! ### The dynamic header (R175 to R177) -/

/-- A read that has its bits gives them, and moves the cursor only (R131). -/
theorem readBits_bind {n : Nat} {s : State} (h : s.work.bitPos + n ≤ s.work.endBit) :
    ∃ w, ∀ f : Nat → State → Res Unit, (readBits n s).bind f =
      f (s.bits s.work.bitPos n) { s with work := s.work.withCursor (s.work.bitPos + n) w } :=
  ⟨(advance n s).work, fun f => by rw [readBits_ok h, ← advance_withCursor, Res.bind_ok]⟩

/-- HCLEN, the number of code-length-code lengths of a dynamic header that begins at the cursor (R175). -/
def State.clCount (s : State) : Nat := s.bits (s.work.bitPos + 10) 4 + 4

/-- The code-length-code lengths of a dynamic header that begins at the cursor, by symbol: the symbol's place in CLORDER
says which three bits are its length (R176). -/
def State.clHeaderLens (s : State) : List Nat :=
  (List.range 19).map fun y =>
    if clOrder.idxOf y < s.clCount then s.bits (s.work.bitPos + 14 + 3 * clOrder.idxOf y) 3 else 0

/-- The state a dynamic header's code-length-code lengths begin in, with some bit window (R175). -/
def afterCounts (s : State) (w : Work) : State :=
  { s with work := { s.work.withCursor (s.work.bitPos + 14) w with
    hlit := s.bits s.work.bitPos 5 + 257
    hdist := s.bits (s.work.bitPos + 5) 5 + 1
    hclen := s.clCount
    clLens := Vector.replicate 19 0 } }

theorem bits_afterCounts (s : State) (w : Work) (i n : Nat) : (afterCounts s w).bits i n = s.bits i n :=
  State.bits_congr (s := s) (t := afterCounts s w) rfl rfl rfl n i

theorem take_clOrder_length (s : State) : (clOrder.take s.clCount).length = s.clCount := by
  have hlt := s.bits_lt (s.work.bitPos + 10) 4
  obtain ⟨-, -, hlength, -⟩ := clOrder_perm
  rw [List.length_take, hlength, State.clCount]
  omega

/-- The counts are all there: the code-length-code lengths are next. -/
theorem dynHeader_counts {s : State} (h : s.work.bitPos + 14 ≤ s.work.endBit) :
    ∃ w, dynHeader s = (readClLens (clOrder.take s.clCount) (afterCounts s w)).bind fun _ t =>
      (loadClt t).bind fun _ t => .ok () { t with work.lenI := 0 } := by
  have hbits : ∀ w : Work, w.endBit = s.work.endBit → ∀ i n, ({ s with work := w } : State).bits i n = s.bits i n :=
    fun w hw i n => State.bits_congr (s := s) (t := { s with work := w }) rfl rfl hw n i
  obtain ⟨w1, hlit⟩ := readBits_bind (n := 5) (s := s) (by omega)
  obtain ⟨w2, hdist⟩ := readBits_bind (n := 5) (s := { s with
    work := { s.work.withCursor (s.work.bitPos + 5) w1 with hlit := s.bits s.work.bitPos 5 + 257 } })
    (show s.work.bitPos + 5 + 5 ≤ s.work.endBit by omega)
  obtain ⟨w3, hclen⟩ := readBits_bind (n := 4) (s := { s with
    work := { s.work.withCursor (s.work.bitPos + 10) w2 with
      hlit := s.bits s.work.bitPos 5 + 257
      hdist := s.bits (s.work.bitPos + 5) 5 + 1 } })
    (show s.work.bitPos + 10 + 4 ≤ s.work.endBit by omega)
  rw [hbits _ (by rfl)] at hdist hclen
  exact ⟨w3, (hlit _).trans ((hdist _).trans (hclen _))⟩

theorem loadClt_some {s : State} {c : Huff} (h : Huff.build (s.work.clLens.toList.map BitVec.toNat) 19 = some c) :
    loadClt s = .ok () { s with work.clt := c } := by
  rw [loadClt, h]

theorem loadClt_none {s : State} (h : Huff.build (s.work.clLens.toList.map BitVec.toNat) 19 = none) :
    loadClt s = .raised .table s := by
  rw [loadClt, h]

/-- A bit of the counts is missing. -/
theorem dynHeader_no_counts {s : State} (h : s.work.endBit < s.work.bitPos + 14) :
    ∃ v, dynHeader s = .raised .starved v := by
  unfold dynHeader
  by_cases h5 : s.work.bitPos + 5 ≤ s.work.endBit
  · rw [readBits_ok h5, Res.bind_ok]
    by_cases h10 : s.work.bitPos + 10 ≤ s.work.endBit
    · rw [readBits_ok (by simpa using h10), Res.bind_ok, readBits_starved (by simpa using h)]
      exact ⟨_, rfl⟩
    · rw [readBits_starved (by simpa using h10)]
      exact ⟨_, rfl⟩
  · rw [readBits_starved (Nat.lt_of_not_le h5)]
    exact ⟨_, rfl⟩

/-- A bit of the counts or of the lengths is missing. -/
theorem dynHeader_starved {s : State} (h : s.work.endBit < s.work.bitPos + 14 + 3 * s.clCount) :
    ∃ v, dynHeader s = .raised .starved v := by
  by_cases h14 : s.work.bitPos + 14 ≤ s.work.endBit
  · obtain ⟨w, heq⟩ := dynHeader_counts h14
    obtain ⟨v, hv, -⟩ := readClLens_starved (clOrder.take s.clCount) (afterCounts s w)
      (by rw [take_clOrder_length]; exact h) h14
    exact ⟨v, by rw [heq, hv]; rfl⟩
  · exact dynHeader_no_counts (Nat.lt_of_not_le h14)

/-- The lengths the listed symbols got, as the list of all of them (R176). -/
theorem clLens_eq {s : State} {v : Vector (BitVec 3) 19}
    (h : ∀ y, y < 19 → v[y]? = if y ∈ clOrder.take s.clCount
      then some (BitVec.ofNat 3 (s.bits (s.work.bitPos + 14 + 3 * (clOrder.take s.clCount).idxOf y) 3))
      else (Vector.replicate 19 (0 : BitVec 3))[y]?) :
    v.toList.map BitVec.toNat = s.clHeaderLens := by
  obtain ⟨-, -, -, hall⟩ := clOrder_perm
  refine List.ext_getElem? fun y => ?_
  rw [State.clHeaderLens, List.getElem?_map, List.getElem?_map, Vector.getElem?_toList]
  by_cases hy : y < 19
  · have hmem : y ∈ clOrder.take s.clCount ↔ clOrder.idxOf y < s.clCount := List.mem_take_iff_idxOf_lt (hall y hy)
    rw [h y hy, List.getElem?_range hy, Option.map_some]
    by_cases hlt : clOrder.idxOf y < s.clCount
    · have hidx : (clOrder.take s.clCount).idxOf y = clOrder.idxOf y :=
        (List.take_prefix _ _).idxOf_eq_of_mem (hmem.2 hlt)
      rw [if_pos (hmem.2 hlt), if_pos hlt, hidx, Option.map_some, BitVec.toNat_ofNat,
        Nat.mod_eq_of_lt (s.bits_lt _ 3)]
    · rw [if_neg (mt hmem.1 hlt), if_neg hlt, Vector.getElem?_replicate, if_pos hy]
      rfl
  · simp [hy]

/-- The lengths are all there: their table is next. -/
theorem dynHeader_lengths {s : State} (h : s.work.bitPos + 14 + 3 * s.clCount ≤ s.work.endBit) :
    ∃ v : State, v = { s with work := { s.work.withCursor (s.work.bitPos + 14 + 3 * s.clCount) v.work with
        hlit := s.bits s.work.bitPos 5 + 257
        hdist := s.bits (s.work.bitPos + 5) 5 + 1
        hclen := s.clCount
        clLens := v.work.clLens } } ∧
      v.work.clLens.toList.map BitVec.toNat = s.clHeaderLens ∧
      dynHeader s = (loadClt v).bind fun _ t => .ok () { t with work.lenI := 0 } := by
  obtain ⟨w, heq⟩ := dynHeader_counts (s := s) (by omega)
  obtain ⟨hnodup, hlt, -, -⟩ := clOrder_perm
  obtain ⟨v, hv, hframe, hlens, -⟩ := readClLens_ok (clOrder.take s.clCount) (afterCounts s w)
    (hnodup.sublist (List.take_sublist _ _)) (fun k hk => hlt k (List.mem_of_mem_take hk))
    (by rw [take_clOrder_length]; exact h)
  rw [take_clOrder_length] at hframe
  simp only [bits_afterCounts] at hlens
  exact ⟨v, hframe, clLens_eq hlens, by rw [heq, hv, Res.bind_ok]⟩

/-- A block's header bits change no bit of the stream. -/
theorem clHeaderLens_blockHeader (final : Bool) (btype : BitVec 2) (p : Phase) (s : State) :
    (blockHeader final btype p s).clHeaderLens = s.clHeaderLens := by
  simp only [State.clHeaderLens, State.clCount, bits_blockHeader]
  rfl

theorem clCount_blockHeader (final : Bool) (btype : BitVec 2) (p : Phase) (s : State) :
    (blockHeader final btype p s).clCount = s.clCount := by
  simp only [State.clCount, bits_blockHeader]
  rfl

/-- Settles O22: the first two parts run out of bits, or the third has no table. -/
theorem dynamicFailures : Obligations.DynamicFailures := by
  intro final s
  have hcount := clCount_blockHeader final 2 .dynhdr s
  have htouches : (dynHeader (blockHeader final 2 .dynhdr s)).Touches s :=
    (dynHeader_touches _).after (.blockHeader final 2 .dynhdr s)
  rw [exec_blkDynamic]
  refine ⟨fun h => ?starved, fun h hnone => ?table⟩
  case starved =>
    obtain ⟨v, hv⟩ := dynHeader_starved (s := blockHeader final 2 .dynhdr s) (by rw [hcount]; exact h)
    exact ⟨_, htouches.failed hv⟩
  case table =>
    obtain ⟨v, -, hlens, heq⟩ := dynHeader_lengths (s := blockHeader final 2 .dynhdr s) (by rw [hcount]; exact h)
    rw [clHeaderLens_blockHeader] at hlens
    have hclt : loadClt v = .raised .table v := loadClt_none (by rw [hlens]; exact hnone)
    exact ⟨_, htouches.failed (heq.trans (by rw [hclt]; rfl))⟩

/-- Settles O21: `dynHeader_lengths`, after the header's two fields. -/
theorem dynamicHeader : Obligations.DynamicHeader := by
  intro final s c
  dsimp only
  intro h hbuild
  have hcount := clCount_blockHeader final 2 .dynhdr s
  obtain ⟨v, hframe, hlens, heq⟩ := dynHeader_lengths (s := blockHeader final 2 .dynhdr s) (by rw [hcount]; exact h)
  rw [clHeaderLens_blockHeader] at hlens
  have hclt : loadClt v = .ok () { v with work.clt := c } := loadClt_some (by rw [hlens]; exact hbuild)
  have hexec : exec (.blkDynamic final) s = .next { v with work.clt := c, work.lenI := 0 } :=
    by rw [exec_blkDynamic, heq, hclt, Res.bind_ok, finish_ok]
  have hphase : v.phase = .dynhdr := congrArg State.phase hframe
  simp only [bits_blockHeader, hcount] at hframe
  obtain ⟨hkept, hout, hpix⟩ := kept_of_eq (s := s) (t := v) (by rw [hframe]; rfl)
  exact ⟨_, hexec, hkept, hout, hpix, hphase, hlens,
    congrArg (fun t : State => { t.work with clt := c, lenI := 0 }) hframe,
    fun hw => exec_stable windowOk_stable rfl hw hexec⟩

end Sys2Proof.Machine

namespace Sys2Proof.Machine

/-! ### The code-length elements (R178 to R183) -/

theorem exec_clRep16 {s : State} (h : s.work.lenI ≠ 0) :
    exec .clRep16 s = finish (runLens 3 2 (s.work.lens[s.work.lenI - 1]?.getD 0) s) := if_neg h

theorem exec_clZero17 (s : State) : exec .clZero17 s = finish (runLens 3 3 0 s) := rfl

theorem exec_clZero18 (s : State) : exec .clZero18 s = finish (runLens 11 7 0 s) := rfl

theorem runLens_starved (b n : Nat) (x : BitVec 4) (s : State) (h : s.work.endBit < s.work.bitPos + n) :
    runLens b n x s = .raised .starved s := by
  rw [runLens, readBits_starved h, Res.bind_raised]

/-- How an element with a run fails once a previous length is there: its extra bits first, then N (R180 to R182). -/
theorem run_fails {s : State} {i : Instr} {b n : Nat} {x : BitVec 4} (h : exec i s = finish (runLens b n x s)) :
    (s.work.endBit < s.work.bitPos + n → ∃ t, exec i s = .next t ∧ Failed .starved s t) ∧
      (s.work.bitPos + n ≤ s.work.endBit → s.work.hlit + s.work.hdist < s.work.lenI + (b + s.bits s.work.bitPos n) →
        ∃ t, exec i s = .next t ∧ Failed .clRepeat s t) := by
  rw [h]
  exact ⟨fun hshort => ⟨_, (runLens_touches b n x s).failed (runLens_starved b n x s hshort)⟩,
    fun hle hpast => ⟨_, (runLens_touches b n x s).failed (runLens_past b n x s hle hpast)⟩⟩

/-- Settles O26: CL_REP16's own test, then `run_fails`. -/
theorem codeLengthFailures : Obligations.CodeLengthFailures := by
  refine fun s => ⟨fun h => ⟨_, if_pos h, .of_raise (.refl s) _⟩, ?_⟩
  simp only [List.forall_mem_cons]
  exact ⟨fun h => run_fails (exec_clRep16 (h.resolve_left (not_not.2 rfl))), fun _ => run_fails (exec_clZero17 s),
    fun _ => run_fails (exec_clZero18 s), fun _ h => absurd h List.not_mem_nil⟩

/-- The last length is set, and both sets have a table (R183). -/
theorem putLens_tables {s : State} {r : Nat} {x : BitVec 4} (hN : s.work.lenI + r = s.work.hlit + s.work.hdist)
    {a b : Huff} (ha : Huff.build ((lensAfter s r x).take s.work.hlit) s.work.hlit = some a)
    (hb : Huff.build (((lensAfter s r x).drop s.work.hlit).take s.work.hdist) s.work.hdist = some b) :
    putLens r x s = .ok () (enterBody { s with
      work.lens := fillLens s.work.lens s.work.lenI x r
      work.lenI := s.work.lenI + r
      work.llt := a
      work.dt := b }) := by
  rw [putLens_eq r x s hN]
  exact buildTables_ok (s := { s with
    work.lens := fillLens s.work.lens s.work.lenI x r, work.lenI := s.work.lenI + r }) ha hb

/-- The last length is set, and one of the sets has no table (R183). -/
theorem putLens_no_table {s : State} {r : Nat} {x : BitVec 4} (hN : s.work.lenI + r = s.work.hlit + s.work.hdist)
    (hnone : Huff.build ((lensAfter s r x).take s.work.hlit) s.work.hlit = none ∨
      Huff.build (((lensAfter s r x).drop s.work.hlit).take s.work.hdist) s.work.hdist = none) :
    ∃ v, putLens r x s = .raised .table v := by
  obtain ⟨v, hv, -⟩ := buildTables_raised (s := { s with
    work.lens := fillLens s.work.lens s.work.lenI x r, work.lenI := s.work.lenI + r }) hnone
  exact ⟨v, by rw [putLens_eq r x s hN, hv]⟩

/-- A state with the cursor moved on by `n` bits and some bit window. -/
def State.movedBy (s : State) (n : Nat) (w : Work) : State :=
  { s with work := s.work.withCursor (s.work.bitPos + n) w }

/-- A code-length element that sets `r` lengths to `x` and consumes `n` bits: where the bits are there and N is not
passed, it is `putLens` behind those bits. -/
def PutsLens (s : State) (i : Instr) (r : Nat) (x : BitVec 4) (n : Nat) : Prop :=
  s.work.bitPos + n ≤ s.work.endBit ∨ n = 0 → s.work.lenI + r ≤ s.work.hlit + s.work.hdist →
    ∃ w, exec i s = finish (putLens r x (s.movedBy n w))

/-- An element with a run sets as many lengths as its base and its extra bits say (R180 to R182). -/
theorem run_putsLens {s : State} {i : Instr} {b n : Nat} {x : BitVec 4} (hn : n ≠ 0)
    (h : exec i s = finish (runLens b n x s)) : PutsLens s i (b + s.bits s.work.bitPos n) x n := by
  intro hbits hlt
  refine ⟨(advance n s).work, ?_⟩
  rw [h, runLens_eq b n x s (hbits.resolve_right hn) hlt, State.movedBy, ← advance_withCursor]

/-- CL_LEN sets one length and consumes nothing besides its code (R179). -/
theorem clLen_putsLens (s : State) (len : Nat) : PutsLens s (.clLen len) 1 (BitVec.ofNat 4 len) 0 :=
  fun _ _ => ⟨s.work, rfl⟩

theorem clRep16_putsLens {s : State} (h : 1 ≤ s.work.lenI) :
    PutsLens s .clRep16 (3 + s.bits s.work.bitPos 2) (s.work.lens[s.work.lenI - 1]?.getD 0) 2 :=
  run_putsLens (by decide) (exec_clRep16 (Nat.ne_zero_of_lt h))

theorem clZero17_putsLens (s : State) : PutsLens s .clZero17 (3 + s.bits s.work.bitPos 3) 0 3 :=
  run_putsLens (by decide) (exec_clZero17 s)

theorem clZero18_putsLens (s : State) : PutsLens s .clZero18 (11 + s.bits s.work.bitPos 7) 0 7 :=
  run_putsLens (by decide) (exec_clZero18 s)

section Lens

variable {s : State} {i : Instr} {r n : Nat} {x : BitVec 4} (hi : inStream i.format = true) (h : PutsLens s i r x n)
  (hbits : s.work.bitPos + n ≤ s.work.endBit ∨ n = 0)

include hi in
/-- An element that left LENS and LEN_I as `putLens` does, and changed nothing else but what the last length adds. -/
theorem LensSet.of_exec {t : State} (he : exec i s = .next t)
    (ht : t = { s with
      phase := t.phase
      work := { s.work.withCursor (s.work.bitPos + n) t.work with
        lens := fillLens s.work.lens s.work.lenI x r
        lenI := s.work.lenI + r
        llt := t.work.llt
        dt := t.work.dt
        matchLen := t.work.matchLen } }) : LensSet s t r x n := by
  obtain ⟨hkept, hout, hpix⟩ := kept_of_eq (s := s) (t := t) (by rw [ht])
  have hlens : t.work.lens = fillLens s.work.lens s.work.lenI x r := by rw [ht]
  refine ⟨hkept, hout, hpix, fun j hj => ?_, ?_, fun hs => exec_stable windowOk_stable hi hs he⟩
  · rw [hlens, fillLens_getElem? _ _ _ _ _ hj]
  · rw [hlens]
    exact congrArg State.work ht

include hi h hbits

/-- Below the last length the loop goes on (R178). -/
theorem PutsLens.goes_on (hlt : s.work.lenI + r < s.work.hlit + s.work.hdist) :
    ∃ t, exec i s = .next t ∧ LensSet s t r x n ∧ t.phase = s.phase ∧ t.work.llt = s.work.llt ∧
      t.work.dt = s.work.dt ∧ t.work.matchLen = s.work.matchLen := by
  obtain ⟨w, hw⟩ := h hbits hlt.le
  rw [putLens_lt r x (s.movedBy n w) hlt] at hw
  exact ⟨_, hw, .of_exec hi hw rfl, rfl, rfl, rfl, rfl⟩

/-- At the last length the body begins when both sets have a table, and the run ends with TABLE when one has none
(R183). -/
theorem PutsLens.ends (hN : s.work.lenI + r = s.work.hlit + s.work.hdist) :
    (∀ a b, Huff.build ((lensAfter s r x).take s.work.hlit) s.work.hlit = some a →
      Huff.build (((lensAfter s r x).drop s.work.hlit).take s.work.hdist) s.work.hdist = some b →
      ∃ t, exec i s = .next t ∧ LensSet s t r x n ∧ t.phase = .body ∧ t.work.llt = a ∧ t.work.dt = b ∧
        t.work.matchLen = none) ∧
    (Huff.build ((lensAfter s r x).take s.work.hlit) s.work.hlit = none ∨
      Huff.build (((lensAfter s r x).drop s.work.hlit).take s.work.hdist) s.work.hdist = none →
      ∃ t, exec i s = .next t ∧ Failed .table s t) := by
  obtain ⟨w, hw⟩ := h hbits hN.le
  refine ⟨fun a b ha hb => ?tables, fun hnone => ?none⟩
  case tables =>
    rw [putLens_tables (s := s.movedBy n w) hN ha hb] at hw
    exact ⟨_, hw, .of_exec hi hw rfl, rfl, rfl, rfl, rfl⟩
  case none =>
    obtain ⟨v, hv⟩ := putLens_no_table (s := s.movedBy n w) hN hnone
    have htouches : (putLens r x (s.movedBy n w)).Touches s :=
      (putLens_touches r x _).after (.of_eq (t := s.movedBy n w) rfl)
    rw [hw]
    exact ⟨_, htouches.failed hv⟩

end Lens

/-- Settles O24: the four elements are `putLens`, below N. -/
theorem codeLengths : Obligations.CodeLengths := fun s =>
  ⟨fun len _ => (clLen_putsLens s len).goes_on rfl, fun h1 => (clRep16_putsLens h1).goes_on rfl,
    (clZero17_putsLens s).goes_on rfl, (clZero18_putsLens s).goes_on rfl⟩

/-- Settles O25: the four elements are `putLens`, at N. -/
theorem codeLengthsEnd : Obligations.CodeLengthsEnd := fun s =>
  ⟨fun len _ => (clLen_putsLens s len).ends rfl, fun h1 => (clRep16_putsLens h1).ends rfl,
    (clZero17_putsLens s).ends rfl, (clZero18_putsLens s).ends rfl⟩

end Sys2Proof.Machine

namespace Sys2Proof.Machine

/-! ### Literals, block ends and lengths (spec/43_inflate_symbols.md R200, R201, R250 to R285) -/

/-- Settles O27: the room in OUT is `execLit`'s only test. -/
theorem literalAppended : Obligations.LiteralAppended := by
  refine fun byte s => ⟨fun hroom => ?room, fun hfull => ⟨_, if_pos hfull, .of_raise (.refl s) _, fun _ => rfl⟩⟩
  have hread := putOut_read byte s
  exact ⟨_, if_neg (Nat.not_lt.2 hroom), (Touched.putOut byte s).1, rfl, rfl, by rw [hread, if_pos rfl],
    fun x hx => by rw [hread, if_neg (by omega)], fun _ => rfl⟩

/-- Settles O28: `blockEnd` writes PHASE only. -/
theorem endOfBlock : Obligations.EndOfBlock := fun s => by
  obtain ⟨hkept, hout, hpix⟩ := kept_of_eq (s := s) (t := blockEnd s) rfl
  exact ⟨_, rfl, hkept, hout, hpix, rfl, rfl⟩

/-- The element at place `k` among the length symbols is `lengthSymbol` at its number. -/
theorem exec_lengthElements {k : Nat} (h : k < lengthElements.length) (s : State) :
    exec lengthElements[k] s = lengthSymbol (257 + k) s := by
  have hk : k < 29 := h
  interval_cases k <;> rfl

/-- A table read behind a run of `n` zeros. -/
theorem getD_replicate_append (n k : Nat) (l : List Nat) : (List.replicate n 0 ++ l).getD (n + k) 0 = l.getD k 0 := by
  rw [List.getD_append_right _ _ _ _ (by simp), List.length_replicate, Nat.add_sub_cancel_left]

theorem lengthElements_format : ∀ i ∈ lengthElements, i.format = .ll := by decide

/-- A row of the length table: an element that is `lengthSymbol` at a number, with that number's base and extra bits. -/
theorem exists_lengthSymbol {row : Instr × Nat × Nat} (h : row ∈ lengthElements.zip (lbaseRom.zip lextraRom)) :
    ∃ i y, row = (i, lbase y, lextra y) ∧ i.format = .ll ∧ ∀ s, exec i s = lengthSymbol y s := by
  obtain ⟨k, hk, rfl⟩ := List.getElem_of_mem h
  have hk29 : k < 29 := hk
  have hbase : lbase (257 + k) = lbaseRom[k] := by
    rw [lbase, getD_replicate_append, List.getD_eq_getElem _ _ hk29]
  have hextra : lextra (257 + k) = lextraRom[k] := by
    rw [lextra, getD_replicate_append, List.getD_eq_getElem _ _ hk29]
  refine ⟨lengthElements[k], 257 + k, ?_, lengthElements_format _ (List.getElem_mem _), exec_lengthElements _⟩
  rw [hbase, hextra, List.getElem_zip, List.getElem_zip]
  rfl

/-- A length whose extra bits are there (R201). -/
theorem lengthSymbol_reads {y : Nat} {s : State} (h : s.work.bitPos + lextra y ≤ s.work.endBit) :
    ∃ t, lengthSymbol y s = .next t ∧ t = { s with
      work := { s.work.withCursor (s.work.bitPos + lextra y) t.work with
        matchLen := some (lbase y + s.bits s.work.bitPos (lextra y)) } } := by
  obtain ⟨w, hw⟩ := readBits_bind h
  exact ⟨_, congrArg finish (hw _), rfl⟩

/-- A length whose extra bits are not all there (R201). -/
theorem lengthSymbol_starved {y : Nat} {s : State} (h : s.work.endBit < s.work.bitPos + lextra y) :
    lengthSymbol y s = .next (raise .starved s) := by
  rw [lengthSymbol, readBits_starved h, Res.bind_raised, finish_raised]

/-- Settles O29: the statement's rows are the ROM's, and each is `lengthSymbol`. -/
theorem lengthSymbols : Obligations.LengthSymbols := by
  intro s
  change ∀ row ∈ lengthElements.zip (lbaseRom.zip lextraRom), _
  intro row hrow
  obtain ⟨i, y, rfl, hformat, hexec⟩ := exists_lengthSymbol hrow
  refine ⟨fun h => ?reads, fun h => ⟨_, (hexec s).trans (lengthSymbol_starved h), .of_raise (.refl s) _⟩⟩
  obtain ⟨t, ht, heq⟩ := lengthSymbol_reads h
  have hnext : exec i s = .next t := (hexec s).trans ht
  obtain ⟨hkept, hout, hpix⟩ := kept_of_eq (s := s) (t := t) (by rw [heq])
  exact ⟨t, hnext, hkept, hout, hpix, by rw [heq], congrArg State.work heq,
    fun hs => exec_stable windowOk_stable (by rw [hformat]; rfl) hs hnext⟩

end Sys2Proof.Machine

namespace Sys2Proof.Machine

/-! ### Distances and the copy (spec/43_inflate_symbols.md R202 to R205, R300 to R329) -/

/-- The element at place `d` among the distance symbols is `distanceSymbol` at its number. -/
theorem exec_distanceElements {d : Nat} (h : d < distanceElements.length) (s : State) :
    exec distanceElements[d] s = distanceSymbol d s := by
  have hd : d < 30 := h
  interval_cases d <;> rfl

theorem distanceElements_format : ∀ i ∈ distanceElements, i.format = .dist := by decide

/-- No distance is 0: the overlap law needs it (R205). -/
theorem dbaseRom_pos : ∀ b ∈ dbaseRom, 1 ≤ b := by decide

/-- A row of the distance table: an element that is `distanceSymbol` at a number, with that number's base and extra
bits. -/
theorem exists_distanceSymbol {row : Instr × Nat × Nat} (h : row ∈ distanceElements.zip (dbaseRom.zip dextraRom)) :
    ∃ i d, row = (i, dbase d, dextra d) ∧ i.format = .dist ∧ 1 ≤ dbase d ∧ ∀ s, exec i s = distanceSymbol d s := by
  obtain ⟨d, hd, rfl⟩ := List.getElem_of_mem h
  have hd30 : d < 30 := hd
  have hbase : dbase d = dbaseRom[d] := List.getD_eq_getElem _ _ hd30
  have hextra : dextra d = dextraRom[d] := List.getD_eq_getElem _ _ hd30
  refine ⟨distanceElements[d], d, ?_, distanceElements_format _ (List.getElem_mem _), ?_, exec_distanceElements _⟩
  · rw [hbase, hextra, List.getElem_zip, List.getElem_zip]
    rfl
  · rw [hbase]
    exact dbaseRom_pos _ (List.getElem_mem _)

theorem distanceSymbol_eq {d length : Nat} {s : State} (hm : s.work.matchLen = some length) :
    distanceSymbol d s = finish ((readBits (dextra d) s).bind fun e t => copyMatch length (dbase d + e) t) := by
  simp only [distanceSymbol, hm]

section Match

variable {s : State} {d length : Nat} (hm : s.work.matchLen = some length)
include hm

/-- The distance's extra bits are not all there (R202). -/
theorem distanceSymbol_starved (h : s.work.endBit < s.work.bitPos + dextra d) :
    distanceSymbol d s = .next (raise .starved s) := by
  rw [distanceSymbol_eq hm, readBits_starved h, Res.bind_raised, finish_raised]

/-- The distance's extra bits are there: the checks and the copy are next (R202). -/
theorem distanceSymbol_reads (h : s.work.bitPos + dextra d ≤ s.work.endBit) :
    ∃ w, distanceSymbol d s =
      finish (copyMatch length (dbase d + s.bits s.work.bitPos (dextra d)) (s.movedBy (dextra d) w)) := by
  obtain ⟨w, hw⟩ := readBits_bind h
  exact ⟨w, by rw [distanceSymbol_eq hm, hw]; rfl⟩

end Match

/-- The copy: only the cursor, OUT, OUT_POS and the pending length change, and each byte of the match is the byte
`distance` back (R204, R205). -/
theorem copyMatch_copies {length distance n : Nat} {s : State} {w : Work} (hpos : 1 ≤ distance)
    (hrange : distance ≤ s.work.outPos) (hcap : s.work.outPos + length ≤ s.work.cap) :
    ∃ t, copyMatch length distance (s.movedBy n w) = .ok () t ∧
      t = { s with
        outMem := t.outMem
        work := { s.work.withCursor (s.work.bitPos + n) w with
          outPos := s.work.outPos + length
          matchLen := none } } ∧
      (∀ i, i < length → t.read .out (s.work.outPos + i) = s.read .out (s.work.outPos - distance + i % distance)) ∧
      SameOutside .out s.work.outPos length s t := by
  refine ⟨{ copyBack distance length (s.movedBy n w) with work.matchLen := none }, ?ok, ?frame,
    fun _ hi => copyBack_read distance length (s.movedBy n w) hpos hrange hi,
    fun _ hx => copyBack_read_outside distance length (s.movedBy n w) hx⟩
  case ok => exact (if_neg (Nat.not_lt.2 hrange)).trans (if_neg (Nat.not_lt.2 hcap))
  case frame => rw [copyBack_eq]; rfl

/-- Settles O30: the statement's rows are the ROM's, and each ends in `copyMatch_copies`. -/
theorem distanceSymbols : Obligations.DistanceSymbols := by
  intro s length hm
  change ∀ row ∈ distanceElements.zip (dbaseRom.zip dextraRom), _
  intro row hrow
  obtain ⟨i, d, rfl, hformat, hbase, hexec⟩ := exists_distanceSymbol hrow
  intro distance hbits hrange hcap
  obtain ⟨w, hw⟩ := distanceSymbol_reads hm hbits
  obtain ⟨t, ht, heq, hbytes, hother⟩ :=
    copyMatch_copies (n := dextra d) (w := w) (Nat.le_add_right_of_le hbase) hrange hcap
  have hnext : exec i s = .next t := by rw [hexec, hw, ht, finish_ok]
  refine ⟨t, hnext, ?kept, ?pix, ?phase, ?work, hbytes, hother,
    fun hs => exec_stable windowOk_stable (by rw [hformat]; rfl) hs hnext⟩
  case kept => rw [heq]; exact ⟨.refl s, rfl, rfl, rfl⟩
  case pix => rw [heq]; exact fun _ => rfl
  case phase => rw [heq]
  case work => rw [heq]; rfl

/-- Settles O31: `distanceSymbol` reads, then `copyMatch` tests the distance and the room. -/
theorem matchFailures : Obligations.MatchFailures := by
  intro s length hm
  change ∀ row ∈ distanceElements.zip (dbaseRom.zip dextraRom), _
  intro row hrow
  obtain ⟨i, d, rfl, -, -, hexec⟩ := exists_distanceSymbol hrow
  have raised : ∀ c n w, exec i s = finish (.raised c (s.movedBy n w)) →
      ∃ t, exec i s = .next t ∧ Failed c s t ∧ SameMem .out s t :=
    fun c n w h => ⟨_, h, .of_raise (.refl s) c, fun _ => rfl⟩
  refine ⟨fun h => ?starved, fun h hrange => ?range, fun h hrange hcap => ?room⟩
  case starved => exact ⟨_, (hexec s).trans (distanceSymbol_starved hm h), .of_raise (.refl s) _, fun _ => rfl⟩
  case range =>
    obtain ⟨w, hw⟩ := distanceSymbol_reads hm h
    exact raised _ _ w ((hexec s).trans (hw.trans (congrArg finish (if_pos hrange))))
  case room =>
    obtain ⟨w, hw⟩ := distanceSymbol_reads hm h
    exact raised _ _ w ((hexec s).trans
      (hw.trans (congrArg finish ((if_neg (Nat.not_lt.2 hrange)).trans (if_pos hcap)))))

end Sys2Proof.Machine

namespace Sys2Proof.Machine

/-! ### The step of phase BODY (spec/43_inflate_symbols.md R200, spec/46_commands.md R394) -/

/-- What the numbers of format LL from 286 on and of format DIST from 30 on decode to: an element that only raises
BAD_SYMBOL, or a refusal. -/
def badSymbols : List (Except DecodeError Instr) :=
  [.ok .ll286, .ok .ll287, .ok .dist30, .ok .dist31, .error .symbol, .error .tooWide]

theorem badSymbols_raise : ∀ r ∈ badSymbols, ∀ v, (Act.ofDecode r v).outcome = .next (raise .badSymbol v) := by
  simp only [badSymbols, List.forall_mem_cons]
  exact ⟨fun _ => rfl, fun _ => rfl, fun _ => rfl, fun _ => rfl, fun _ => rfl, fun _ => rfl,
    fun _ h => absurd h List.not_mem_nil⟩

theorem decode_tooWide {f : Format} {y : Nat} (h : 2 ^ f.width ≤ y) : decodeWord f y = .error .tooWide :=
  if_neg (Nat.not_lt.2 h)

/-- The literal/length numbers that are no literal, block end or length (R286, R287). -/
theorem decode_ll_mem_badSymbols {y : Nat} (h : 286 ≤ y) : decodeWord .ll y ∈ badSymbols := by
  have key : ∀ k : Fin 226, decodeWord .ll (286 + k.val) ∈ badSymbols := by decide +kernel
  rcases Nat.lt_or_ge y 512 with hlt | hge
  · obtain ⟨k, rfl⟩ := Nat.exists_eq_add_of_le h
    exact key ⟨k, by omega⟩
  · rw [decode_tooWide (f := .ll) hge]
    decide

/-- The distance numbers that are no distance (R330, R331). -/
theorem decode_dist_mem_badSymbols {d : Nat} (h : 30 ≤ d) : decodeWord .dist d ∈ badSymbols := by
  rcases Nat.lt_or_ge d 32 with hlt | hge
  · interval_cases d <;> decide
  · rw [decode_tooWide (f := .dist) hge]
    decide

theorem decode_eob : decodeWord .ll 256 = .ok .eob := by decide

/-- A decoded symbol leaves the cursor behind its code (R153). -/
theorem eq_advance_of_huffDecode {table : Huff} {s v : State} {y : Nat} (h : huffDecode table s = .ok y v) :
    ∃ l, v = advance l s := by
  unfold huffDecode consume at h
  split at h
  · cases h
  · next l _ =>
    split at h
    · cases h
    · cases h
      exact ⟨l, rfl⟩

/-- The step of a symbol's fetch, by what its table finds and what the number found means. -/
theorem fetchSymbol_outcome {f : Format} {table : Huff} {s : State} {g : Nat → State → Res Unit}
    (h : ∀ y v, huffDecode table s = .ok y v → (Act.ofDecode (decodeWord f y) v).outcome = finish (g y v)) :
    (fetchSymbol f table s).outcome = finish ((huffDecode table s).bind g) := by
  unfold fetchSymbol
  cases hd : huffDecode table s with
  | ok y v => exact h y v hd
  | raised c v => rfl

/-- A match behind its length symbol and that symbol's extra bits: the distance symbol, its extra bits and the copy
(R202 to R204). -/
def matchTail (length : Nat) (s : State) : Res Unit :=
  (huffDecode s.work.dt s).bind fun d s =>
    if d ≥ 30 then .raised .badSymbol s
    else (readBits (dextra d) s).bind fun e s => copyMatch length (dbase d + e) s

/-- The engine's step behind a length symbol is the rest of the match. -/
theorem fetchBody_matchTail {u : State} {length : Nat} (hm : u.work.matchLen = some length) :
    (fetchBody u).outcome = finish (matchTail length u) := by
  rw [fetchBody_dist (by simp [hm])]
  refine fetchSymbol_outcome fun d v hv => ?_
  obtain ⟨l, rfl⟩ := eq_advance_of_huffDecode hv
  by_cases hd : d ≥ 30
  · rw [if_pos hd]
    exact badSymbols_raise _ (decode_dist_mem_badSymbols hd) _
  · rw [if_neg hd]
    obtain ⟨i, hi, -, hexec⟩ := decode_distance (d := d) (by omega)
    rw [ofDecode_run hi, hexec, distanceSymbol_eq ((advance_work_matchLen l u).trans hm)]

/-- R200's step behind a literal/length symbol's code. -/
def bodyTail (y : Nat) (s : State) : Res Unit :=
  if y < 256 then
    if s.work.outPos + 1 > s.work.cap then .raised .outCapacity s else .ok () (putOut (BitVec.ofNat 8 y) s)
  else if y = 256 then .ok () (blockEnd s)
  else if y ≥ 286 then .raised .badSymbol s
  else (readBits (lextra y) s).bind fun e s =>
    matchTail (lbase y + e) { s with work.matchLen := some (lbase y + e) }

theorem bodyStep_eq (s : State) : bodyStep s = finish ((huffDecode s.work.llt s).bind bodyTail) := rfl

/-- A literal/length symbol's element is R200's step behind the symbol's code, or the part of it that ends with a
length. -/
theorem body_element (y : Nat) (v : State) :
    (Act.ofDecode (decodeWord .ll y) v).outcome = finish (bodyTail y v) ∨
      ∃ u length, (Act.ofDecode (decodeWord .ll y) v).outcome = .next u ∧ Touched v u ∧ u.phase = v.phase ∧
        u.work.matchLen = some length ∧ bodyTail y v = matchTail length u := by
  unfold bodyTail
  by_cases hlit : y < 256
  · rw [if_pos hlit, ofDecode_run (decode_lit hlit)]
    left
    change execLit _ v = _
    unfold execLit
    split <;> rfl
  by_cases heob : y = 256
  · rw [if_neg hlit, if_pos heob, heob, ofDecode_run decode_eob]
    exact .inl rfl
  by_cases hbad : y ≥ 286
  · rw [if_neg hlit, if_neg heob, if_pos hbad]
    exact .inl (badSymbols_raise _ (decode_ll_mem_badSymbols hbad) v)
  rw [if_neg hlit, if_neg heob, if_neg hbad]
  obtain ⟨i, hi, -, hexec⟩ := decode_length (y := y) (by omega) (by omega)
  rw [ofDecode_run hi, hexec, lengthSymbol]
  rcases readBits_cases (lextra y) v with ⟨-, hread⟩ | ⟨-, hread⟩ <;> rw [hread]
  · exact .inl rfl
  · exact .inr ⟨_, _, rfl, (Touched.advance _ v).trans (.of_eq rfl), advance_phase _ v, rfl, rfl⟩

/-- Settles O32: a symbol's element is R200's step, and a length symbol's, with the step behind it, the whole match. -/
theorem bodyStepRefined : Obligations.BodyStepRefined := by
  intro s hhost hbusy hbody hnone
  have hstep : ∀ u : State, u.host = [] → u.runState = .busy → u.phase = .body → step u = (fetchBody u).outcome :=
    fun u hh hb hp => by rw [EngineTurn.step (.inl ⟨hh, rfl⟩), engineAct_body hb hp]
  rw [bodyStep_eq, hstep s hhost hbusy hbody, fetchBody_ll hnone, fetchSymbol]
  cases hd : huffDecode s.work.llt s with
  | raised c v => exact .inl rfl
  | ok y v =>
    refine (body_element y v).imp id ?_
    rintro ⟨u, length, hnext, htouched, hphase, hlength, htail⟩
    obtain ⟨l, rfl⟩ := eq_advance_of_huffDecode hd
    obtain ⟨⟨⟨-, -, -, -, -, -, -, hsame, -⟩, hrun, -⟩, -⟩ := (Touched.advance l s).trans htouched
    have hh : u.host = [] := hsame.trans hhost
    have hb : u.runState = .busy := hrun.trans hbusy
    have hp : u.phase = .body := hphase.trans ((advance_phase l s).trans hbody)
    refine ⟨u, hnext, hh, hb, hp, by simp [hlength], ?_⟩
    rw [hstep u hh hb hp, fetchBody_matchTail hlength, Res.bind_ok, htail]

end Sys2Proof.Machine

namespace Sys2Proof.Machine

/-! ### The scanline reconstructor (spec/44_scanline.md R342 to R352) -/

/-- A filtered row leaves all but OUT, ROW and PHASE alone; after the last row the assembler begins (R351, R352). -/
theorem rowFiltered_filterFrom_moves (pred : Nat → Nat → Nat → Nat) (y n x : Nat) (s : State) :
    let t := rowFiltered (filterFrom pred y n x s)
    SameInputs s t ∧ SameStatus s t ∧ SameMem .pix s t ∧
      t.work = { s.work with row := if s.work.row + 1 = s.work.cfg.height.toNat then 0 else s.work.row + 1 } ∧
      t.phase = if s.work.row + 1 = s.work.cfg.height.toNat then .assemble else s.phase := by
  rw [filterFrom_eq, rowFiltered]
  split
  · exact ⟨.refl s, ⟨rfl, rfl, rfl⟩, fun _ => rfl, rfl, rfl⟩
  · exact ⟨.refl s, ⟨rfl, rfl, rfl⟩, fun _ => rfl, rfl, rfl⟩

/-- Whatever the predictor, the row's bytes are filtered in place and ROW moves on (R342, R351). -/
theorem reconstructRow_reconstructed (pred : Nat → Nat → Nat → Nat) {s : State} (hbpp : 1 ≤ s.work.bpp) :
    ∃ t, reconstructRow pred s = .next t ∧ RowReconstructed pred s t := by
  obtain ⟨hinputs, hstatus, hpix, hwork, hphase⟩ :=
    rowFiltered_filterFrom_moves pred s.work.row s.work.rowBytes 0 s
  refine ⟨_, rfl, hinputs, hstatus, hpix, hwork, hphase, ?outside, ?row⟩
  case outside =>
    intro a ha
    rw [rowFiltered_read, filterFrom_read_outside _ _ _ _ _ ha]
  case row =>
    intro x hx
    have hread := filterFrom_read pred s.work.row s.work.rowBytes 0 s hbpp (by omega) (Nat.zero_le x) (by omega)
    simp only [State.leftByte, State.upByte, State.upLeftByte, filterFrom_work] at hread
    simp only [rowFiltered_read]
    exact hread

/-- Settles O33: the five elements are `reconstructRow`, each with its predictor. -/
theorem filterRows : Obligations.FilterRows := fun _ hbpp =>
  ⟨reconstructRow_reconstructed _ hbpp, reconstructRow_reconstructed _ hbpp, reconstructRow_reconstructed _ hbpp,
    reconstructRow_reconstructed _ hbpp, reconstructRow_reconstructed _ hbpp⟩

/-- Settles O34: the three answers of `paeth`, by which distance is the least. -/
theorem paethNearest : Obligations.PaethNearest := by
  intro a b c p
  have left (hb : (p - a).natAbs ≤ (p - b).natAbs) (hc : (p - a).natAbs ≤ (p - c).natAbs) : paeth a b c = a :=
    if_pos ⟨hb, hc⟩
  have up (ha : (p - b).natAbs < (p - a).natAbs) (hc : (p - b).natAbs ≤ (p - c).natAbs) : paeth a b c = b :=
    (if_neg fun h => Nat.not_le.2 ha h.1).trans (if_pos hc)
  have upLeft (ha : (p - c).natAbs < (p - a).natAbs) (hb : (p - c).natAbs < (p - b).natAbs) : paeth a b c = c :=
    (if_neg fun h => Nat.not_le.2 ha h.2).trans (if_neg (Nat.not_le.2 hb))
  refine ⟨left, up, upLeft, ?_⟩
  simp only [List.forall_mem_cons]
  by_cases ha : (p - a).natAbs ≤ (p - b).natAbs ∧ (p - a).natAbs ≤ (p - c).natAbs
  · rw [left ha.1 ha.2]
    exact ⟨le_rfl, ha.1, ha.2, fun _ h => absurd h List.not_mem_nil⟩
  · by_cases hb : (p - b).natAbs ≤ (p - c).natAbs
    · rw [up (by omega) hb]
      exact ⟨by omega, le_rfl, hb, fun _ h => absurd h List.not_mem_nil⟩
    · rw [upLeft (by omega) (by omega)]
      exact ⟨by omega, by omega, le_rfl, fun _ h => absurd h List.not_mem_nil⟩

/-- With nothing above, the left neighbour is at distance 0 (R347). -/
theorem paeth_zero_zero (a : Nat) : paeth a 0 0 = a := (paethNearest a 0 0).1 (by simp) (by simp)

/-- On row 0 predictors that agree on the left neighbour reconstruct alike (R342). -/
theorem reconstructRow_first {p q : Nat → Nat → Nat → Nat} (h : ∀ a, p a 0 0 = q a 0 0) {s : State}
    (hrow : s.work.row = 0) : reconstructRow p s = reconstructRow q s := by
  rw [reconstructRow, reconstructRow, hrow, filterFrom_first h]

/-- The predictor 0 leaves OUT as it is (R343). -/
theorem RowReconstructed.sameMem {s t : State} (h : RowReconstructed (fun _ _ _ => 0) s t) : SameMem .out s t := by
  obtain ⟨-, -, -, -, -, houtside, hrow⟩ := h
  intro a
  by_cases ha : s.work.rowAddr s.work.row ≤ a ∧ a < s.work.rowAddr s.work.row + s.work.rowBytes
  · obtain ⟨x, rfl⟩ := Nat.exists_eq_add_of_le ha.1
    rw [hrow x (by omega), Nat.add_zero, BitVec.ofNat_toNat, BitVec.setWidth_eq]
  · exact houtside a (by omega)

/-- Settles O35: on row 0 FILT_PAETH has the predictor of FILT_SUB and FILT_UP that of FILT_NONE. -/
theorem firstRow : Obligations.FirstRow := by
  intro s hbpp
  obtain ⟨t, hnone, hrow⟩ := reconstructRow_reconstructed (fun _ _ _ => 0) hbpp
  have hup (h0 : s.work.row = 0) : exec .filtUp s = .next t :=
    (reconstructRow_first (q := fun _ _ _ => 0) (fun _ => rfl) h0).trans hnone
  exact ⟨fun h0 => ⟨reconstructRow_first paeth_zero_zero h0, t, hup h0, hrow.sameMem⟩, t, hnone, hrow.sameMem⟩

end Sys2Proof.Machine

namespace Sys2Proof.Machine

/-! ### The commands and the idle engine (spec/46_commands.md R391, R393, R394, R396) -/

/-- Settles O12: the turn is the engine's, which acts only while BUSY. -/
theorem idleEngine : Obligations.IdleEngine := fun _ hhost hb =>
  (EngineTurn.step (.inl ⟨hhost, rfl⟩)).trans (engine_idle hb)

/-- Settles O41: START tests BUSY, and a new run keeps IN, PLTE and TRNS with the generation of their bytes. -/
theorem Commands.startRun : Obligations.StartRun := by
  intro s
  refine ⟨fun hb => ⟨Machine.startRun s, if_neg hb, ?_⟩, fun hb => if_pos hb⟩
  exact ⟨rfl, rfl, rfl, rfl, rfl, rfl, rfl, rfl, fun _ => rfl, fun _ => rfl, fun _ => rfl⟩

/-- Settles O42: RESET and a hardware reset are the same operation on the state. -/
theorem Commands.resetEngine : Obligations.ResetEngine := fun s =>
  ⟨⟨Machine.resetEngine s, rfl, rfl, rfl, rfl, rfl, rfl, rfl, rfl, rfl⟩, fun _ h => step_of_host h⟩

/-! ### The engine always has a next state (spec/46_commands.md R394, spec/60_exceptions.md R420) -/

/-- Where PHASE is IDLE only outside BUSY, the engine's turn has a next state: a distance symbol is fetched only behind
a length. -/
theorem exists_engine_next {u : State} (hs : StatusInv u) : ∃ t, (engineAct u).outcome = .next t := by
  by_cases hb : u.runState = .busy
  case neg => exact ⟨u, engine_idle hb⟩
  obtain ⟨hbusy, -⟩ := hs
  by_cases hc : u.phase = .check
  · rw [engine_check hb hc]
    rcases checkPhase_cases u with ⟨c, v, -, e, -⟩ | e <;> exact ⟨_, e⟩
  · obtain ⟨f, hends, hdist, -⟩ := engine_ends u hb (hbusy.1 hb) hc
    generalize (engineAct u).outcome = o at hends ⊢
    cases hends with
    | ran t => exact ⟨t, rfl⟩
    | failed c v => exact ⟨_, rfl⟩
    | done v => exact ⟨_, rfl⟩
    | noMatch hf hm => exact absurd hm (hdist hf)

theorem EngineTurn.statusInv {s u : State} (h : EngineTurn s u) (hs : StatusInv s) : StatusInv u := by
  rcases h with ⟨-, rfl⟩ | ⟨rest, -, rfl⟩ <;> exact hs

/-- Settles O58: the status registers alone make it so. -/
theorem alwaysSteps : Obligations.AlwaysSteps := by
  intro s u ⟨_, _, hs, _⟩ hturn
  rw [hturn.step]
  exact exists_engine_next (hturn.statusInv hs)

/-! ### Every run ends (spec/46_commands.md R398)

A step of the stream consumes a bit, a step of DEFILTER or ASSEMBLE a row, and every other phase is left by its step. -/

/-- How many steps a run has left at most, by phase. -/
def stepsLeft (s : State) : Nat :=
  match s.phase with
  | .idle | .stored | .fixed => 0
  | .check => 8 * s.cfg.inLen.toNat + 2 * s.cfg.height.toNat + 3
  | .zhdr => 8 * s.work.cfg.inLen.toNat + 2 * s.work.cfg.height.toNat + 2
  | .blkhdr | .dynhdr | .body => s.work.endBit - s.work.bitPos + 2 * s.work.cfg.height.toNat + 2
  | .infend => 2 * s.work.cfg.height.toNat + 1
  | .defilter => 2 * s.work.cfg.height.toNat - s.work.row
  | .assemble => s.work.cfg.height.toNat - s.work.row

/-- A run that a cause or the last row has ended has no step left. -/
theorem stepsLeft_idle {s : State} (hp : s.phase = .idle) : stepsLeft s = 0 := by
  simp only [stepsLeft, hp]

theorem stepsLeft_stream {s : State} (hp : s.phase ∈ [.blkhdr, .dynhdr, .body]) :
    stepsLeft s = s.work.endBit - s.work.bitPos + 2 * s.work.cfg.height.toNat + 2 := by
  simp only [List.mem_cons, List.not_mem_nil, or_false] at hp
  rcases hp with hp | hp | hp <;> simp only [stepsLeft, hp]

/-- The cursor of `v` has moved on from that of `u`; END_BIT and the copy of the registers are the same. -/
structure PastCursor (u v : State) : Prop where
  bitPos : u.work.bitPos < v.work.bitPos
  endBit : v.work.endBit = u.work.endBit
  cfg : v.work.cfg = u.work.cfg

/-- No operation of the stream moves the cursor back. -/
theorem pastCursor_stable (u : State) : StreamStable (PastCursor u) where
  advance h _ _ := ⟨h.bitPos.trans_le (by simp), by simp [h.endBit], by simp [h.cfg]⟩
  align h := ⟨h.bitPos.trans_le (by simp only [align_work_bitPos]; omega), by simp [h.endBit], by simp [h.cfg]⟩
  putOut _ h _ := ⟨h.bitPos, h.endBit, h.cfg⟩
  congr h e := ⟨e.bitPos ▸ h.bitPos, e.endBit.trans h.endBit, e.cfg.trans h.cfg⟩

theorem PastCursor.advance {u : State} {n : Nat} (hn : 1 ≤ n) : PastCursor u (advance n u) :=
  ⟨by simp only [advance_work_bitPos]; omega, by simp, by simp⟩

/-- The fetch of an element of format `f` in `u` ended the run, or found an element by consuming at least one bit. -/
def FetchedPast (f : Format) (u t : State) : Prop :=
  t.phase = .idle ∨ ∃ v i, Fetched u v ∧ PastCursor u v ∧ i.format = f ∧ exec i v = .next t

theorem RanTo.fetchedPast {f : Format} {u v t : State} (h : RanTo f v t) (hf : Fetched u v) (hv : PastCursor u v) :
    FetchedPast f u t := by
  rcases h with ⟨c, rfl⟩ | ⟨i, hi, he⟩
  · exact .inl rfl
  · exact .inr ⟨v, i, hf, hv, hi, he⟩

/-- A code has at least one bit (R153). -/
theorem fetchSymbol_past {f : Format} {table : Huff} {u t : State} (h : (fetchSymbol f table u).outcome = .next t) :
    FetchedPast f u t := by
  cases hl : table.lookup u.peekbit with
  | none => rw [fetchSymbol_badCode hl] at h; cases h; exact .inl rfl
  | some p =>
    obtain ⟨y, l⟩ := p
    obtain ⟨-, hl1, hl15⟩ := Huff.lookup_bounds hl
    by_cases he : u.work.bitPos + l ≤ u.work.endBit
    · rw [fetchSymbol_ok hl he] at h
      exact (ofDecode_next h).fetchedPast (.advance .refl l (by omega) he) (.advance hl1)
    · rw [fetchSymbol_starved hl (by omega)] at h; cases h; exact .inl rfl

/-- A block header has three bits (R172). -/
theorem fetchBlock_past {u t : State} (h : (fetchBlock u).outcome = .next t) : FetchedPast .blk u t := by
  by_cases he : u.work.bitPos + 3 ≤ u.work.endBit
  · rw [fetchBlock_ok he] at h
    have h1 : u.work.bitPos + 1 ≤ u.work.endBit := by omega
    have h2 : (advance 1 u).work.bitPos + 2 ≤ (advance 1 u).work.endBit := by
      simp only [advance_work_bitPos, advance_work_endBit]; omega
    exact (ofDecode_next h).fetchedPast (.advance (.advance .refl 1 (by omega) h1) 2 (by omega) h2)
      ((pastCursor_stable u).advance (.advance (Nat.le_refl 1)) (by omega) h2)
  · obtain ⟨v, -, e⟩ := fetchBlock_starved (Nat.lt_of_not_le he)
    rw [e] at h; cases h; exact .inl rfl

section Lowers

variable {u t : State} (hb : u.runState = .busy) (hu : Underway u) (h : (engineAct u).outcome = .next t)
include hb h

/-- In the phases that read the stream an element is fetched, of a format of the phase. -/
theorem stream_past (hp : u.phase ∈ [.blkhdr, .dynhdr, .body]) :
    ∃ f, inStream f = true ∧ u.phase = streamPhase f ∧ FetchedPast f u t := by
  simp only [List.mem_cons, List.not_mem_nil, or_false] at hp
  rcases hp with hp | hp | hp
  · rw [engineAct_blkhdr hb hp] at h
    exact ⟨.blk, rfl, hp, fetchBlock_past h⟩
  · rw [engineAct_dynhdr hb hp] at h
    exact ⟨.clsym, rfl, hp, fetchSymbol_past h⟩
  · rw [engineAct_body hb hp] at h
    by_cases hm : u.work.matchLen = none
    · rw [fetchBody_ll hm] at h
      exact ⟨.ll, rfl, hp, fetchSymbol_past h⟩
    · rw [fetchBody_dist hm] at h
      exact ⟨.dist, rfl, hp, fetchSymbol_past h⟩

theorem check_lowers (hp : u.phase = .check) : stepsLeft t < stepsLeft u := by
  rw [engine_check hb hp] at h
  rcases checkPhase_cases u with ⟨c, v, -, e, -⟩ | e <;> rw [e] at h <;> cases h
  · simp [stepsLeft, hp]
  · simp [stepsLeft, hp, setGeometry]

theorem zhdr_lowers (hp : u.phase = .zhdr) : stepsLeft t < stepsLeft u := by
  rcases zhdr_next hb h hp with ⟨c, rfl⟩ | ⟨i, hi, he⟩
  · simp [stepsLeft, hp]
  rcases exec_zlib_next hi he with ⟨c, rfl⟩ | ⟨h6, rfl⟩
  · simp [stepsLeft, hp]
  · simp only [stepsLeft, hp, initReader_work_endBit, initReader_work_bitPos, initReader_work_cfg]
    omega

include hu in
/-- At least one bit is consumed, and the cursor does not pass END_BIT (R38). -/
theorem stream_lowers (hp : u.phase ∈ [.blkhdr, .dynhdr, .body]) : stepsLeft t < stepsLeft u := by
  obtain ⟨hr, hs, -⟩ := hu.runAt hp
  have ht := (engine_stable runAt_stable hb hp hr h).bitPos_le
  rw [stepsLeft_stream hp]
  obtain ⟨f, hf, hph, hidle | ⟨v, i, hv, hpast, rfl, he⟩⟩ := stream_past hb h hp
  · rw [stepsLeft_idle hidle]; omega
  have hsv : StageInv v := by rw [hv.eq]; exact hs
  obtain ⟨hpt, -⟩ := exec_stage hf (by rw [hv.eq]; exact hph) hsv he
  obtain ⟨hpos, hend, hcfg⟩ := exec_stable (pastCursor_stable u) hf hpast he
  rw [← hcfg]
  by_cases hstream : t.phase ∈ [.blkhdr, .dynhdr, .body]
  · rw [stepsLeft_stream hstream]; omega
  · have hout : t.phase = .idle ∨ t.phase = .infend := by
      revert hpt hstream; generalize t.phase = p; revert p; decide
    rcases hout with hout | hout <;> simp only [stepsLeft, hout] <;> omega

theorem infend_lowers (hp : u.phase = .infend) : stepsLeft t < stepsLeft u := by
  rcases infend_next hb h hp with ⟨c, rfl⟩ | ⟨-, rfl⟩ <;> simp [stepsLeft, hp]

include hu in
/-- A row of the image is left (R351). -/
theorem defilter_lowers (hp : u.phase = .defilter) : stepsLeft t < stepsLeft u := by
  obtain ⟨-, ⟨-, -, -, -, hrow⟩, -⟩ := hu
  obtain ⟨hrow, -⟩ := hrow (.inl hp)
  have hleft : stepsLeft u = 2 * u.work.cfg.height.toNat - u.work.row := by simp only [stepsLeft, hp]
  rcases defilter_next hb h hp with ⟨c, rfl⟩ | ⟨i, hi, he⟩
  · rw [hleft, stepsLeft_idle rfl]; omega
  obtain ⟨pred, rfl⟩ := exec_row_next hi he
  obtain ⟨-, -, -, hwork, hphase⟩ := rowFiltered_filterFrom_moves pred u.work.row u.work.rowBytes 0 u
  rw [hleft]
  by_cases hlast : u.work.row + 1 = u.work.cfg.height.toNat
  · rw [if_pos hlast] at hwork hphase
    simp only [stepsLeft, hphase, hwork]; omega
  · rw [if_neg hlast] at hwork hphase
    simp only [stepsLeft, hphase, hp, hwork]; omega

include hu in
/-- A row of the image is left (R362). -/
theorem assemble_lowers (hp : u.phase = .assemble) : stepsLeft t < stepsLeft u := by
  obtain ⟨-, ⟨-, -, -, -, hrow⟩, -⟩ := hu
  obtain ⟨hrow, -⟩ := hrow (.inr hp)
  have hleft : stepsLeft u = u.work.cfg.height.toNat - u.work.row := by simp only [stepsLeft, hp]
  rw [hleft]
  rcases assemble_next hb h hp with ⟨c, rfl⟩ | ⟨i, hi, he⟩
  · rw [stepsLeft_idle rfl]; omega
  obtain ⟨pixel, v, ⟨hv, rfl⟩ | ⟨c, -, rfl⟩⟩ := exec_pix_next hi he
  · rw [← pixelsFrom_work hv] at hrow ⊢
    rw [rowAssembled]
    split
    · rw [stepsLeft_idle rfl]; omega
    · simp only [stepsLeft, pixelsFrom_phase hv, hp]; omega
  · rw [stepsLeft_idle rfl]; omega

end Lowers

/-- Every step of a run lowers the number of steps left. -/
theorem engine_lowers {u t : State} (hb : u.runState = .busy) (hs : StatusInv u) (hu : Underway u)
    (h : (engineAct u).outcome = .next t) : stepsLeft t < stepsLeft u := by
  obtain ⟨-, hstored, hfixed, -⟩ := hs
  cases hp : u.phase with
  | idle => rw [engine_fault hb hp] at h; cases h
  | stored => exact absurd hp hstored
  | fixed => exact absurd hp hfixed
  | check => exact check_lowers hb h hp
  | zhdr => exact zhdr_lowers hb h hp
  | blkhdr | dynhdr | body => exact stream_lowers hb hu h (by rw [hp]; decide)
  | infend => exact infend_lowers hb h hp
  | defilter => exact defilter_lowers hb hu h hp
  | assemble => exact assemble_lowers hb hu h hp

/-- A run left to the engine ends within the steps left. -/
theorem exists_runSteps_end {s : State} (hinv : Inv s) (hhost : s.host = []) (hb : s.runState = .busy) :
    ∃ n t, n ≤ stepsLeft s ∧ runSteps n s = .next t ∧ (t.runState = .done ∨ t.runState = .failed) := by
  induction hk : stepsLeft s using Nat.strong_induction_on generalizing s with
  | _ k ih =>
    subst hk
    have hturn : EngineTurn s s := .inl ⟨hhost, rfl⟩
    obtain ⟨t, hstep⟩ := alwaysSteps s s hinv hturn
    have hengine := hturn.step.symm.trans hstep
    obtain ⟨-, -, hs, hu⟩ := id hinv
    have hlt := engine_lowers hb hs hu hengine
    by_cases hbt : t.runState = .busy
    · obtain ⟨⟨-, -, -, -, -, -, -, hhostt, -⟩, -⟩ := engine_frame hengine
      obtain ⟨n, v, hn, hrun, hend⟩ := ih _ hlt (invKept s t hinv hstep) (hhostt.trans hhost) hbt rfl
      exact ⟨n + 1, v, by omega, by rw [runSteps, hstep]; exact hrun, hend⟩
    · obtain ⟨-, hend⟩ := engine_runState hengine fun e => hbt (e.trans hb)
      exact ⟨1, t, by omega, by rw [runSteps, hstep]; rfl, hend.imp And.left And.left⟩

/-- In every phase the steps left are within the bound of R398: CHECK's copy of IN_LEN and HEIGHT is what the registers
hold, and END_BIT is at most 8 x IN_LEN. -/
theorem stepsLeft_le {s : State} (hu : Underway s) :
    stepsLeft s ≤ 8 * s.cfg.inLen.toNat + 2 * s.cfg.height.toNat + 3 := by
  obtain ⟨-, ⟨hgeometry, hstream, -⟩, -⟩ := hu
  have hcopy (hc : s.phase.checked = true) : s.work.cfg = s.cfg := (hgeometry hc).1
  have hend (hst : s.phase.streaming = true) : s.work.endBit = 8 * (s.work.cfg.inLen.toNat - 4) := by
    obtain ⟨-, hend, -⟩ := hstream (.inl hst)
    exact hend
  unfold stepsLeft
  cases hp : s.phase with
  | idle | stored | fixed => exact Nat.zero_le _
  | check => exact le_rfl
  | zhdr | infend | defilter | assemble =>
    rw [← hcopy (by rw [hp]; rfl)]
    dsimp only
    omega
  | blkhdr | dynhdr | body =>
    have := hend (by rw [hp]; rfl)
    rw [← hcopy (by rw [hp]; rfl)]
    dsimp only
    omega

/-- Settles O59: the steps left are within the bound, and the run ends within them. -/
theorem runsEnd : Obligations.RunsEnd := by
  intro s hinv hhost hb
  obtain ⟨n, t, hn, hrun, hend⟩ := exists_runSteps_end hinv hhost hb
  obtain ⟨-, -, -, hu⟩ := hinv
  exact ⟨n, t, hn.trans (stepsLeft_le hu), hrun, hend⟩

end Sys2Proof.Machine

namespace Sys2Proof.Machine

/-! ### The causes a step can raise (spec/60_exceptions.md R411, R415)

The causes of a phase are those of its fetch and those of the elements of its format. Each operation is bounded by a
list of causes, and a step by the lists of its parts. -/

/-- Every failure of an operation has one of the causes listed. -/
inductive Res.Raises {α : Type} (cs : List Cause) : Res α → Prop where
  | ok {a : α} {t : State} : Res.Raises cs (.ok a t)
  | raised {c : Cause} {t : State} (hc : c ∈ cs) : Res.Raises cs (.raised c t)

/-- A step that ends in FAILED has one of the causes listed. -/
def FailsOnly (cs : List Cause) (o : Out) : Prop :=
  ∀ t, o = .next t → t.runState = .failed → t.errCause ∈ cs

/-- The causes an element of a format can raise once it is fetched. -/
def elementCauses : Format → List Cause
  | .zlib => [.zlibShort]
  | .blk => [.starved, .blockType, .storedLen, .outCapacity, .table]
  | .clsym => [.starved, .clRepeat, .table]
  | .ll => [.starved, .badSymbol, .outCapacity]
  | .dist => [.starved, .badSymbol, .distRange, .outCapacity]
  | .pix => [.paletteIndex]
  | .row | .ctrl => []

/-- The causes a step of a phase can raise (R411). -/
def Phase.causes : Phase → List Cause
  | .check => [.inSize, .dimension, .colorType, .depth, .noPalette, .descriptor, .outSize, .pixSize]
  | .zhdr => [.zlibShort, .zlibMethod, .zlibFdict]
  | .blkhdr => [.starved, .blockType, .storedLen, .outCapacity, .table]
  | .dynhdr => [.badCode, .starved, .clRepeat, .table]
  | .body => [.badCode, .starved, .badSymbol, .distRange, .outCapacity]
  | .infend => [.shortOutput]
  | .defilter => [.filterType]
  | .assemble => [.paletteIndex]
  | .idle | .stored | .fixed => []

section Operations

variable {cs : List Cause}

theorem Res.Raises.bind {α β : Type} {r : Res α} {f : α → State → Res β} (h : r.Raises cs)
    (hf : ∀ a t, (f a t).Raises cs) : (r.bind f).Raises cs := by
  cases h with
  | ok => exact hf _ _
  | raised hc => exact .raised hc

theorem readBits_raises (h : .starved ∈ cs) (n : Nat) (s : State) : (readBits n s).Raises cs := by
  rcases readBits_cases n s with ⟨-, e⟩ | ⟨-, e⟩ <;> rw [e]
  · exact .raised h
  · exact .ok

theorem storedBytes_raises (h : .starved ∈ cs) (n : Nat) (s : State) : (storedBytes n s).Raises cs := by
  induction n generalizing s with
  | zero => exact .ok
  | succ n ih => exact (readBits_raises h 8 s).bind fun _ _ => ih _

theorem readClLens_raises (h : .starved ∈ cs) (ks : List Nat) (s : State) : (readClLens ks s).Raises cs := by
  induction ks generalizing s with
  | nil => exact .ok
  | cons k ks ih => exact (readBits_raises h 3 s).bind fun _ _ => ih _

theorem loadClt_raises (h : .table ∈ cs) (s : State) : (loadClt s).Raises cs := by
  unfold loadClt
  split
  · exact .raised h
  · exact .ok

theorem loadLlt_raises (h : .table ∈ cs) (lens : List Nat) (n : Nat) (s : State) : (loadLlt lens n s).Raises cs := by
  unfold loadLlt
  split
  · exact .raised h
  · exact .ok

theorem loadDt_raises (h : .table ∈ cs) (lens : List Nat) (n : Nat) (s : State) : (loadDt lens n s).Raises cs := by
  unfold loadDt
  split
  · exact .raised h
  · exact .ok

end Operations

theorem storedBlock_raises (s : State) : (storedBlock s).Raises (elementCauses .blk) := by
  have starved : Cause.starved ∈ elementCauses .blk := by decide
  refine (readBits_raises starved 16 _).bind fun len s => (readBits_raises starved 16 s).bind fun nlen s => ?_
  split
  · exact .raised (by decide)
  split
  · exact .raised (by decide)
  · exact (storedBytes_raises starved len s).bind fun _ _ => .ok

theorem fixedBlock_raises (s : State) : (fixedBlock s).Raises (elementCauses .blk) :=
  (loadLlt_raises (by decide) _ _ s).bind fun _ s => (loadDt_raises (by decide) _ _ s).bind fun _ _ => .ok

theorem dynHeader_raises (s : State) : (dynHeader s).Raises (elementCauses .blk) :=
  have starved : Cause.starved ∈ elementCauses .blk := by decide
  (readBits_raises starved 5 s).bind fun _ _ => (readBits_raises starved 5 _).bind fun _ _ =>
    (readBits_raises starved 4 _).bind fun _ _ => (readClLens_raises starved _ _).bind fun _ s =>
      (loadClt_raises (by decide) s).bind fun _ _ => .ok

theorem putLens_raises (r : Nat) (x : BitVec 4) (s : State) : (putLens r x s).Raises (elementCauses .clsym) := by
  unfold putLens
  dsimp only
  split
  · exact .ok
  · exact (loadLlt_raises (by decide) _ _ _).bind fun _ s => (loadDt_raises (by decide) _ _ s).bind fun _ _ => .ok

theorem runLens_raises (b n : Nat) (x : BitVec 4) (s : State) : (runLens b n x s).Raises (elementCauses .clsym) := by
  refine (readBits_raises (by decide) n s).bind fun e s => ?_
  split
  · exact .raised (by decide)
  · exact putLens_raises _ x s

theorem copyMatch_raises (length distance : Nat) (s : State) :
    (copyMatch length distance s).Raises (elementCauses .dist) := by
  unfold copyMatch
  split
  · exact .raised (by decide)
  split
  · exact .raised (by decide)
  · exact .ok

/-- A pixel that cannot be made has an index outside the palette (R374). -/
theorem pixelsFrom_raises {pixel : State → Nat → Nat → Except Cause Rgba} (hp : PixelOk pixel) (y n x : Nat)
    (s : State) : (pixelsFrom pixel y n x s).Raises (elementCauses .pix) := by
  obtain ⟨-, herror⟩ := hp
  rcases pixelsFrom_eq (pixel := pixel) y n x s with ⟨t, e, -⟩ | ⟨c, t, e, -, v, k, hc⟩ <;> rw [e]
  · exact .ok
  · exact .raised (List.mem_singleton.2 (herror v y k c hc))

/-! ### The causes an element can raise -/

section Outcomes

variable {cs : List Cause}

theorem FailsOnly.raise {c : Cause} (hc : c ∈ cs) (v : State) : FailsOnly cs (.next (raise c v)) := by
  intro t ht _
  cases ht
  exact hc

theorem FailsOnly.of_not_failed {v : State} (hv : v.runState ≠ .failed) : FailsOnly cs (.next v) := by
  intro t ht hf
  cases ht
  exact absurd hf hv

/-- A step that goes on with the run does not fail. -/
theorem FailsOnly.of_busy {v : State} (hv : v.runState = .busy) : FailsOnly cs (.next v) :=
  .of_not_failed (by simp [hv])

theorem FailsOnly.mono {cs' : List Cause} {o : Out} (h : FailsOnly cs o) (hcs : cs ⊆ cs') : FailsOnly cs' o :=
  fun t ht hf => hcs (h t ht hf)

/-- An operation that leaves the status registers alone fails with its own causes only. -/
theorem FailsOnly.finish {r : Res Unit} {s : State} (ht : r.Touches s) (hr : r.Raises cs) (hs : s.runState = .busy) :
    FailsOnly cs (finish r) := by
  cases hr with
  | raised hc => exact .raise hc _
  | ok =>
    cases ht with
    | ok h =>
      obtain ⟨⟨-, hrun, -⟩, -⟩ := h
      exact .of_busy (hrun.trans hs)

end Outcomes

theorem execZlibHdr_failsOnly {s : State} (hs : s.runState = .busy) :
    FailsOnly (elementCauses .zlib) (execZlibHdr 0 0 0 s) := by
  unfold execZlibHdr
  split
  · exact .raise (by decide) s
  · exact .of_busy (by simpa using hs)

theorem execLit_failsOnly (b : Byte) {s : State} (hs : s.runState = .busy) :
    FailsOnly (elementCauses .ll) (execLit b s) := by
  unfold execLit
  split
  · exact .raise (by decide) s
  · exact .of_busy (by simpa using hs)

theorem lengthSymbol_failsOnly (y : Nat) {s : State} (hs : s.runState = .busy) :
    FailsOnly (elementCauses .ll) (lengthSymbol y s) :=
  .finish ((readBits_touches (lextra y) s).bind fun _ _ _ _ => .ok (.of_eq rfl))
    ((readBits_raises (by decide) (lextra y) s).bind fun _ _ => .ok) hs

theorem distanceSymbol_failsOnly (d : Nat) {s : State} (hs : s.runState = .busy) :
    FailsOnly (elementCauses .dist) (distanceSymbol d s) := by
  unfold distanceSymbol
  split
  · exact fun _ ht => nomatch ht
  · exact .finish ((readBits_touches (dextra d) s).bind fun _ t _ _ => copyMatch_touches _ _ t)
      ((readBits_raises (by decide) (dextra d) s).bind fun _ t => copyMatch_raises _ _ t) hs

theorem reconstructRow_failsOnly (pred : Nat → Nat → Nat → Nat) {s : State} (hs : s.runState = .busy) :
    FailsOnly (elementCauses .row) (reconstructRow pred s) := by
  obtain ⟨⟨-, hrun, -⟩, -⟩ := Touched.filterFrom pred s.work.row s.work.rowBytes 0 s
  refine .of_busy ?_
  unfold rowFiltered
  split <;> exact hrun.trans hs

/-- A row that is assembled leaves the run BUSY, or DONE if it is the last. -/
theorem assembleRow_failsOnly {pixel : State → Nat → Nat → Except Cause Rgba} (hp : PixelOk pixel) {s : State}
    (hs : s.runState = .busy) : FailsOnly (elementCauses .pix) (assembleRow pixel s) := by
  have htouches := pixelsFrom_touches hp s.work.row s.work.cfg.width.toNat 0 s
  have hraises := pixelsFrom_raises hp s.work.row s.work.cfg.width.toNat 0 s
  unfold assembleRow
  generalize pixelsFrom pixel s.work.row s.work.cfg.width.toNat 0 s = r at htouches hraises ⊢
  cases hraises with
  | raised hc => exact .raise hc _
  | ok =>
    obtain ⟨⟨⟨-, hrun, -⟩, -⟩⟩ := htouches
    refine .of_not_failed ?_
    unfold rowAssembled
    split
    · exact show RunState.done ≠ .failed by decide
    · simp [hrun, hs]

/-- While BUSY, every element but the commands fails with a cause of its format only. -/
theorem exec_failsOnly {i : Instr} (hi : i.format ≠ .ctrl) {s : State} (hs : s.runState = .busy) :
    FailsOnly (elementCauses i.format) (exec i s) := by
  cases exec_meaning i s with
  | zlib h e => rw [h, e]; exact execZlibHdr_failsOnly hs
  | stored f h e => rw [h, e]; exact .finish (storedBlock_touches _) (storedBlock_raises _) hs
  | fixed f h e => rw [h, e]; exact .finish (fixedBlock_touches _) (fixedBlock_raises _) hs
  | dynamic f h e => rw [h, e]; exact .finish (dynHeader_touches _) (dynHeader_raises _) hs
  | reserved f h e => rw [h, e]; exact .raise (by decide) _
  | lens r x h _ e => rw [h, e]; exact .finish (putLens_touches r x s) (putLens_raises r x s) hs
  | run b n x h _ e => rw [h, e]; exact .finish (runLens_touches b n x s) (runLens_raises b n x s) hs
  | noPrevious h e => rw [h, e]; exact .raise (by decide) s
  | literal b h e => rw [h, e]; exact execLit_failsOnly b hs
  | blockEnd h e => rw [e]; exact .of_busy hs
  | length y h _ _ e => rw [h, e]; exact lengthSymbol_failsOnly y hs
  | distance d h _ e => rw [h, e]; exact distanceSymbol_failsOnly d hs
  | badSymbol h e => rw [e]; rcases h with h | h <;> rw [h] <;> exact .raise (by decide) s
  | row pred h e => rw [h, e]; exact reconstructRow_failsOnly pred hs
  | pixels pixel h hp e => rw [h, e]; exact assembleRow_failsOnly hp hs
  | start h | reset h => rw [h] at hi; exact absurd rfl hi

/-! ### The causes a fetch can raise -/

/-- Why a word is refused: it has more bits than its format, or no row takes it (R106). -/
theorem decode_error {f : Format} {w : Nat} {e : DecodeError} (h : decodeWord f w = .error e) :
    (2 ^ f.width ≤ w ∧ e = .tooWide) ∨ (w < 2 ^ f.width ∧ e = f.reject w) := by
  rcases Nat.lt_or_ge w (2 ^ f.width) with hw | hw
  · rw [decodeWord, if_pos hw] at h
    split at h <;> cases h
    exact .inr ⟨hw, rfl⟩
  · rw [decode_tooWide hw] at h
    cases h
    exact .inl ⟨hw, rfl⟩

/-- A word within its format is refused for the format's own reason. -/
theorem decode_error_of_lt {f : Format} {w : Nat} (hw : w < 2 ^ f.width) {e : DecodeError}
    (h : decodeWord f w = .error e) : e = f.reject w := by
  rcases decode_error h with ⟨hge, -⟩ | ⟨-, he⟩
  · exact absurd hw (Nat.not_lt.2 hge)
  · exact he

theorem causeOf_zlib_error {w : Nat} (hw : w < 2 ^ 16) {e : DecodeError} (h : decodeWord .zlib w = .error e) :
    causeOf e ∈ Phase.zhdr.causes := by
  rw [decode_error_of_lt (f := .zlib) hw h, Format.reject]
  split <;> decide

theorem causeOf_pix_error {w : Nat} (hw : w < 2 ^ 16) {e : DecodeError} (h : decodeWord .pix w = .error e) :
    causeOf e ∈ Phase.check.causes := by
  rw [decode_error_of_lt (f := .pix) hw h, Format.reject]
  split <;> decide

/-- A number of formats LL and DIST that is no symbol is BAD_SYMBOL (R96). -/
theorem causeOf_symbol_error {f : Format} (hf : f = .ll ∨ f = .dist) {w : Nat} {e : DecodeError}
    (h : decodeWord f w = .error e) : causeOf e = .badSymbol := by
  rcases decode_error h with ⟨-, rfl⟩ | ⟨-, rfl⟩
  · rfl
  · rcases hf with rfl | rfl <;> rfl

/-- The 19 code-length symbols are elements (R95). -/
theorem decode_clsym {y : Nat} (hy : y < 19) : ∃ i, decodeWord .clsym y = .ok i := by
  have key : ∀ y : Fin 19, ∃ r ∈ clsymRows, y.val &&& r.mask = r.patt := by decide
  exact exists_decode_of_row (by simp only [Format.width]; omega) (key ⟨y, hy⟩)

section Fetches

variable {cs : List Cause} {f : Format} (hf : f ≠ .ctrl) (hcs : elementCauses f ⊆ cs)
include hf hcs

/-- A fetched word fails with a cause of its format, or with the cause of its refusal. -/
theorem ofDecode_failsOnly {w : Nat} {v : State} (hv : v.runState = .busy)
    (he : ∀ e, decodeWord f w = .error e → causeOf e ∈ cs) :
    FailsOnly cs (Act.ofDecode (decodeWord f w) v).outcome := by
  cases hd : decodeWord f w with
  | error e => exact .raise (he e hd) v
  | ok i =>
    have hi := format_of_decode hd
    exact (exec_failsOnly (hi ▸ hf) hv).mono (hi ▸ hcs)

/-- A Huffman-coded element fails in its code, or as its symbol fails (R153). -/
theorem fetchSymbol_failsOnly {table : Huff} {u : State} (hu : u.runState = .busy) (hcode : .badCode ∈ cs)
    (hstarved : .starved ∈ cs)
    (he : ∀ y e, y ∈ table.sym ∨ y = 0 → decodeWord f y = .error e → causeOf e ∈ cs) :
    FailsOnly cs (fetchSymbol f table u).outcome := by
  cases hl : table.lookup u.peekbit with
  | none => rw [fetchSymbol_badCode hl]; exact .raise hcode u
  | some p =>
    obtain ⟨y, l⟩ := p
    obtain ⟨hy, -⟩ := Huff.lookup_bounds hl
    rcases Nat.lt_or_ge u.work.endBit (u.work.bitPos + l) with hend | hend
    · rw [fetchSymbol_starved hl hend]; exact .raise hstarved u
    · rw [fetchSymbol_ok hl hend]
      exact ofDecode_failsOnly hf hcs (by simpa using hu) fun e => he y e hy

end Fetches

/-! ### The causes a phase can raise -/

theorem fetchBlock_failsOnly {u : State} (hu : u.runState = .busy) :
    FailsOnly Phase.blkhdr.causes (fetchBlock u).outcome := by
  rcases Nat.lt_or_ge u.work.endBit (u.work.bitPos + 3) with hend | hend
  · obtain ⟨v, -, e⟩ := fetchBlock_starved hend
    rw [e]; exact .raise (by decide) v
  · rw [fetchBlock_ok hend]
    refine ofDecode_failsOnly (f := .blk) (by decide) (List.Subset.refl _) (by simpa using hu) fun e he => ?_
    obtain ⟨i, hi⟩ := decode_blk (u.bits_lt u.work.bitPos 3)
    cases hi.symm.trans he

theorem fetchZlib_failsOnly {u : State} (hu : u.runState = .busy) :
    FailsOnly Phase.zhdr.causes (fetchZlib u).outcome := by
  unfold fetchZlib
  split
  · exact .raise (by decide) u
  · exact ofDecode_failsOnly (f := .zlib) (by decide) (by decide) hu fun e he =>
      causeOf_zlib_error (by rw [wordOfBytes_pair]; omega) he

/-- The tests of CHECK, one after another (R392). -/
theorem checkPhase_failsOnly {u : State} (hu : u.runState = .busy) : FailsOnly Phase.check.causes (checkPhase u) := by
  unfold checkPhase
  split
  · exact .raise (by decide) u
  split
  · exact .raise (by decide) u
  split
  · next e he => exact .raise (causeOf_pix_error (u.cfg.imgFmt.extractLsb' 0 16).isLt he) u
  split
  · exact .raise (by decide) u
  split
  · exact .raise (by decide) u
  dsimp only
  split
  · exact .raise (by decide) _
  split
  · exact .raise (by decide) _
  · exact .of_busy hu

theorem infEnd_failsOnly {u : State} (hu : u.runState = .busy) : FailsOnly Phase.infend.causes (infEnd u) := by
  unfold infEnd
  split
  · exact .raise (by decide) u
  · exact .of_busy hu

theorem fetchFilter_failsOnly {u : State} (hu : u.runState = .busy) :
    FailsOnly Phase.defilter.causes (fetchFilter u).outcome := by
  refine ofDecode_failsOnly (f := .row) (by decide) (by decide) hu fun e he => ?_
  rw [decode_error_of_lt (f := .row) (by simp only [wordOfBytes, Format.width]; omega) he]
  exact List.mem_singleton.2 rfl

/-- CHECK has let only a word of format PIX through (R392 tests 3 and 4). -/
theorem fetchPixel_failsOnly {u : State} (hu : u.runState = .busy) (hg : GeometryOk u) :
    FailsOnly Phase.assemble.causes (fetchPixel u).outcome := by
  obtain ⟨-, -, -, -, ⟨i, hi⟩, -⟩ := hg
  exact ofDecode_failsOnly (f := .pix) (by decide) (List.Subset.refl _) hu fun e he => by cases hi.symm.trans he

/-- No table of a dynamic header gives a symbol outside the 19 (R46, R95). -/
theorem fetchSymbol_clsym_failsOnly {u : State} (hu : u.runState = .busy) (hsym : ∀ y ∈ u.work.clt.sym, y < 19) :
    FailsOnly Phase.dynhdr.causes (fetchSymbol .clsym u.work.clt u).outcome := by
  refine fetchSymbol_failsOnly (by decide) (by decide) hu (by decide) (by decide) fun y e hy he => ?_
  obtain ⟨i, hi⟩ := decode_clsym (hy.elim (hsym y) fun h => by omega)
  cases hi.symm.trans he

theorem fetchBody_failsOnly {u : State} (hu : u.runState = .busy) :
    FailsOnly Phase.body.causes (fetchBody u).outcome := by
  have refused : ∀ f, f = .ll ∨ f = .dist → ∀ y e, decodeWord f y = .error e → causeOf e ∈ Phase.body.causes :=
    fun f hf y e he => by rw [causeOf_symbol_error hf he]; decide
  by_cases hm : u.work.matchLen = none
  · rw [fetchBody_ll hm]
    exact fetchSymbol_failsOnly (by decide) (by decide) hu (by decide) (by decide) fun y e _ =>
      refused .ll (.inl rfl) y e
  · rw [fetchBody_dist hm]
    exact fetchSymbol_failsOnly (by decide) (by decide) hu (by decide) (by decide) fun y e _ =>
      refused .dist (.inr rfl) y e

/-- In a good state the engine's step fails with a cause of its phase only. -/
theorem engine_failsOnly {u : State} (hinv : Inv u) (hb : u.runState = .busy) :
    FailsOnly u.phase.causes (engineAct u).outcome := by
  obtain ⟨-, -, ⟨-, hstored, hfixed, -⟩, -, ⟨hgeometry, -⟩, -, ⟨hclt, -⟩⟩ := hinv
  cases hp : u.phase with
  | idle => rw [engine_fault hb hp]; exact fun _ ht => nomatch ht
  | stored => exact absurd hp hstored
  | fixed => exact absurd hp hfixed
  | check => rw [engine_check hb hp]; exact checkPhase_failsOnly hb
  | zhdr => rw [engineAct_zhdr hb hp]; exact fetchZlib_failsOnly hb
  | blkhdr => rw [engineAct_blkhdr hb hp]; exact fetchBlock_failsOnly hb
  | dynhdr => rw [engineAct_dynhdr hb hp]; exact fetchSymbol_clsym_failsOnly hb (hclt hp)
  | body => rw [engineAct_body hb hp]; exact fetchBody_failsOnly hb
  | infend => rw [engineAct_infend hb hp]; exact infEnd_failsOnly hb
  | defilter => rw [engineAct_defilter hb hp]; exact fetchFilter_failsOnly hb
  | assemble => rw [engineAct_assemble hb hp]; exact fetchPixel_failsOnly hb (hgeometry (by rw [hp]; rfl))

/-- Settles O57: the invariant does not speak of the host's list, and each phase has its own causes. -/
theorem causesByPhase : Obligations.CausesByPhase := by
  intro s u t hturn hinv hb hstep hfailed
  have hcause : t.errCause ∈ s.phase.causes := by
    rw [hturn.step] at hstep
    rcases hturn with ⟨-, rfl⟩ | ⟨rest, -, rfl⟩
    · exact engine_failsOnly hinv hb t hstep hfailed
    · exact engine_failsOnly (u := { s with host := rest }) hinv hb t hstep hfailed
  revert hcause
  generalize s.phase = p
  cases p <;> simp [Phase.causes]

end Sys2Proof.Machine
